-- ==== Sys2Proof/Word.lean ====
section
/-! DEFINITION. The widths of the block's values (spec/00_scope.md section 5): u8, u16, u32 and u64, all unsigned. -/
namespace Sys2Proof

/-- A u8: a channel of a pixel, an item of the byte source or of the byte sink (R5, R62). -/
abbrev Byte := BitVec 8

/-- A u16: an RGB565 colour (R120). -/
abbrev Half := BitVec 16

/-- A u32: a register, a command word, a pixel word, a header field (R4, R22, R90, R98). -/
abbrev Word := BitVec 32

/-- A u64: a byte counter or a byte offset (92 D24). -/
abbrev Count := BitVec 64

end Sys2Proof
end

