-- ==== Sys2Proof/Syntax.lean ====
section
/-! DEFINITION. The commands of LFC command set 1, one constructor per row of spec/opcode_table.json (R91 to R93). -/
namespace Sys2Proof

/-- A legal command. The operand fields are the only ones a legal word leaves free (R92, R93). -/
inductive Instr where
  /-- NOP (R220). -/
  | nop
  /-- SRST (R221). -/
  | srst
  /-- CVT565 (R126). -/
  | cvt565
  /-- CVT565A8 (R127). -/
  | cvt565a8
  /-- ENCF.AUTO (R93, R150): the format follows HAS_ALPHA. -/
  | encfAuto (hasAlpha : Bool)
  /-- ENCF.FMT (R93, R150): the format is the 8-bit code FMT. -/
  | encfFmt (fmt : BitVec 8)
  /-- CENCB (R180). -/
  | cencb
  /-- CENCE (R182). -/
  | cence
  /-- DECF (R166). -/
  | decf
  /-- DECN (R185). -/
  | decn
  /-- DECS (R187). -/
  | decs
  /-- DECSEC (R186). -/
  | decsec
  deriving DecidableEq, Repr

end Sys2Proof
end

