-- ==== Sys2Proof/WellFormed.lean ====
section
/-! DEFINITION. What the host may write down: a legal command, and an access to the register window (R60, R93). -/
namespace Sys2Proof

/-- Every term of `Instr` is a legal command: R93 admits both values of HAS_ALPHA and every 8-bit FMT, and the other
commands have no operand (R92). There is no ill-formed term, so there is no check that could refuse one. -/
def Instr.wf (_ : Instr) : Bool := true

/-- A host access the block specifies: 32 bits wide, at a 4-byte-aligned offset 0x00..0xFC (R60). -/
def accessWf (off width : Nat) : Bool := decide (width = 4 ∧ off % 4 = 0 ∧ off < 0x100)

end Sys2Proof
end

