-- ==== Sys2Proof/Decode.lean ====
section
/-! DEFINITION. Command words: the decoder, total on every 32-bit word and refusing by name (R90 to R95), and after it
the encoder and the opcode table's rows, each written from the spec's own tables (R92, R93). -/
namespace Sys2Proof

/-- Why a command word is illegal: the five cases of R94. -/
inductive IllegalWord where
  /-- OP is unassigned. -/
  | unassignedOp
  /-- OP is assigned but not ENCF, and one of bits 31:8 is 1. -/
  | reservedBits
  /-- OP is ENCF, and one of bits 31:24 or 15:10 is 1. -/
  | encfReservedBits
  /-- OP is ENCF with AUTO = 1 and FMT ≠ 0. -/
  | autoWithFmt
  /-- OP is ENCF with AUTO = 0 and HAS_ALPHA = 1. -/
  | alphaWithoutAuto
  deriving DecidableEq, Repr

/-- Field OP, bits 7:0 (R90). -/
def opField (w : Word) : BitVec 8 := w.extractLsb' 0 8
/-- Field AUTO, bit 8 (R90). -/
def autoField (w : Word) : Bool := w.getLsbD 8
/-- Field HAS_ALPHA, bit 9 (R90). -/
def alphaField (w : Word) : Bool := w.getLsbD 9
/-- Field FMT, bits 23:16 (R90). -/
def fmtField (w : Word) : BitVec 8 := w.extractLsb' 16 8
/-- The reserved field, bits 15:10 (R90). -/
def reservedLow (w : Word) : BitVec 6 := w.extractLsb' 10 6
/-- The reserved field, bits 31:24 (R90). -/
def reservedHigh (w : Word) : BitVec 8 := w.extractLsb' 24 8

/-- The opcode of ENCF (R91). -/
def encfOp : BitVec 8 := 0x20

/-- The assigned opcodes other than ENCF's, with their commands (R91). -/
def plainOps : List (BitVec 8 × Instr) :=
  [(0x00, .nop), (0x01, .srst), (0x10, .cvt565), (0x11, .cvt565a8), (0x21, .cencb), (0x22, .cence),
   (0x30, .decf), (0x31, .decn), (0x32, .decs), (0x33, .decsec)]

/-- The two legal forms of an ENCF word (R93), and what R94 says of every other word with that OP. -/
def decodeEncf (w : Word) : Except IllegalWord Instr :=
  if reservedHigh w ≠ 0 ∨ reservedLow w ≠ 0 then .error .encfReservedBits
  else if autoField w then
    if fmtField w ≠ 0 then .error .autoWithFmt else .ok (.encfAuto (alphaField w))
  else if alphaField w then .error .alphaWithoutAuto
  else .ok (.encfFmt (fmtField w))

/-- The decoder: OP alone tells the command, then the other fields are checked (R90, R94). Every word either has one
form or is illegal (R95). -/
def decodeWord (w : Word) : Except IllegalWord Instr :=
  if opField w = encfOp then decodeEncf w
  else match plainOps.lookup (opField w) with
    | none => .error .unassignedOp
    | some i => if w.extractLsb' 8 24 = 0 then .ok i else .error .reservedBits

/-- The word of a legal command (R92, R93). -/
def encode : Instr → Word
  | .nop => 0x00000000
  | .srst => 0x00000001
  | .cvt565 => 0x00000010
  | .cvt565a8 => 0x00000011
  | .encfAuto hasAlpha => if hasAlpha then 0x00000320 else 0x00000120
  | .encfFmt fmt => 0x00000020 ||| (fmt.setWidth 32 <<< 16)
  | .cencb => 0x00000021
  | .cence => 0x00000022
  | .decf => 0x00000030
  | .decn => 0x00000031
  | .decs => 0x00000032
  | .decsec => 0x00000033

/-- The row of spec/opcode_table.json that a command belongs to: its match and its mask. -/
def tableRow : Instr → Word × Word
  | .nop => (0x00000000, 0xFFFFFFFF)
  | .srst => (0x00000001, 0xFFFFFFFF)
  | .cvt565 => (0x00000010, 0xFFFFFFFF)
  | .cvt565a8 => (0x00000011, 0xFFFFFFFF)
  | .encfAuto _ => (0x00000120, 0xFFFFFDFF)
  | .encfFmt _ => (0x00000020, 0xFF00FFFF)
  | .cencb => (0x00000021, 0xFFFFFFFF)
  | .cence => (0x00000022, 0xFFFFFFFF)
  | .decf => (0x00000030, 0xFFFFFFFF)
  | .decn => (0x00000031, 0xFFFFFFFF)
  | .decs => (0x00000032, 0xFFFFFFFF)
  | .decsec => (0x00000033, 0xFFFFFFFF)

/-- What the decoder reads from a word whose bits are `w`, numbered as spec/opcode_table.json numbers them; the bits
from `nbits` up are 0. A command word has no byte order: the host writes it whole (R23, R69). A row wider than the one
command length of R90 is no command word (log entry 19). -/
def decodeTableWord (nbits w : Nat) : Option Instr :=
  if nbits ≤ 32 then (decodeWord (BitVec.ofNat 32 (w % 2 ^ nbits))).toOption else none

end Sys2Proof
end

