-- ==== Sys2Proof/Config.lean ====
section
/-! DEFINITION. What an instance of the block fixes (MAX_SECTIONS) and the free values: what a host read returns while
the block is busy (93 U6, U7). A free value is a constant with no body, applied to the number of values drawn so far. -/
namespace Sys2Proof

/-- MAX_SECTIONS of the instance that `State.reset` describes: the spec's default, 16 (00_scope section 4, 92 D25).
DESIGN CHOICE (log entry 8): safe for claims over all states, because a state's MAX_SECTIONS is the length of its
section table and every length 1..32 is a state. -/
def Config.maxSections : Nat := 16

/-- The value the n-th drawn read returns when it is of a register other than STATUS while BUSY = 1: unspecified
(R73, R248, 93 U6), CMD and the reserved offsets among them. Free value (log entry 4), safe. -/
opaque Config.busyRead : Nat → Word

/-- Which of the states its command passes through the n-th drawn read shows, when it is of STATUS while BUSY = 1
(R73, R248, 93 U7). Used modulo the number of those states. Free value (log entry 4), safe. -/
opaque Config.busyState : Nat → Nat

/-- Whether the n-th drawn read, of STATUS while BUSY = 1, already shows WARN_TRAIL, in a command that may warn (R236
sets the bit before the command finishes). Free value (log entry 5), safe. -/
opaque Config.busyWarn : Nat → Bool

end Sys2Proof
end

