-- ==== Sys2Proof/Machine/State.lean ====
section
/-! DEFINITION. The state of the block as plain data (spec/10_state.md), with the port histories (R46) and the run's
inputs (92, parameters left to the model), the reasons a step can stop, and the state right after reset (R44). -/
namespace Sys2Proof.Machine

/-- The values of STATUS.STATE (R25). The reserved values 12..15 are never produced (93 U12). -/
inductive BlockState where
  | idle | rdHdr | valMagic | rdPay | done | fail | cvt | eHdr | ePay | cBound | cTrail | cCheck
  deriving DecidableEq, Repr

/-- The values of STATUS.CODE (R230). The reserved values are never produced (93 U12). -/
inductive Code where
  | ok | truncHdr | invalidMagic | truncPayload | frameCountMismatch | illegalCmd | unsupportedFmt | badDim
  | lenMismatch | srcIo | sinkIo
  deriving DecidableEq, Repr

/-- The fields of STATUS (R24). The word software reads is `Status.word`. -/
structure Status where
  busy : Bool
  done : Bool
  err : Bool
  warnTrail : Bool
  wrWhileBusy : Bool
  code : Code
  hdrAvail : BitVec 5
  state : BlockState
  deriving DecidableEq, Repr

/-- A frame header: six u32 fields in the fixed order of R102. -/
structure Header where
  magic : Word
  colorFormat : Word
  flags : Word
  width : Word
  height : Word
  stride : Word
  deriving DecidableEq, Repr

/-- The two pixel formats that have a conversion (R104): code 0x12 and code 0x14. -/
inductive PixelFormat where
  | rgb565 | rgb565a8
  deriving DecidableEq, Repr

/-- How the byte source ends: cleanly, or in an I/O failure with a code (R63). -/
inductive SourceEnd where
  | eos
  | err (code : Word)
  deriving DecidableEq, Repr

/-- The items of the byte source from its position on, and its terminator (R45, R63). -/
structure Source where
  bytes : List Byte
  ending : SourceEnd
  deriving DecidableEq, Repr

/-- The byte sink's answer to one write attempt (R66). -/
inductive SinkAnswer where
  | accept
  | reject (code : Word)
  deriving DecidableEq, Repr

/-- A frame record of the record-out port (R110). -/
structure Record where
  sectionIdx : Word
  index : Word
  offset : Count
  header : Header
  payload : List Byte
  deriving DecidableEq, Repr

/-- The streams a host presents at a reset (R221, R277). -/
structure Streams where
  src : Source
  pix : List Word
  deriving DecidableEq, Repr

/-- An ENCF that waits for a pixel word (R67): its format and the pixels it has still to read. -/
structure EncodeJob where
  fmt : PixelFormat
  remaining : Nat
  deriving DecidableEq, Repr

/-- A host access made while a command is busy (R73, R248): to the 32-bit register at offset 4 times `reg`. -/
inductive BusyAccess where
  | write (reg : Fin 64) (v : Word)
  | read (reg : Fin 64)
  deriving DecidableEq, Repr

/-- One event of the host (R80 to R82). -/
inductive HostEvent where
  /-- MemWrite(off, width, v) (R60). -/
  | write (off width : Nat) (v : Word)
  /-- MemRead(off, width) (R60). -/
  | read (off width : Nat)
  /-- These accesses fall while the command that runs next, or that goes on next, is busy (R73, R81). -/
  | overlap (accesses : List BusyAccess)
  /-- The pixel source has these further words ready (R67). -/
  | pixels (words : List Word)
  /-- The streams the host will present at the next reset (R221, R277). -/
  | stage (streams : Streams)
  /-- Power-on reset (R270). -/
  | powerOn
  /-- Power-on reset falls inside the command that runs next, or that goes on next, once `k` of its sink bytes or of its
  records are out (R250, R270). -/
  | powerOnWithin (k : Nat)
  deriving DecidableEq, Repr

/-- The counters whose overflow is outside the model (92 D24). -/
inductive Counter where
  | cursor | outCount | expCount | framesDone
  deriving DecidableEq, Repr

/-- Why the machine stops. Every error of the spec is a next state (R235), so there is one fault. -/
inductive Fault where
  /-- Raised by the step when an ENCF waits for a pixel word and the host has no event left: no agent has a step, the
  stuck case of R67 and 93 U15. Safe: the hardware goes on waiting. -/
  | pixelStarved
  deriving DecidableEq, Repr

/-- Why the model gives a step no meaning. -/
inductive Refusal where
  /-- Raised by an arm of `exec` whose instruction has no meaning yet. Safe. No arm of this model raises it. -/
  | notModelled (mnemonic : String)
  /-- Raised by the host's read or write that is not an aligned 32-bit access inside the window (R60, 93 U9). Safe. -/
  | badHostAccess (off width : Nat)
  /-- Raised by the primitive that would move a counter past its width (R27, R33, 92 D24, 93 U14). Safe. -/
  | counterOverflow (c : Counter)
  deriving DecidableEq, Repr

/-- The block's registers and hidden state, the histories of its output ports, and the run's inputs. -/
structure State where
  /-- STATUS (R24). -/
  status : Status
  /-- EVT_OFFSET (R26). -/
  evtOffset : Count
  /-- CURSOR, which is also the byte-source position (R27, R45). -/
  cursor : Count
  /-- OUT_COUNT (R28). -/
  outCount : Count
  /-- EXP_COUNT (R29). -/
  expCount : Count
  /-- TRAIL_COUNT (R30). -/
  trailCount : Count
  /-- IN_WIDTH (R31). -/
  inWidth : Word
  /-- IN_HEIGHT (R31). -/
  inHeight : Word
  /-- FRAME_COUNT (R32). -/
  frameCount : Word
  /-- FRAMES_DONE (R33). -/
  framesDone : Word
  /-- HDR_MAGIC .. HDR_STRIDE (R34). -/
  hdr : Header
  /-- CVT_IN (R35). -/
  cvtIn : Word
  /-- CVT_OUT (R36). -/
  cvtOut : Word
  /-- SINK_ERR (R37). -/
  sinkErr : Word
  /-- SRC_ERR (R37). -/
  srcErr : Word
  /-- SEC_NUM (R38). -/
  secNum : Word
  /-- CUR_SECTION (R39). -/
  curSection : Word
  /-- SEC_COUNT[i] (R40). Its length is MAX_SECTIONS. -/
  secCount : List Word
  /-- The ENCF that waits for a pixel word, if one does (R67, R73). -/
  running : Option EncodeJob
  /-- The remaining items of the byte source (R45). -/
  src : Source
  /-- The remaining pixel words that are ready (R45). -/
  pix : List Word
  /-- The pixel index: pixel words taken since reset (R45). -/
  pixIndex : Nat
  /-- The sink history: every byte the sink accepted, oldest first (R46). -/
  sink : List Byte
  /-- The record history: every record delivered, oldest first (R46). -/
  records : List Record
  /-- Input: the sink's answers to its next attempts (R66). -/
  sinkAnswers : List SinkAnswer
  /-- Input: the sink's answer to every attempt after those (R66). -/
  sinkRest : SinkAnswer
  /-- Input: the streams the host presents at the next reset (R221). -/
  staged : Streams
  /-- Input: the host's coming events, oldest first (R82). -/
  host : List HostEvent
  /-- Input: the accesses the host makes while the next command is busy (R73). -/
  overlap : List BusyAccess
  /-- Input: power-on reset falls inside the next command, after so many of its sink bytes or records (R250). -/
  cut : Option Nat
  /-- Output: what host reads returned, oldest first, each with its offset (R60). -/
  readLog : List (Nat × Word)
  /-- The number of values drawn by busy reads so far (93 U6, U7). -/
  draws : Nat
  deriving DecidableEq, Repr

/-- STATUS = 0x00000000 (R44). -/
def Status.reset : Status :=
  { busy := false, done := false, err := false, warnTrail := false, wrWhileBusy := false, code := .ok,
    hdrAvail := 0, state := .idle }

/-- Every HDR_* register is 0 (R44). -/
def Header.zero : Header :=
  { magic := 0, colorFormat := 0, flags := 0, width := 0, height := 0, stride := 0 }

/-- The state right after power-on reset (R44, R270): every register 0, the port positions 0. The run's inputs are
empty and the sink accepts every byte: DESIGN CHOICE, unsafe (log entries 1, 3, 6, 7, 12, 17), named there one by one; no
statement rests on them. -/
def State.reset : State :=
  { status := Status.reset
    evtOffset := 0, cursor := 0, outCount := 0, expCount := 0, trailCount := 0
    inWidth := 0, inHeight := 0, frameCount := 0, framesDone := 0
    hdr := Header.zero
    cvtIn := 0, cvtOut := 0, sinkErr := 0, srcErr := 0
    secNum := 0, curSection := 0, secCount := List.replicate Config.maxSections 0
    running := none
    src := { bytes := [], ending := .eos }, pix := [], pixIndex := 0
    sink := [], records := []
    sinkAnswers := [], sinkRest := .accept
    staged := { src := { bytes := [], ending := .eos }, pix := [] }
    host := [], overlap := [], cut := none, readLog := [], draws := 0 }

end Sys2Proof.Machine
end

