-- ==== Sys2Proof/Machine/Flags.lean ====
section
/-! DEFINITION. The STATUS register: its word (R24, R25, R230) and every way its fields change (R42, R235, R236). -/
namespace Sys2Proof.Machine

/-- The number of a state in STATUS.STATE (R25). -/
def BlockState.num : BlockState → BitVec 4
  | .idle => 0 | .rdHdr => 1 | .valMagic => 2 | .rdPay => 3 | .done => 4 | .fail => 5
  | .cvt => 6 | .eHdr => 7 | .ePay => 8 | .cBound => 9 | .cTrail => 10 | .cCheck => 11

/-- The number of a status code (R230). -/
def Code.num : Code → BitVec 8
  | .ok => 0x00 | .truncHdr => 0x01 | .invalidMagic => 0x02 | .truncPayload => 0x03 | .frameCountMismatch => 0x04
  | .illegalCmd => 0x10 | .unsupportedFmt => 0x11 | .badDim => 0x12 | .lenMismatch => 0x13
  | .srcIo => 0x20 | .sinkIo => 0x21

/-- The 32 bits of STATUS, from bit 31 down to bit 0 (R24); the reserved bits read 0. -/
def Status.word (st : Status) : Word :=
  (0#4 ++ st.state.num ++ 0#3 ++ st.hdrAvail ++ st.code.num ++ 0#3 ++ BitVec.ofBool st.wrWhileBusy
    ++ BitVec.ofBool st.warnTrail ++ BitVec.ofBool st.err ++ BitVec.ofBool st.done ++ BitVec.ofBool st.busy : BitVec 32)

/-- STATUS at a command's start (R42). STATE is changed by the command's own steps, so it keeps its value here. -/
def Status.started (st : Status) : Status :=
  { busy := true, done := false, err := false, warnTrail := false, wrWhileBusy := false, code := .ok, hdrAvail := 0,
    state := st.state }

/-- STATUS at a command's completion without error (R42). -/
def Status.finished (st : Status) : Status := { st with busy := false, done := true, state := .done }

/-- STATUS after raise Error(code, ..) with HDR_AVAIL as given (R235). -/
def Status.failed (st : Status) (code : Code) (avail : BitVec 5) : Status :=
  { st with err := true, code := code, hdrAvail := avail, state := .fail, busy := false, done := true }

/-- STATUS after warn TrailingBytes (R236). -/
def Status.warned (st : Status) : Status := { st with warnTrail := true }

/-- STATUS after a host write was dropped (R248). -/
def Status.writeDropped (st : Status) : Status := { st with wrWhileBusy := true }

/-- The STATE that the n-th drawn read shows, when it is of STATUS while BUSY = 1: one of those in `seen`, the states
the running command passes through (R73, R248, 93 U7). DESIGN CHOICE, safe (log entry 20): `seen` lists the states of
the command's kind, whatever this run of it enters. -/
def drawnState (seen : List BlockState) (n : Nat) (st : Status) : BlockState :=
  seen.getD (Config.busyState n % seen.length) st.state

/-- What the n-th drawn read of STATUS returns while BUSY = 1 (R248). A command that may warn may show the warning
already (R236; log entry 5). -/
def busyStatusWord (seen : List BlockState) (mayWarn : Bool) (n : Nat) (st : Status) : Word :=
  Status.word { st with state := drawnState seen n st, warnTrail := mayWarn && Config.busyWarn n }

end Sys2Proof.Machine
end

