-- ==== Sys2Proof/Machine/Operands.lean ====
section
/-! DEFINITION. The operands of commands and of host accesses: the fields of a pixel word (R98) and the registers of
the register window, each with its offset, its read and its write (R22, R41, R61). -/
namespace Sys2Proof.Machine

/-- Channel r of a pixel word (R98). -/
def pixelR (w : Word) : Byte := w.extractLsb' 0 8
/-- Channel g of a pixel word (R98). -/
def pixelG (w : Word) : Byte := w.extractLsb' 8 8
/-- Channel b of a pixel word (R98). -/
def pixelB (w : Word) : Byte := w.extractLsb' 16 8
/-- Channel a of a pixel word (R98). -/
def pixelA (w : Word) : Byte := w.extractLsb' 24 8

/-- The registers of the window (R22). A 64-bit register is two of them (R41). -/
inductive Reg where
  | cmd | status | evtOffsetLo | evtOffsetHi | cursorLo | cursorHi | outCountLo | outCountHi | expCountLo | expCountHi
  | trailCountLo | trailCountHi | inWidth | inHeight | frameCount | framesDone | hdrMagic | hdrFormat | hdrFlags
  | hdrWidth | hdrHeight | hdrStride | cvtIn | cvtOut | sinkErr | srcErr | secNum | curSection
  | secCount (i : Nat)
  | reserved
  deriving DecidableEq, Repr

/-- The register at an aligned offset of the window, in an instance with `n` SEC_COUNT registers (R22). -/
def regAt (n off : Nat) : Reg :=
  match off with
  | 0x00 => .cmd
  | 0x04 => .status
  | 0x08 => .evtOffsetLo
  | 0x0C => .evtOffsetHi
  | 0x10 => .cursorLo
  | 0x14 => .cursorHi
  | 0x18 => .outCountLo
  | 0x1C => .outCountHi
  | 0x20 => .expCountLo
  | 0x24 => .expCountHi
  | 0x28 => .trailCountLo
  | 0x2C => .trailCountHi
  | 0x30 => .inWidth
  | 0x34 => .inHeight
  | 0x38 => .frameCount
  | 0x3C => .framesDone
  | 0x40 => .hdrMagic
  | 0x44 => .hdrFormat
  | 0x48 => .hdrFlags
  | 0x4C => .hdrWidth
  | 0x50 => .hdrHeight
  | 0x54 => .hdrStride
  | 0x58 => .cvtIn
  | 0x5C => .cvtOut
  | 0x60 => .sinkErr
  | 0x64 => .srcErr
  | 0x68 => .secNum
  | 0x6C => .curSection
  | _ => if 0x80 ≤ off ∧ off < 0x80 + 4 * n then .secCount ((off - 0x80) / 4) else .reserved

/-- Bits 31:0 of a 64-bit register, at the lower offset (R41). -/
def lowHalf (v : Count) : Word := v.extractLsb' 0 32
/-- Bits 63:32 of a 64-bit register, at the next offset (R41). -/
def highHalf (v : Count) : Word := v.extractLsb' 32 32

/-- What a read of a register returns while BUSY = 0 (R61). CMD and the reserved offsets read 0. -/
def regValue (s : State) : Reg → Word
  | .cmd => 0
  | .status => s.status.word
  | .evtOffsetLo => lowHalf s.evtOffset
  | .evtOffsetHi => highHalf s.evtOffset
  | .cursorLo => lowHalf s.cursor
  | .cursorHi => highHalf s.cursor
  | .outCountLo => lowHalf s.outCount
  | .outCountHi => highHalf s.outCount
  | .expCountLo => lowHalf s.expCount
  | .expCountHi => highHalf s.expCount
  | .trailCountLo => lowHalf s.trailCount
  | .trailCountHi => highHalf s.trailCount
  | .inWidth => s.inWidth
  | .inHeight => s.inHeight
  | .frameCount => s.frameCount
  | .framesDone => s.framesDone
  | .hdrMagic => s.hdr.magic
  | .hdrFormat => s.hdr.colorFormat
  | .hdrFlags => s.hdr.flags
  | .hdrWidth => s.hdr.width
  | .hdrHeight => s.hdr.height
  | .hdrStride => s.hdr.stride
  | .cvtIn => s.cvtIn
  | .cvtOut => s.cvtOut
  | .sinkErr => s.sinkErr
  | .srcErr => s.srcErr
  | .secNum => s.secNum
  | .curSection => s.curSection
  | .secCount i => s.secCount.getD i 0
  | .reserved => 0

/-- What the window reads at an offset while BUSY = 0 (R60, R61). -/
def readWindow (s : State) (off : Nat) : Word := regValue s (regAt s.secCount.length off)

/-- What a write of SEC_NUM stores: min(v, MAX_SECTIONS) (R38). -/
def legalSecNum (n : Nat) (v : Word) : Word := BitVec.ofNat 32 (min v.toNat n)

/-- A write of a register other than CMD while BUSY = 0 (R61): a RW register stores the value, SEC_NUM the legal one;
a write of a RO register or of a reserved offset is ignored. CMD is not written here: its write starts a command (R75)
and the register keeps nothing (R23). -/
def writeReg (r : Reg) (v : Word) (s : State) : State :=
  match r with
  | .inWidth => { s with inWidth := v }
  | .inHeight => { s with inHeight := v }
  | .frameCount => { s with frameCount := v }
  | .cvtIn => { s with cvtIn := v }
  | .secNum => { s with secNum := legalSecNum s.secCount.length v }
  | .secCount i => { s with secCount := s.secCount.set i v }
  | .cmd | .status | .evtOffsetLo | .evtOffsetHi | .cursorLo | .cursorHi | .outCountLo | .outCountHi | .expCountLo
  | .expCountHi | .trailCountLo | .trailCountHi | .framesDone | .hdrMagic | .hdrFormat | .hdrFlags | .hdrWidth
  | .hdrHeight | .hdrStride | .cvtOut | .sinkErr | .srcErr | .curSection | .reserved => s

end Sys2Proof.Machine
end

