-- ==== Sys2Proof/Machine/Wire.lean ====
section
/-! DEFINITION. The wire formats: little-endian values (R69, R70), the frame header (R100 to R103, R140, R141), the
lengths (R108, R145) and the PixelFormat codes with a conversion (R104, R143, R144). -/
namespace Sys2Proof.Machine

/-- `le16(v)`: the two bytes of a u16, low byte first (R70). -/
def le16 (v : Half) : List Byte := [v.extractLsb' 0 8, v.extractLsb' 8 8]

/-- `le32(v)`: the four bytes of a u32, low byte first (R69). -/
def le32 (v : Word) : List Byte :=
  [v.extractLsb' 0 8, v.extractLsb' 8 8, v.extractLsb' 16 8, v.extractLsb' 24 8]

/-- Byte i of a byte sequence, as a u32. Every caller stays inside the sequence. -/
def byteAt (s : List Byte) (i : Nat) : Word := (s.getD i 0).setWidth 32

/-- `rd_le32(s, i)` (00_scope section 5, R69). -/
def rdLe32 (s : List Byte) (i : Nat) : Word :=
  byteAt s i ||| byteAt s (i + 1) <<< 8 ||| byteAt s (i + 2) <<< 16 ||| byteAt s (i + 3) <<< 24

/-- The magic of every header (R101). -/
def frameMagic : Word := 0x4C56474C

/-- The length of a header in bytes (R100). -/
def headerLength : Nat := 24

/-- `pack_header(h)` (R140). -/
def packHeader (h : Header) : List Byte :=
  le32 h.magic ++ le32 h.colorFormat ++ le32 h.flags ++ le32 h.width ++ le32 h.height ++ le32 h.stride

/-- `unpack_header(s)`, for a sequence of 24 bytes (R141). It checks nothing. -/
def unpackHeader (s : List Byte) : Header :=
  { magic := rdLe32 s 0, colorFormat := rdLe32 s 4, flags := rdLe32 s 8
    width := rdLe32 s 12, height := rdLe32 s 16, stride := rdLe32 s 20 }

/-- `payload_length(h)`, exact (R145). -/
def payloadLength (h : Header) : Nat := h.height.toNat * h.stride.toNat

/-- The length of a frame in bytes (R108). -/
def frameLength (h : Header) : Nat := headerLength + payloadLength h

/-- The bytes of one frame: its header, then its payload at once (R107). -/
def frameBytes (h : Header) (payload : List Byte) : List Byte := packHeader h ++ payload

/-- The code of a format that has a conversion (R104). -/
def PixelFormat.code : PixelFormat → Word
  | .rgb565 => 0x12
  | .rgb565a8 => 0x14

/-- The formats that ENCF accepts: code 0x12 and code 0x14 (R104, R152). -/
def supportedFormat (code : Word) : Option PixelFormat :=
  if code = 0x12 then some .rgb565 else if code = 0x14 then some .rgb565a8 else none

/-- `bpp(fmt)`: bytes per pixel (R144). -/
def PixelFormat.bpp : PixelFormat → Nat
  | .rgb565 => 2
  | .rgb565a8 => 3

/-- `select_format(AUTO, HAS_ALPHA, FMT)` (R143). -/
def selectFormat (auto hasAlpha : Bool) (fmt : BitVec 8) : Word :=
  if auto then (if hasAlpha then 0x14 else 0x12) else fmt.setWidth 32

/-- The header ENCF writes for a width, a height and a format (R150). The stride is W × bpp, which R151 has checked to
fit a u32. -/
def encodedHeader (fmt : PixelFormat) (w h : Word) : Header :=
  { magic := frameMagic, colorFormat := fmt.code, flags := 0, width := w, height := h
    stride := BitVec.ofNat 32 (w.toNat * fmt.bpp) }

end Sys2Proof.Machine
end

