-- ==== Sys2Proof/Machine/Ops.lean ====
section
/-! DEFINITION. The named operations every command is made of: start and completion (R42), raise and warn (R235, R236),
reset (R44, R221), host accesses while busy (R248), and the stream primitives (R64 to R68). -/
namespace Sys2Proof.Machine

/-- The outcome of a part of a command's pseudocode. -/
inductive Run (α : Type) where
  /-- The part ran and the next part goes on from `s`. -/
  | ok (a : α) (s : State)
  /-- No later part runs: an error ended the command (R235), or ENCF waits for a pixel word (R67). -/
  | stopped (s : State)
  /-- The model gives this run no meaning (92 D24). -/
  | refused (r : Refusal)

/-- One part, then the next (the order of the pseudocode, R74, R244). -/
def Run.bind {α β : Type} (x : Run α) (f : α → State → Run β) : Run β :=
  match x with
  | .ok a s => f a s
  | .stopped s => .stopped s
  | .refused r => .refused r

/-! ### Start, completion, errors, warning -/

/-- What the host reads get that fall while a command is busy, from the n-th draw on (R248): STATUS shows BUSY = 1 and
one of the states in `seen`; every other register returns an unspecified value. A write among them sets WR_WHILE_BUSY,
which a later STATUS read then shows. CMD and the reserved offsets count as other registers here, DESIGN CHOICE, safe
(log entry 4): the spec reads them as 0 (R22, R23, 93 U10) and calls every read but that of STATUS unspecified (R248). -/
def busyReads (seen : List BlockState) (mayWarn : Bool) (st : Status) (n : Nat) :
    List BusyAccess → List (Nat × Word)
  | [] => []
  | .write _ _ :: as => busyReads seen mayWarn st.writeDropped n as
  | .read r :: as =>
    (4 * r.val, if r.val = 1 then busyStatusWord seen mayWarn n st else Config.busyRead n)
      :: busyReads seen mayWarn st (n + 1) as

/-- A host write. -/
def BusyAccess.isWrite : BusyAccess → Bool
  | .write _ _ => true
  | .read _ => false

/-- The status after the accesses that fall while a command is busy: the flag of R248, and nothing else. -/
def Status.afterAccesses (st : Status) (as : List BusyAccess) : Status :=
  if as.any BusyAccess.isWrite then st.writeDropped else st

/-- A command's start (R42), and the host accesses that fall while it is busy (R73, R248): the writes are dropped and
flagged, the reads are logged, nothing else changes. `seen` lists the states the command passes through after the one
it starts in, and `mayWarn` says whether it may warn. DESIGN CHOICE, safe (log entry 20): both are given by the command's
kind, so a read may show a state that this run never enters, because an error or an empty input ends it first. -/
def startCommand (seen : List BlockState) (mayWarn : Bool) (s : State) : State :=
  { s with
    status := s.status.started.afterAccesses s.overlap
    evtOffset := 0, trailCount := 0, framesDone := 0, curSection := 0, sinkErr := 0, srcErr := 0
    running := none
    overlap := []
    readLog := s.readLog ++ busyReads (s.status.state :: seen) mayWarn s.status.started s.draws s.overlap
    draws := s.draws + s.overlap.countP (fun a => !a.isWrite) }

/-- A waiting command goes on: the host accesses that fall while it does (R73, R248). -/
def continueCommand (seen : List BlockState) (s : State) : State :=
  { s with
    status := s.status.afterAccesses s.overlap
    running := none
    overlap := []
    readLog := s.readLog ++ busyReads seen false s.status s.draws s.overlap
    draws := s.draws + s.overlap.countP (fun a => !a.isWrite) }

/-- STATE <- b (R25). -/
def setBlockState (b : BlockState) (s : State) : State := { s with status := { s.status with state := b } }

/-- `finish`: completion without error (R42). -/
def finish (s : State) : State := { s with status := s.status.finished, running := none }

/-- `raise Error(code, off)` for a code other than TRUNC_HDR (R235). -/
def raiseError (code : Code) (off : Count) (s : State) : State :=
  { s with status := s.status.failed code 0, evtOffset := off, running := none }

/-- `raise Error(TRUNC_HDR, off, n)` (R235). -/
def raiseTruncHdr (off : Count) (n : Nat) (s : State) : State :=
  { s with status := s.status.failed .truncHdr (BitVec.ofNat 5 n), evtOffset := off, running := none }

/-- `warn TrailingBytes(off, n)`, with TRAIL_COUNT <- n, which its callers set just before (R236). -/
def warnTrailing (off : Count) (n : Nat) (s : State) : State :=
  { s with trailCount := BitVec.ofNat 64 n, status := s.status.warned, evtOffset := off }

/-- The end of a command's pseudocode: `finish` where every part ran (R42). -/
def Run.outcome (x : Run Unit) : Host.Outcome State Fault Refusal :=
  match x with
  | .ok _ s => .next (finish s)
  | .stopped s => .next s
  | .refused r => .refused r

/-! ### Reset -/

/-- Power-on reset and SRST (R44, R221, R270): every register takes its reset value and the port positions return to 0,
over the streams the host has staged (R277). What lies outside the block stays: the histories, the sink, the host. -/
def resetBlock (s : State) : State :=
  { State.reset with
    secCount := List.replicate s.secCount.length 0
    src := s.staged.src
    pix := s.staged.pix
    sink := s.sink
    records := s.records
    sinkAnswers := s.sinkAnswers
    sinkRest := s.sinkRest
    staged := s.staged
    host := s.host
    overlap := s.overlap
    readLog := s.readLog
    draws := s.draws }

/-- Power-on reset inside a command that began in `s` and, left alone, ends in `t` (R250, R270): `k` of its sink bytes or
records are out, which stay (R46), and the rest of it has no effect. -/
def abandonCommand (k : Nat) (s t : State) : State :=
  { resetBlock t with
    sink := t.sink.take (s.sink.length + k)
    records := t.records.take (s.records.length + k)
    sinkAnswers := if s.sink.length + k ≤ t.sink.length then s.sinkAnswers.drop k else t.sinkAnswers }

/-- The answer to a command that began in `s`: its own, unless power-on reset falls inside it (R250). -/
def unlessCut (s : State) (o : Host.Outcome State Fault Refusal) : Host.Outcome State Fault Refusal :=
  match s.cut, o with
  | some k, .next t => .next (abandonCommand k s t)
  | _, o => o

/-! ### Byte source -/

/-- `SrcRead(k)` (R64). -/
def srcRead (k : Nat) (s : State) : Run (List Byte) :=
  let got := s.src.bytes.take k
  if s.cursor.toNat + got.length < 2 ^ 64 then
    let s' : State :=
      { s with src := { s.src with bytes := s.src.bytes.drop k }, cursor := s.cursor + BitVec.ofNat 64 got.length }
    if got.length < k then
      match s.src.ending with
      | .err e => .stopped (raiseError .srcIo s'.cursor { s' with srcErr := e })
      | .eos => .ok got s'
    else .ok got s'
  else .refused (.counterOverflow .cursor)

/-- `SrcDrain()` (R65). -/
def srcDrain (s : State) : Run Nat :=
  let n := s.src.bytes.length
  if s.cursor.toNat + n < 2 ^ 64 then
    let s' : State := { s with src := { s.src with bytes := [] }, cursor := s.cursor + BitVec.ofNat 64 n }
    match s.src.ending with
    | .err e => .stopped (raiseError .srcIo s'.cursor { s' with srcErr := e })
    | .eos => .ok n s'
  else .refused (.counterOverflow .cursor)

/-! ### Byte sink -/

/-- One write attempt of `SinkWrite` (R66): the sink answers, and the answer is used up. -/
def sinkByte (b : Byte) (s : State) : Run Unit :=
  let s' : State := { s with sinkAnswers := s.sinkAnswers.tail }
  match s.sinkAnswers.headD s.sinkRest with
  | .reject e => .stopped (raiseError .sinkIo s.outCount { s' with sinkErr := e })
  | .accept =>
    if s.outCount.toNat + 1 < 2 ^ 64 then .ok () { s' with sink := s.sink ++ [b], outCount := s.outCount + 1 }
    else .refused (.counterOverflow .outCount)

/-- `SinkWrite(bs)`: the bytes in order, one at a time (R66). -/
def sinkWrite : List Byte → State → Run Unit
  | [], s => .ok () s
  | b :: bs, s => (sinkByte b s).bind fun _ s => sinkWrite bs s

/-! ### Pixel-in and record-out ports -/

/-- `PixRead()` (R67): the next word and the state after it, or nothing where no word is ready. -/
def pixRead (s : State) : Option (Word × State) :=
  match s.pix with
  | [] => none
  | w :: ws => some (w, { s with pix := ws, pixIndex := s.pixIndex + 1 })

/-- `RecEmit(rec)` (R68). FRAMES_DONE past its width is outside the model (92 D24). -/
def recEmit (rec : Record) (s : State) : Run Unit :=
  if s.framesDone.toNat + 1 < 2 ^ 32 then
    .ok () { s with records := s.records ++ [rec], framesDone := s.framesDone + 1 }
  else .refused (.counterOverflow .framesDone)

end Sys2Proof.Machine
end

