-- ==== Sys2Proof/Machine/Color.lean ====
section
/-! DEFINITION. ColorConverter (spec/40_color_convert.md): the datapath functions and the two commands over them. -/
namespace Sys2Proof.Machine

/-- `rgb565(r, g, b)`, the source's expression (R120). It truncates (R122). -/
def rgb565 (r g b : Byte) : Half :=
  ((r.setWidth 16 &&& 0xF8) <<< 8) ||| ((g.setWidth 16 &&& 0xFC) <<< 3) ||| (b.setWidth 16 >>> 3)

/-- `rgb565a8(r, g, b, a)`: the colour, and the alpha unchanged (R123). -/
def rgb565a8 (r g b a : Byte) : Half × Byte := (rgb565 r g b, a)

/-- `ser16(c)` (R124). -/
def ser16 (c : Half) : List Byte := le16 c

/-- `pixbytes(fmt, w)`: the payload bytes of one pixel word (R125). -/
def pixbytes (fmt : PixelFormat) (w : Word) : List Byte :=
  match fmt with
  | .rgb565 => ser16 (rgb565 (pixelR w) (pixelG w) (pixelB w))
  | .rgb565a8 =>
    let (c, a) := rgb565a8 (pixelR w) (pixelG w) (pixelB w) (pixelA w)
    ser16 c ++ [a]

/-- CVT565 (R126). -/
def execCvt565 (s : State) : Host.Outcome State Fault Refusal :=
  let s := setBlockState .cvt (startCommand [.cvt] false s)
  let w := s.cvtIn
  .next (finish { s with cvtOut := (rgb565 (pixelR w) (pixelG w) (pixelB w)).setWidth 32 })

/-- CVT565A8 (R127). -/
def execCvt565a8 (s : State) : Host.Outcome State Fault Refusal :=
  let s := setBlockState .cvt (startCommand [.cvt] false s)
  let w := s.cvtIn
  let (c, a) := rgb565a8 (pixelR w) (pixelG w) (pixelB w) (pixelA w)
  .next (finish { s with cvtOut := c.setWidth 32 ||| (a.setWidth 32 <<< 16) })

end Sys2Proof.Machine
end

