-- ==== Sys2Proof/Machine/Frame.lean ====
section
/-! DEFINITION. FrameEncoder and FrameDecoder (spec/41_frame_codec.md): ENCF in its two forms, the shared procedure
DecodeAt, and DECF. -/
namespace Sys2Proof.Machine

/-! ### ENCF -/

/-- The pixel loop of ENCF over the `n` pixels it has still to read (R150, R153): each word is read, then its bytes are
written, before the next word is read. Where no word is ready the command waits, still busy (R67, 93 U15). -/
def encodePixels (fmt : PixelFormat) : Nat → State → Run Unit
  | 0, s => .ok () s
  | n + 1, s =>
    match pixRead s with
    | none => .stopped { s with running := some { fmt := fmt, remaining := n + 1 } }
    | some (w, s) => (sinkWrite (pixbytes fmt w) s).bind fun _ s => encodePixels fmt n s

/-- EXP_COUNT grows by a frame's length (R29, R150). Past its width the run is outside the model (92 D24). -/
def addExpected (len : Nat) (s : State) : Run Unit :=
  if s.expCount.toNat + len < 2 ^ 64 then .ok () { s with expCount := s.expCount + BitVec.ofNat 64 len }
  else .refused (.counterOverflow .expCount)

/-- The dimensions that ENCF refuses (R151): a zero, or a stride that does not fit the u32 field. -/
def badDimensions (fmt : PixelFormat) (w h : Word) : Bool :=
  decide (w = 0 ∨ h = 0 ∨ w.toNat * fmt.bpp > 0xFFFFFFFF)

/-- The body of ENCF for a supported format and legal dimensions (R150). -/
def encodeFrame (fmt : PixelFormat) (s : State) : Run Unit :=
  let h := encodedHeader fmt s.inWidth s.inHeight
  (addExpected (frameLength h) { s with hdr := h }).bind fun _ s =>
  (sinkWrite (packHeader h) (setBlockState .eHdr s)).bind fun _ s =>
  encodePixels fmt (h.width.toNat * h.height.toNat) (setBlockState .ePay s)

/-- ENCF with the format code that its word selects (R150): UNSUPPORTED_FMT before BAD_DIM (R152). -/
def encodeCommand (code : Word) (s : State) : Run Unit :=
  match supportedFormat code with
  | none => .stopped (raiseError .unsupportedFmt s.outCount s)
  | some fmt =>
    if badDimensions fmt s.inWidth s.inHeight then .stopped (raiseError .badDim s.outCount s)
    else encodeFrame fmt s

/-- ENCF.AUTO (R93, R150). A busy STATUS read may show E_HDR or E_PAY however the run ends, in BAD_DIM too: DESIGN
CHOICE, safe (log entry 20). -/
def execEncfAuto (hasAlpha : Bool) (s : State) : Host.Outcome State Fault Refusal :=
  (encodeCommand (selectFormat true hasAlpha 0) (startCommand [.eHdr, .ePay] false s)).outcome

/-- ENCF.FMT (R93, R150). A busy STATUS read may show E_HDR or E_PAY however the run ends, in UNSUPPORTED_FMT or BAD_DIM
too: DESIGN CHOICE, safe (log entry 20). -/
def execEncfFmt (fmt : BitVec 8) (s : State) : Host.Outcome State Fault Refusal :=
  (encodeCommand (selectFormat false false fmt) (startCommand [.eHdr, .ePay] false s)).outcome

/-- The states a waiting ENCF passes through (R25, R150): those of the command's kind, E_HDR among them (log entry
20). -/
def waitingStates : List BlockState := [.eHdr, .ePay]

/-- A waiting ENCF goes on where it waits, once a word is ready (R67). -/
def resumeEncode (job : EncodeJob) (s : State) : Host.Outcome State Fault Refusal :=
  (encodePixels job.fmt job.remaining (continueCommand waitingStates s)).outcome

/-! ### DecodeAt and DECF -/

/-- What DecodeAt returns (R160). -/
inductive FrameRead where
  /-- A whole frame, with the offset of its first header byte. -/
  | frame (base : Count) (h : Header) (payload : List Byte)
  /-- A header of which only `n` bytes, 0..23, could be read. -/
  | short (base : Count) (n : Nat)
  deriving DecidableEq, Repr

/-- `DecodeAt()` (R160). The magic is the only field it checks (R165). -/
def decodeAt (s : State) : Run FrameRead :=
  let base := s.cursor
  (srcRead headerLength (setBlockState .rdHdr s)).bind fun hb s =>
  if hb.length < headerLength then .ok (.short base hb.length) s
  else
    let h := unpackHeader hb
    let s := { setBlockState .valMagic s with hdr := h }
    if h.magic ≠ frameMagic then .stopped (raiseError .invalidMagic base s)
    else
      (srcRead (payloadLength h) (setBlockState .rdPay s)).bind fun payload s =>
      if payload.length < payloadLength h then .stopped (raiseError .truncPayload base s)
      else .ok (.frame base h payload) s

/-- The body of DECF (R166). -/
def decodeOne (s : State) : Run Unit :=
  (decodeAt s).bind fun r s =>
  match r with
  | .short base n => .stopped (raiseTruncHdr base n s)
  | .frame base h payload =>
    recEmit { sectionIdx := 0, index := 0, offset := base, header := h, payload := payload } s

/-- DECF (R166). A busy STATUS read may show any of the three states of DecodeAt however the run ends, after a short
header too: DESIGN CHOICE, safe (log entry 20). -/
def execDecf (s : State) : Host.Outcome State Fault Refusal :=
  (decodeOne (startCommand [.rdHdr, .valMagic, .rdPay] false s)).outcome

end Sys2Proof.Machine
end

