-- ==== Sys2Proof/Machine/Bus.lean ====
section
/-! DEFINITION. The host's side (spec/20_memory.md sections 2, 8 and 9): its accesses while the block is idle and while
it is busy, its other events, and whose turn the next step is. -/
namespace Sys2Proof.Machine

/-- What a step turns out to be, before any command word is decoded. -/
inductive Turn where
  /-- The step is done: it ran no command. -/
  | ended (o : Host.Outcome State Fault Refusal)
  /-- The host wrote the word `w` to CMD while BUSY = 0: the command runs from `s` (R75). -/
  | command (w : Word) (s : State)

/-- A host read at an aligned offset (R60). While BUSY = 0 it returns the register and has no side effect (R61); while
BUSY = 1 the value is drawn (R248), for CMD and the reserved offsets too: DESIGN CHOICE, safe (log entry 4). -/
def hostRead (off : Nat) (s : State) : State :=
  if s.status.busy then
    { s with
      readLog := s.readLog ++ [(off,
        if off = 4 then busyStatusWord waitingStates false s.draws s.status else Config.busyRead s.draws)]
      draws := s.draws + 1 }
  else { s with readLog := s.readLog ++ [(off, readWindow s off)] }

/-- A host write at an aligned offset (R60): dropped and flagged while BUSY = 1 (R248), else a command for CMD (R75) and
the register's write for every other offset (R61). -/
def hostWrite (off : Nat) (v : Word) (s : State) : Turn :=
  if s.status.busy then .ended (.next { s with status := s.status.writeDropped })
  else if off = 0 then .command v s
  else .ended (.next (writeReg (regAt s.secCount.length off) v s))

/-- One event of the host (R80 to R82). -/
def hostEvent (e : HostEvent) (s : State) : Turn :=
  match e with
  | .write off width v => if accessWf off width then hostWrite off v s else .ended (.refused (.badHostAccess off width))
  | .read off width => if accessWf off width then .ended (.next (hostRead off s)) else .ended (.refused (.badHostAccess off width))
  | .overlap as => .ended (.next { s with overlap := as })
  | .pixels ws => .ended (.next { s with pix := s.pix ++ ws })
  | .stage st => .ended (.next { s with staged := st })
  | .powerOn => .ended (.next (resetBlock s))
  | .powerOnWithin k => .ended (.next { s with cut := some k })

/-- The host's turn: its oldest event. With no event left, an idle block holds all its state (R253), and a block that
waits for a pixel word is stuck (R67, 93 U15). -/
def hostTurn (s : State) : Turn :=
  match s.host with
  | e :: rest => hostEvent e { s with host := rest }
  | [] => .ended (if s.status.busy then .fault .pixelStarved else .next s)

/-- Whose turn it is: a waiting ENCF goes on as soon as a word is ready, before the host's next event (log entry 3). -/
def nextTurn (s : State) : Turn :=
  match s.running, s.pix with
  | some job, _ :: _ => .ended (unlessCut s (resumeEncode job s))
  | _, _ => hostTurn s

/-- The state in which the host's next event writes a word to CMD of an idle block: what `State.withFetchWord` places. -/
def withCommand (w : Word) (s : State) : State :=
  { s with host := .write 0 4 w :: s.host, running := none, cut := none, status := { s.status with busy := false } }

end Sys2Proof.Machine
end

