-- ==== Sys2Proof/Machine/Container.lean ====
section
/-! DEFINITION. ContainerCodec (spec/42_container.md): the container encode commands CENCB and CENCE, the shared decode
procedures DecodeCounted and DrainTrailing, and the container decode commands DECN, DECS and DECSEC. -/
namespace Sys2Proof.Machine

/-! ### Container encoding -/

/-- CENCB (R180). -/
def execCencb (s : State) : Host.Outcome State Fault Refusal :=
  .next (finish { startCommand [] false s with outCount := 0, expCount := 0 })

/-- CENCE (R182). -/
def execCence (s : State) : Host.Outcome State Fault Refusal :=
  let s := setBlockState .cCheck (startCommand [.cCheck] false s)
  if s.outCount ≠ s.expCount then .next (raiseError .lenMismatch s.outCount s) else .next (finish s)

/-! ### Shared decode procedures -/

/-- The record of a frame of a container. Its index is the number of records the command has emitted before it, which
is FRAMES_DONE (R183; log entry 13). -/
def containerRecord (sectionIdx : Word) (base : Count) (h : Header) (payload : List Byte) (s : State) : Record :=
  { sectionIdx := sectionIdx, index := s.framesDone, offset := base, header := h, payload := payload }

/-- The inner loop of `DecodeCounted`: exactly `n` frames of one section (R184). -/
def decodeFrames (sectionIdx : Word) : Nat → State → Run Unit
  | 0, s => .ok () s
  | n + 1, s =>
    (decodeAt (setBlockState .cBound s)).bind fun r s =>
    match r with
    | .short base 0 => .stopped (raiseError .frameCountMismatch base s)
    | .short base (k + 1) => .stopped (raiseTruncHdr base (k + 1) s)
    | .frame base h payload =>
      (recEmit (containerRecord sectionIdx base h payload s) s).bind fun _ s => decodeFrames sectionIdx n s

/-- The outer loop of `DecodeCounted`: the sections in list order, from number `i` on (R184). -/
def decodeSections : Nat → List Word → State → Run Unit
  | _, [], s => .ok () s
  | i, c :: cs, s =>
    (decodeFrames (BitVec.ofNat 32 i) c.toNat { s with curSection := BitVec.ofNat 32 i }).bind fun _ s =>
    decodeSections (i + 1) cs s

/-- `DrainTrailing()` (R188). -/
def drainTrailing (s : State) : Run Unit :=
  let base := s.cursor
  (srcDrain (setBlockState .cTrail s)).bind fun n s =>
  if n > 0 then .ok () (warnTrailing base n s) else .ok () { s with trailCount := 0 }

/-- `DecodeCounted(counts)` (R184). -/
def decodeCounted (counts : List Word) (s : State) : Run Unit :=
  (decodeSections 0 counts s).bind fun _ s => drainTrailing s

/-- The loop of DECS (R187). `idx = 0` is FRAMES_DONE = 0 (R183). The number of rounds is bounded by `fuel`: every round
that goes on consumes at least 24 bytes, so a fuel above the number of source bytes never runs out (log entry 14). -/
def decodeScan : (fuel : Nat) → State → Run Unit
  | 0, s => .ok () s
  | fuel + 1, s =>
    (decodeAt (setBlockState .cBound s)).bind fun r s =>
    match r with
    | .frame base h payload =>
      (recEmit (containerRecord 0 base h payload s) s).bind fun _ s => decodeScan fuel s
    | .short base n =>
      if s.framesDone = 0 ∧ n = 0 then .stopped (raiseError .frameCountMismatch base s)
      else if s.framesDone = 0 then .stopped (raiseTruncHdr base n s)
      else if n = 0 then .ok () s
      else .ok () (warnTrailing base n s)

/-- The states a container decode passes through (R25, R161), C_TRAIL apart, which DECN and DECSEC add. They are those of
the command's kind: a busy STATUS read may show any of them in every run, RD_PAY in a DECN of 0 frames too: DESIGN
CHOICE, safe (log entry 20). -/
def containerStates : List BlockState := [.cBound, .rdHdr, .valMagic, .rdPay]

/-- DECN (R185): one section of FRAME_COUNT frames. -/
def execDecn (s : State) : Host.Outcome State Fault Refusal :=
  let s := startCommand (.cTrail :: containerStates) true s
  (decodeCounted [s.frameCount] s).outcome

/-- DECS (R187). -/
def execDecs (s : State) : Host.Outcome State Fault Refusal :=
  (decodeScan (s.src.bytes.length + 1) (startCommand containerStates true s)).outcome

/-- DECSEC (R186): the sections of SEC_COUNT[0..SEC_NUM-1]. -/
def execDecsec (s : State) : Host.Outcome State Fault Refusal :=
  let s := startCommand (.cTrail :: containerStates) true s
  (decodeCounted (s.secCount.take s.secNum.toNat) s).outcome

end Sys2Proof.Machine
end

