-- ==== Sys2Proof/Machine/Control.lean ====
section
/-! DEFINITION. The control commands (spec/43_control.md) and the illegal command word (R94, R237). -/
namespace Sys2Proof.Machine

/-- NOP (R220): only the common start and completion. -/
def execNop (s : State) : Host.Outcome State Fault Refusal := .next (finish (startCommand [] false s))

/-- SRST (R221): the reset state, with DONE = 0 and STATE = IDLE. -/
def execSrst (s : State) : Host.Outcome State Fault Refusal := .next (resetBlock (startCommand [] false s))

/-- An illegal command word (R94, R237): the status fields of R42 and ILLEGAL_CMD at offset 0, nothing else. -/
def illegalCommand (s : State) : State := raiseError .illegalCmd 0 (startCommand [] false s)

end Sys2Proof.Machine
end

