-- ==== Sys2Proof/Machine/Dispatch.lean ====
section
/-! DEFINITION. The meaning of every command, one arm per constructor of Instr. -/
namespace Sys2Proof.Machine

def exec (i : Instr) (s : State) : Host.Outcome State Fault Refusal :=
  match i with
  | .nop => Sys2Proof.Machine.execNop s
  | .srst => Sys2Proof.Machine.execSrst s
  | .cvt565 => Sys2Proof.Machine.execCvt565 s
  | .cvt565a8 => Sys2Proof.Machine.execCvt565a8 s
  | .encfAuto hasAlpha => Sys2Proof.Machine.execEncfAuto hasAlpha s
  | .encfFmt fmt => Sys2Proof.Machine.execEncfFmt fmt s
  | .cencb => Sys2Proof.Machine.execCencb s
  | .cence => Sys2Proof.Machine.execCence s
  | .decf => Sys2Proof.Machine.execDecf s
  | .decn => Sys2Proof.Machine.execDecn s
  | .decs => Sys2Proof.Machine.execDecs s
  | .decsec => Sys2Proof.Machine.execDecsec s

end Sys2Proof.Machine
end

