-- ==== Sys2Proof/Machine/Step.lean ====
section
/-! DEFINITION. One step of the machine: one event of the host, a whole command if that event is a CMD write (R73), or
the block's own next move. -/
namespace Sys2Proof.Machine

/-- The command a word encodes, run from a state; an illegal word raises ILLEGAL_CMD (R94). -/
def runWord (w : Word) (s : State) : Host.Outcome State Fault Refusal :=
  match decodeWord w with
  | .ok i => exec i s
  | .error _ => .next (illegalCommand s)

/-- One step. -/
def step (s : State) : Host.Outcome State Fault Refusal :=
  match nextTurn s with
  | .ended o => o
  | .command w s => unlessCut s (runWord w s)

/-- The state whose next step runs the command word with bits `w`, the bits from `nbits` up being 0: the host is about
to write it to CMD of an idle block (log entry 1). -/
def State.withFetchWord (s : State) (nbits w : Nat) : State := withCommand (BitVec.ofNat 32 (w % 2 ^ nbits)) s

end Sys2Proof.Machine
end

