-- ==== Sys2Proof/Safety.lean ====
section
/-! DEFINITION. The terms claims use: the invariant of the block, what a command leaves unchanged, the status a command
ends with, what the sink will answer, and the frames and records of a container. -/
namespace Sys2Proof.Machine

/-! ### The invariant -/

/-- The invariants of STATUS: the three of R24, and what R25, R30, R42, R235 and R236 say of its fields together. -/
def statusInv (st : Status) : Prop :=
  (st.err = true → st.code ≠ .ok ∧ st.warnTrail = false)
  ∧ (st.warnTrail = true → st.err = false ∧ st.code = .ok)
  ∧ (st.done = true → st.busy = false)
  ∧ (st.busy = false → st.state = .idle ∨ st.state = .done ∨ st.state = .fail)
  ∧ (st.busy = true → st.state = .ePay ∧ st.err = false ∧ st.warnTrail = false)
  ∧ (st.err = true ↔ st.state = .fail)
  ∧ (st.err = false → st.code = .ok)
  ∧ (st.code ≠ .truncHdr → st.hdrAvail = 0)
  ∧ st.hdrAvail.toNat ≤ 23

/-- The result registers agree with the event the last command reported (R26, R30, R37). -/
def resultInv (s : State) : Prop :=
  (s.evtOffset ≠ 0 → s.status.err = true ∨ s.status.warnTrail = true)
  ∧ (s.trailCount ≠ 0 ↔ s.status.warnTrail = true)
  ∧ (s.sinkErr ≠ 0 → s.status.code = .sinkIo)
  ∧ (s.srcErr ≠ 0 → s.status.code = .srcIo)

/-- The bytes a waiting ENCF has still to write (R150). -/
def pendingBytes (s : State) : Nat :=
  match s.running with
  | none => 0
  | some job => job.remaining * job.fmt.bpp

/-- A command that waits is the one reason to be busy between steps (R73), it waits for a pixel (R67), and it has no
more bytes to write than EXP_COUNT has been given for it (R29). -/
def runningInv (s : State) : Prop :=
  (s.status.busy = true ↔ s.running.isSome = true)
  ∧ (∀ job, s.running = some job → 0 < job.remaining)
  ∧ s.outCount.toNat + pendingBytes s ≤ s.expCount.toNat

/-- The counts agree with the histories (R33, R45). -/
def historyInv (s : State) : Prop :=
  s.outCount.toNat ≤ s.sink.length ∧ s.framesDone.toNat ≤ s.records.length

/-- A record is a whole frame with the magic, its payload of exactly height × stride bytes (R110, R160, 95 W9). -/
def Record.ok (r : Record) : Prop :=
  r.header.magic = frameMagic ∧ r.payload.length = payloadLength r.header

/-- The registers with a restricted range: MAX_SECTIONS 1..32 (92 D25), SEC_NUM (R38), CUR_SECTION (R39), CVT_OUT (R36). -/
def rangeInv (s : State) : Prop :=
  1 ≤ s.secCount.length ∧ s.secCount.length ≤ 32
  ∧ s.secNum.toNat ≤ s.secCount.length
  ∧ s.curSection.toNat < s.secCount.length
  ∧ s.cvtOut.toNat < 2 ^ 24

/-- The invariant of the block between steps. -/
def State.Inv (s : State) : Prop :=
  statusInv s.status ∧ resultInv s ∧ runningInv s ∧ historyInv s ∧ (∀ r ∈ s.records, r.ok) ∧ rangeInv s

/-! ### What a command leaves unchanged -/

/-- The registers the host writes (R43). -/
def keepsSettings (s t : State) : Prop :=
  t.inWidth = s.inWidth ∧ t.inHeight = s.inHeight ∧ t.frameCount = s.frameCount ∧ t.cvtIn = s.cvtIn
  ∧ t.secNum = s.secNum ∧ t.secCount = s.secCount

/-- The byte source and CURSOR (R27, R45). -/
def keepsSource (s t : State) : Prop := t.src = s.src ∧ t.cursor = s.cursor

/-- The pixel port (R45). -/
def keepsPixels (s t : State) : Prop := t.pix = s.pix ∧ t.pixIndex = s.pixIndex

/-- The byte sink and its counts (R28, R29, R46), and the answers it has still to give. -/
def keepsSink (s t : State) : Prop :=
  t.sink = s.sink ∧ t.outCount = s.outCount ∧ t.expCount = s.expCount ∧ t.sinkAnswers = s.sinkAnswers

/-- What no command changes at all: the sink's later answers, the staged streams, the host's coming events. -/
def keepsWorld (s t : State) : Prop := t.sinkRest = s.sinkRest ∧ t.staged = s.staged ∧ t.host = s.host

/-- The registers that hold the last command's results beside STATUS (R42). -/
def resultsAre (t : State) (evt trail : Count) (frames sectionIdx sinkErr srcErr : Word) : Prop :=
  t.evtOffset = evt ∧ t.trailCount = trail ∧ t.framesDone = frames ∧ t.curSection = sectionIdx
  ∧ t.sinkErr = sinkErr ∧ t.srcErr = srcErr

/-! ### How a command ends -/

/-- STATUS of a command that succeeded, begun in state `s` (R42): WARN_TRAIL as given (R236), and WR_WHILE_BUSY if the
host wrote a register meanwhile (R248). -/
def successStatus (s : State) (warn : Bool) : Status :=
  { busy := false, done := true, err := false, warnTrail := warn, wrWhileBusy := s.overlap.any BusyAccess.isWrite
    code := .ok, hdrAvail := 0, state := .done }

/-- STATUS of a command that an error ended, begun in state `s` (R235). -/
def errorStatus (s : State) (code : Code) (avail : BitVec 5) : Status :=
  { busy := false, done := true, err := true, warnTrail := false, wrWhileBusy := s.overlap.any BusyAccess.isWrite
    code := code, hdrAvail := avail, state := .fail }

/-! ### The sink -/

/-- The sink's answer to its write attempt number `k` from now on (R66). -/
def sinkAnswerAt (s : State) (k : Nat) : SinkAnswer := s.sinkAnswers.getD k s.sinkRest

/-- The sink accepts its next `n` bytes (R66). -/
def sinkAccepts (s : State) (n : Nat) : Prop := ∀ k, k < n → sinkAnswerAt s k = .accept

/-! ### Formats of ENCF -/

/-- The ENCF commands that select a format with a conversion, and that format: the four words of R93. -/
def encodesIn (i : Instr) (fmt : PixelFormat) : Prop :=
  (i = .encfAuto false ∧ fmt = .rgb565) ∨ (i = .encfAuto true ∧ fmt = .rgb565a8)
  ∨ (i = .encfFmt 0x12 ∧ fmt = .rgb565) ∨ (i = .encfFmt 0x14 ∧ fmt = .rgb565a8)

/-- ENCF in either form, whatever its fields. -/
def isEncode (i : Instr) : Prop := (∃ a, i = .encfAuto a) ∨ ∃ f, i = .encfFmt f

/-- The length of the frame that ENCF writes for the dimensions in a state (R150): 24 + H × (W × bpp). -/
def encodedLength (fmt : PixelFormat) (s : State) : Nat :=
  24 + s.inHeight.toNat * (s.inWidth.toNat * fmt.bpp)

/-- The dimensions that ENCF accepts (R150, R151): none is 0, and the stride fits a u32. -/
def goodDimensions (fmt : PixelFormat) (s : State) : Prop :=
  s.inWidth ≠ 0 ∧ s.inHeight ≠ 0 ∧ s.inWidth.toNat * fmt.bpp ≤ 0xFFFFFFFF

/-! ### The states of a command -/

/-- The states that each kind of command passes through (R25, R126, R127, R150, R161, R182, R184, R187, R188), the one it
starts in apart. A busy STATUS read shows one of them or the one it starts in (R73, R248; log entries 5 and 20). -/
def passesThrough : Instr → List BlockState
  | .nop | .srst | .cencb => []
  | .cvt565 | .cvt565a8 => [.cvt]
  | .encfAuto _ | .encfFmt _ => [.eHdr, .ePay]
  | .cence => [.cCheck]
  | .decf => [.rdHdr, .valMagic, .rdPay]
  | .decs => [.cBound, .rdHdr, .valMagic, .rdPay]
  | .decn | .decsec => [.cBound, .rdHdr, .valMagic, .rdPay, .cTrail]

/-! ### Frames and records of a container -/

/-- A frame: a header and a payload. -/
abbrev FrameData := Header × List Byte

/-- A frame a decoder reads whole (R160): the magic, and a payload of the length the header gives. -/
def FrameData.ok (f : FrameData) : Prop := f.1.magic = frameMagic ∧ f.2.length = payloadLength f.1

/-- The container of a sequence of frames (R107). -/
def containerBytes (fs : List FrameData) : List Byte := fs.flatMap fun f => frameBytes f.1 f.2

/-- The records of the frames of one section, the first with number `index` and at offset `off` (R110, R183). -/
def recordsOf (sectionIdx : Word) : (index off : Nat) → List FrameData → List Record
  | _, _, [] => []
  | index, off, f :: fs =>
    { sectionIdx := sectionIdx, index := BitVec.ofNat 32 index, offset := BitVec.ofNat 64 off, header := f.1
      payload := f.2 } :: recordsOf sectionIdx (index + 1) (off + (frameBytes f.1 f.2).length) fs

/-- The records of a multi-section container: the sections from number `i` on, numbered across sections (R183, R186). -/
def recordsOfSections : (i index off : Nat) → List (List FrameData) → List Record
  | _, _, _, [] => []
  | i, index, off, fs :: rest =>
    recordsOf (BitVec.ofNat 32 i) index off fs
      ++ recordsOfSections (i + 1) (index + fs.length) (off + (containerBytes fs).length) rest

/-- A container decode that has read the frames `secs` reads on for another frame: DECN below FRAME_COUNT (R185), DECS
always (R187), DECSEC with whole sections behind it and inside one that is not complete (R184, R186). The last list of
`secs` holds the frames read of the section it is in. -/
def wantsFrameAfter (i : Instr) (s : State) (secs : List (List FrameData)) : Prop :=
  (i = .decn ∧ ∃ fs, secs = [fs] ∧ fs.length < s.frameCount.toNat)
  ∨ (i = .decs ∧ ∃ fs, secs = [fs])
  ∨ (i = .decsec ∧ ∃ whole fs n later, secs = whole ++ [fs] ∧ fs.length < n
      ∧ (s.secCount.take s.secNum.toNat).map BitVec.toNat = whole.map List.length ++ n :: later)

/-- The frames `secs` are all that DECN or DECSEC wants: FRAME_COUNT of them (R185), or SEC_COUNT[k] in each section k
below SEC_NUM (R186). -/
def wantsExactly (i : Instr) (s : State) (secs : List (List FrameData)) : Prop :=
  (i = .decn ∧ ∃ fs, secs = [fs] ∧ fs.length = s.frameCount.toNat)
  ∨ (i = .decsec ∧ (s.secCount.take s.secNum.toNat).map BitVec.toNat = secs.map List.length)

/-- The header of the last of a sequence of frames, or the one held before them (R34). -/
def lastHeader (h : Header) (fs : List FrameData) : Header := (fs.getLast?.map Prod.fst).getD h

end Sys2Proof.Machine
end

