-- ==== Sys2Proof/Certificates/Slice0/Obligations.lean ====
section
/-! DEFINITION. What is claimed of the block, one proposition per claim, from the numbered rules of spec/. -/

open Sys2Proof Sys2Proof.Machine

/-! ### Command words (spec/30_encoding.md) -/

/-- R92, R93, R95: the decoder reads every legal command back from its word, and a word that decodes is that command's
word. So no two words are one command, and no bit of a word is dropped. -/
def Obligations.DecodeInvertsEncode : Prop :=
  (∀ i : Instr, i.wf = true → decodeWord (encode i) = .ok i)
  ∧ ∀ (w : Word) (i : Instr), decodeWord w = .ok i → i.wf = true ∧ encode i = w

/-- R92 and the four words of R93: each legal word of the tables decodes to its command. -/
def Obligations.TabledWordsDecode : Prop :=
  decodeWord 0x00000000 = .ok .nop ∧ decodeWord 0x00000001 = .ok .srst
  ∧ decodeWord 0x00000010 = .ok .cvt565 ∧ decodeWord 0x00000011 = .ok .cvt565a8
  ∧ decodeWord 0x00000120 = .ok (.encfAuto false) ∧ decodeWord 0x00000320 = .ok (.encfAuto true)
  ∧ decodeWord 0x00120020 = .ok (.encfFmt 0x12) ∧ decodeWord 0x00140020 = .ok (.encfFmt 0x14)
  ∧ decodeWord 0x00000021 = .ok .cencb ∧ decodeWord 0x00000022 = .ok .cence
  ∧ decodeWord 0x00000030 = .ok .decf ∧ decodeWord 0x00000031 = .ok .decn
  ∧ decodeWord 0x00000032 = .ok .decs ∧ decodeWord 0x00000033 = .ok .decsec

/-- R94: a word is illegal exactly in the five cases of the rule. -/
def Obligations.IllegalWordsAreTheFiveCases : Prop :=
  ∀ w : Word,
    let op := w.extractLsb' 0 8
    let assigned : List (BitVec 8) := [0x00, 0x01, 0x10, 0x11, 0x20, 0x21, 0x22, 0x30, 0x31, 0x32, 0x33]
    (∃ r, decodeWord w = .error r) ↔
      op ∉ assigned
      ∨ (op ∈ assigned ∧ op ≠ 0x20 ∧ w.extractLsb' 8 24 ≠ 0)
      ∨ (op = 0x20 ∧ (w.extractLsb' 24 8 ≠ 0 ∨ w.extractLsb' 10 6 ≠ 0))
      ∨ (op = 0x20 ∧ w.getLsbD 8 = true ∧ w.extractLsb' 16 8 ≠ 0)
      ∨ (op = 0x20 ∧ w.getLsbD 8 = false ∧ w.getLsbD 9 = true)

/-- R92, R93, R95 with spec/opcode_table.json: a word is legal exactly if it matches a row of the table under the row's
mask, and then it matches no other row. -/
def Obligations.LegalWordMatchesOneRow : Prop :=
  (∀ w : Word, (∃ i, decodeWord w = .ok i) ↔ ∃ i, w &&& (tableRow i).2 = (tableRow i).1)
  ∧ ∀ (w : Word) (i j : Instr),
      w &&& (tableRow i).2 = (tableRow i).1 → w &&& (tableRow j).2 = (tableRow j).1 → tableRow i = tableRow j

/-! ### One step (spec/20_memory.md, spec/60_exceptions.md) -/

/-- R23, R75: a CMD write while BUSY = 0 starts the command that the word encodes. `running = none` is what the
invariant says of an idle block. What the step adds around `exec` is that the host's event is used up; that the host's
accesses are a list of events in the state is the model's choice (log entry 1). `cut = none`: no power-on reset falls
inside the command (log entry 17). -/
def Obligations.StepRunsTheCommandWritten : Prop :=
  ∀ (s : State) (rest : List HostEvent) (w : Word) (i : Instr),
    s.host = .write 0 4 w :: rest → s.status.busy = false → s.running = none → s.cut = none → decodeWord w = .ok i →
    i.wf = true → step s = exec i { s with host := rest }

/-- R94, R237: an illegal word ends with ILLEGAL_CMD at offset 0 and changes the status fields of R42 only. -/
def Obligations.IllegalWordRaisesIllegalCmd : Prop :=
  ∀ (s : State) (rest : List HostEvent) (w : Word) (r : IllegalWord),
    s.host = .write 0 4 w :: rest → s.status.busy = false → s.running = none → s.cut = none → decodeWord w = .error r →
    ∃ t, step s = .next t ∧ t.status = errorStatus s .illegalCmd 0 ∧ resultsAre t 0 0 0 0 0 0
      ∧ t.cvtOut = s.cvtOut ∧ t.hdr = s.hdr ∧ keepsSettings s t ∧ keepsSource s t ∧ keepsPixels s t ∧ keepsSink s t
      ∧ t.records = s.records ∧ t.running = none ∧ keepsWorld { s with host := rest } t

/-- R31, R32, R35, R38, R40, R61: what every offset of the window reads after a host write of another register than CMD
while BUSY = 0. A read-write register holds the value (SEC_NUM the legal one), and no other offset changes: a write of a
read-only register or of a reserved offset is ignored. Nothing outside the window changes. -/
def Obligations.HostWriteStoresOneRegister : Prop :=
  ∀ (s : State) (rest : List HostEvent) (off : Nat) (v : Word),
    s.host = .write off 4 v :: rest → s.status.busy = false → s.running = none →
    off % 4 = 0 → off < 0x100 → off ≠ 0 →
    ∃ t, step s = .next t
      ∧ (∀ o, o % 4 = 0 → o < 0x100 →
          readWindow t o =
            if o = off ∧ (o ∈ [0x30, 0x34, 0x38, 0x58] ∨ (0x80 ≤ o ∧ o < 0x80 + 4 * s.secCount.length)) then v
            else if o = off ∧ o = 0x68 then BitVec.ofNat 32 (min v.toNat s.secCount.length)
            else readWindow s o)
      ∧ t.status = s.status ∧ keepsSource s t ∧ keepsPixels s t ∧ keepsSink s t ∧ t.records = s.records
      ∧ t.running = none ∧ keepsWorld { s with host := rest } t

/-- R61: a host read while BUSY = 0 returns the register and has no side effect. -/
def Obligations.HostReadHasNoSideEffect : Prop :=
  ∀ (s : State) (rest : List HostEvent) (off : Nat),
    s.host = .read off 4 :: rest → s.status.busy = false → s.running = none → off % 4 = 0 → off < 0x100 →
    step s = .next { s with host := rest, readLog := s.readLog ++ [(off, readWindow s off)] }

/-- R22, R23, R34, R41, R61: which register stands at each offset. CMD and the reserved offsets read 0, and a 64-bit
register reads as its two halves, the high one at the next offset. -/
def Obligations.RegisterMap : Prop :=
  ∀ s : State,
    readWindow s 0x00 = 0 ∧ readWindow s 0x04 = s.status.word
    ∧ readWindow s 0x0C ++ readWindow s 0x08 = s.evtOffset
    ∧ readWindow s 0x14 ++ readWindow s 0x10 = s.cursor
    ∧ readWindow s 0x1C ++ readWindow s 0x18 = s.outCount
    ∧ readWindow s 0x24 ++ readWindow s 0x20 = s.expCount
    ∧ readWindow s 0x2C ++ readWindow s 0x28 = s.trailCount
    ∧ readWindow s 0x30 = s.inWidth ∧ readWindow s 0x34 = s.inHeight
    ∧ readWindow s 0x38 = s.frameCount ∧ readWindow s 0x3C = s.framesDone
    ∧ readWindow s 0x40 = s.hdr.magic ∧ readWindow s 0x44 = s.hdr.colorFormat ∧ readWindow s 0x48 = s.hdr.flags
    ∧ readWindow s 0x4C = s.hdr.width ∧ readWindow s 0x50 = s.hdr.height ∧ readWindow s 0x54 = s.hdr.stride
    ∧ readWindow s 0x58 = s.cvtIn ∧ readWindow s 0x5C = s.cvtOut
    ∧ readWindow s 0x60 = s.sinkErr ∧ readWindow s 0x64 = s.srcErr
    ∧ readWindow s 0x68 = s.secNum ∧ readWindow s 0x6C = s.curSection
    ∧ (∀ off, 0x70 ≤ off → off ≤ 0x7C → readWindow s off = 0)
    ∧ (∀ i, (h : i < s.secCount.length) → readWindow s (0x80 + 4 * i) = s.secCount[i])
    ∧ (∀ off, 0x80 + 4 * s.secCount.length ≤ off → off ≤ 0xFC → readWindow s off = 0)

/-- R24: where each field of STATUS stands, and that the reserved bits read 0. R25, R230: the number of each state and
of each code in its field. -/
def Obligations.StatusFieldsStandWhereR24Says : Prop :=
  ∀ st : Status,
    st.word.getLsbD 0 = st.busy ∧ st.word.getLsbD 1 = st.done ∧ st.word.getLsbD 2 = st.err
    ∧ st.word.getLsbD 3 = st.warnTrail ∧ st.word.getLsbD 4 = st.wrWhileBusy
    ∧ st.word.extractLsb' 5 3 = 0 ∧ st.word.extractLsb' 8 8 = st.code.num ∧ st.word.extractLsb' 16 5 = st.hdrAvail
    ∧ st.word.extractLsb' 21 3 = 0 ∧ st.word.extractLsb' 24 4 = st.state.num ∧ st.word.extractLsb' 28 4 = 0
    ∧ (st.code, st.word.extractLsb' 8 8) ∈
        [(.ok, 0x00), (.truncHdr, 0x01), (.invalidMagic, 0x02), (.truncPayload, 0x03), (.frameCountMismatch, 0x04),
         (.illegalCmd, 0x10), (.unsupportedFmt, 0x11), (.badDim, 0x12), (.lenMismatch, 0x13), (.srcIo, 0x20),
         (.sinkIo, 0x21)]
    ∧ (st.state, st.word.extractLsb' 24 4) ∈
        [(.idle, 0), (.rdHdr, 1), (.valMagic, 2), (.rdPay, 3), (.done, 4), (.fail, 5), (.cvt, 6), (.eHdr, 7),
         (.ePay, 8), (.cBound, 9), (.cTrail, 10), (.cCheck, 11)]

/-- R248: a host write while BUSY = 1 is dropped, whatever its offset, CMD included: it sets WR_WHILE_BUSY only. The
block is waiting for a pixel word, the one way to be busy between two steps (the invariant; log entries 1 and 2 are the
model's choices of what a step is). -/
def Obligations.WriteWhileBusyIsDropped : Prop :=
  ∀ (s : State) (rest : List HostEvent) (off : Nat) (v : Word),
    s.host = .write off 4 v :: rest → s.status.busy = true → s.pix = [] → off % 4 = 0 → off < 0x100 →
    step s = .next { s with host := rest, status := { s.status with wrWhileBusy := true } }

/-- R248 for a waiting ENCF: a read while BUSY = 1 changes nothing but what the host has read; STATUS shows BUSY = 1 and
one of the states ENCF passes through (log entry 5: the model's reading of R248). Log entry 4 names the free values. -/
def Obligations.ReadWhileBusyShowsBusy : Prop :=
  ∀ (s : State) (rest : List HostEvent) (off : Nat),
    s.host = .read off 4 :: rest → s.status.busy = true → s.pix = [] → off % 4 = 0 → off < 0x100 →
    ∃ v : Word, step s = .next { s with host := rest, readLog := s.readLog ++ [(off, v)], draws := s.draws + 1 }
      ∧ (off = 4 → v.getLsbD 0 = true
          ∧ (v.extractLsb' 24 4 = BlockState.eHdr.num ∨ v.extractLsb' 24 4 = BlockState.ePay.num))

/-- R60, 93 U9: a host access that is not an aligned 32-bit access of the window is refused, busy or not (log
entry 10). -/
def Obligations.MisshapenAccessIsRefused : Prop :=
  ∀ (s : State) (rest : List HostEvent) (off width : Nat) (v : Word),
    s.pix = [] ∨ s.running = none → (width ≠ 4 ∨ off % 4 ≠ 0 ∨ 0x100 ≤ off) →
    step { s with host := .write off width v :: rest } = .refused (.badHostAccess off width)
    ∧ step { s with host := .read off width :: rest } = .refused (.badHostAccess off width)

/-- R253, R82: with no host event left an idle block holds all its state. R67, 93 U15: a block that waits for a pixel
word is then stuck, a named fault (log entry 11, the model's choice of how a stuck state shows). -/
def Obligations.NoEventLeftIdleOrStuck : Prop :=
  ∀ s : State, s.host = [] →
    (s.status.busy = false → s.running = none → step s = .next s)
    ∧ (s.status.busy = true → s.pix = [] → step s = .fault .pixelStarved)

/-! ### Reset (R44, R270) and SRST (R221) -/

/-- R44: at reset every register of the window reads 0, STATUS with it, and the port positions are 0. -/
def Obligations.ResetRegistersAreZero : Prop :=
  (∀ off, readWindow State.reset off = 0) ∧ State.reset.status = Status.reset ∧ State.reset.pixIndex = 0
  ∧ State.reset.cursor = 0

/-- The invariant of the block holds at reset. -/
def Obligations.ResetMeetsInvariant : Prop := State.reset.Inv

/-- R221: SRST completes from every state. Every register of the window then reads 0, STATUS is that of reset (DONE = 0,
STATE = IDLE, WR_WHILE_BUSY = 0), the port positions are 0 over the streams the host staged (log entry 7, the model's
choice of how the host presents them), and what lies outside the block is unchanged. -/
def Obligations.SrstResetsTheBlock : Prop :=
  ∀ s : State, ∃ t, exec .srst s = .next t
    ∧ (∀ off, readWindow t off = 0) ∧ t.status = Status.reset ∧ t.secCount.length = s.secCount.length
    ∧ t.cursor = 0 ∧ t.outCount = 0 ∧ t.expCount = 0 ∧ t.pixIndex = 0 ∧ t.running = none
    ∧ t.src = s.staged.src ∧ t.pix = s.staged.pix
    ∧ t.sink = s.sink ∧ t.records = s.records ∧ t.sinkAnswers = s.sinkAnswers ∧ keepsWorld s t

/-- R221, R270: power-on reset, which the host may apply to a busy block too (R250), and SRST leave the same registers,
ports and histories (log entry 17: power-on as an event of the host is the model's choice). -/
def Obligations.PowerOnResetEqualsSrst : Prop :=
  ∀ (s : State) (rest : List HostEvent), s.host = .powerOn :: rest → s.pix = [] ∨ s.running = none → s.overlap = [] →
    step s = exec .srst { s with host := rest }

/-- R46, R250, R270: power-on reset that falls inside a command leaves every register 0 and the streams at their staged
beginning; of what the command would have put out, the first `k` sink bytes or records stay, and the histories from
before it stand. That the host says beforehand where the reset falls is the model's choice (log entry 17). -/
def Obligations.PowerOnInsideCommandResets : Prop :=
  ∀ (s t : State) (rest : List HostEvent) (w : Word) (i : Instr) (k : Nat),
    s.host = .write 0 4 w :: rest → s.status.busy = false → s.running = none → s.cut = some k → decodeWord w = .ok i →
    exec i { s with host := rest } = .next t →
    ∃ u, step s = .next u ∧ (∀ off, readWindow u off = 0) ∧ u.status = Status.reset ∧ u.running = none ∧ u.cut = none
      ∧ u.src = s.staged.src ∧ u.pix = s.staged.pix ∧ u.pixIndex = 0
      ∧ u.sink = t.sink.take (s.sink.length + k) ∧ s.sink <+: u.sink
      ∧ u.records = t.records.take (s.records.length + k) ∧ s.records <+: u.records
      ∧ keepsWorld { s with host := rest } u

/-! ### ColorConverter (spec/40_color_convert.md) -/

/-- R121: the colour packs the top bits of each channel. -/
def Obligations.Rgb565PacksTopBits : Prop :=
  ∀ r g b : Byte,
    (rgb565 r g b).extractLsb' 11 5 = r.extractLsb' 3 5
    ∧ (rgb565 r g b).extractLsb' 5 6 = g.extractLsb' 2 6
    ∧ (rgb565 r g b).extractLsb' 0 5 = b.extractLsb' 3 5
    ∧ ∀ r' g' b' : Byte, r'.extractLsb' 3 5 = r.extractLsb' 3 5 → g'.extractLsb' 2 6 = g.extractLsb' 2 6 →
        b'.extractLsb' 3 5 = b.extractLsb' 3 5 → rgb565 r' g' b' = rgb565 r g b

/-- R120, R122: the same as a number: each channel is divided, truncating, and the fields are added without overlap. -/
def Obligations.Rgb565TruncatesEachChannel : Prop :=
  ∀ r g b : Byte, (rgb565 r g b).toNat = r.toNat / 8 * 2048 + g.toNat / 4 * 32 + b.toNat / 8

/-- R125, R144: the bytes of a pixel, and their number, which is the format's bytes per pixel. -/
def Obligations.PixelBytesLayout : Prop :=
  ∀ w : Word,
    let c := rgb565 (w.extractLsb' 0 8) (w.extractLsb' 8 8) (w.extractLsb' 16 8)
    pixbytes .rgb565 w = [c.extractLsb' 0 8, c.extractLsb' 8 8]
    ∧ pixbytes .rgb565a8 w = [c.extractLsb' 0 8, c.extractLsb' 8 8, w.extractLsb' 24 8]
    ∧ ∀ fmt, (pixbytes fmt w).length = fmt.bpp

/-- R126: CVT565 completes from every state; CVT_OUT is the colour of CVT_IN with bits 31:16 zero, and nothing else
changes but the status of the last command (R42). -/
def Obligations.Cvt565Converts : Prop :=
  ∀ s : State, ∃ t, exec .cvt565 s = .next t
    ∧ t.cvtOut = (rgb565 (s.cvtIn.extractLsb' 0 8) (s.cvtIn.extractLsb' 8 8) (s.cvtIn.extractLsb' 16 8)).setWidth 32
    ∧ t.status = successStatus s false ∧ resultsAre t 0 0 0 0 0 0 ∧ t.hdr = s.hdr ∧ keepsSettings s t
    ∧ keepsSource s t ∧ keepsPixels s t ∧ keepsSink s t ∧ t.records = s.records ∧ t.running = none ∧ keepsWorld s t

/-- R127: CVT565A8 completes from every state; CVT_OUT holds the colour that CVT565 gives in bits 15:0, the alpha
unchanged in bits 23:16 and zeros above. -/
def Obligations.Cvt565a8Converts : Prop :=
  ∀ s : State, ∃ t, exec .cvt565a8 s = .next t
    ∧ t.cvtOut.extractLsb' 0 16
        = rgb565 (s.cvtIn.extractLsb' 0 8) (s.cvtIn.extractLsb' 8 8) (s.cvtIn.extractLsb' 16 8)
    ∧ t.cvtOut.extractLsb' 16 8 = s.cvtIn.extractLsb' 24 8 ∧ t.cvtOut.extractLsb' 24 8 = 0
    ∧ t.status = successStatus s false ∧ resultsAre t 0 0 0 0 0 0 ∧ t.hdr = s.hdr ∧ keepsSettings s t
    ∧ keepsSource s t ∧ keepsPixels s t ∧ keepsSink s t ∧ t.records = s.records ∧ t.running = none ∧ keepsWorld s t

/-! ### FrameEncoder (R150 to R155) -/

/-- R69, R100 to R102, R140: a header is 24 bytes, byte 4k + j of it is byte j, the least significant first, of field k
in the order magic, color_format, flags, width, height, stride; the magic stands as 4C 47 56 4C. R141, R142: marshal and
unmarshal are inverse, so unmarshalling reads the same layout. -/
def Obligations.HeaderMarshalInverse : Prop :=
  (∀ h : Header, (packHeader h).length = 24
    ∧ (∀ k j, k < 6 → j < 4 → (packHeader h)[4 * k + j]?
        = [h.magic, h.colorFormat, h.flags, h.width, h.height, h.stride][k]?.map (·.extractLsb' (8 * j) 8))
    ∧ (h.magic = frameMagic → (packHeader h).take 4 = [0x4C, 0x47, 0x56, 0x4C]))
  ∧ (∀ h : Header, unpackHeader (packHeader h) = h)
  ∧ ∀ bs : List Byte, bs.length = 24 → packHeader (unpackHeader bs) = bs

/-- R145: the payload length is exact: it and the frame's length are below 2^64. -/
def Obligations.PayloadLengthIsExact : Prop :=
  ∀ h : Header, payloadLength h = h.height.toNat * h.stride.toNat ∧ payloadLength h ≤ (2 ^ 32 - 1) ^ 2
    ∧ frameLength h < 2 ^ 64

/-- R150, R154: ENCF, in both forms and both formats, completes where the dimensions are legal, the W × H words are
ready, the sink accepts every byte and no counter passes its width. The sink gets the header, field by field as R150
gives it, and then the bytes of the words in the order they are read; both counts grow by 24 + H × stride, HDR_* hold
the header, and nothing else changes but the status of the last command. -/
def Obligations.EncfSucceeds : Prop :=
  ∀ (s : State) (i : Instr) (fmt : PixelFormat), encodesIn i fmt →
    let n := s.inWidth.toNat * s.inHeight.toNat
    let h : Header := { magic := 0x4C56474C, colorFormat := if fmt = .rgb565 then 0x12 else 0x14, flags := 0
                        width := s.inWidth, height := s.inHeight
                        stride := BitVec.ofNat 32 (s.inWidth.toNat * if fmt = .rgb565 then 2 else 3) }
    let total := 24 + s.inHeight.toNat * h.stride.toNat
    goodDimensions fmt s → n ≤ s.pix.length → sinkAccepts s total →
    s.outCount.toNat + total < 2 ^ 64 → s.expCount.toNat + total < 2 ^ 64 →
    ∃ t, exec i s = .next t
      ∧ t.sink = s.sink ++ packHeader h ++ (s.pix.take n).flatMap (pixbytes fmt)
      ∧ (packHeader h ++ (s.pix.take n).flatMap (pixbytes fmt)).length = total
      ∧ t.outCount.toNat = s.outCount.toNat + total ∧ t.expCount.toNat = s.expCount.toNat + total
      ∧ t.hdr = h ∧ t.pix = s.pix.drop n ∧ t.pixIndex = s.pixIndex + n
      ∧ t.sinkAnswers = s.sinkAnswers.drop total
      ∧ t.status = successStatus s false ∧ resultsAre t 0 0 0 0 0 0 ∧ t.cvtOut = s.cvtOut ∧ keepsSettings s t
      ∧ keepsSource s t ∧ t.records = s.records ∧ t.running = none ∧ keepsWorld s t

/-- R105, R106, R153, R168: pixel (x, y) of a frame of width `W` is the word number y × W + x, and its bytes stand at
y × stride + x × bpp of the payload, the stride being W × bpp. -/
def Obligations.PixelStandsAtItsPlace : Prop :=
  ∀ (fmt : PixelFormat) (ws : List Word) (W x y j : Nat) (h : y * W + x < ws.length), x < W → j < fmt.bpp →
    (ws.flatMap (pixbytes fmt))[y * (W * fmt.bpp) + x * fmt.bpp + j]? = (pixbytes fmt ws[y * W + x])[j]?

/-- R152, R238: ENCF.FMT with any other code raises UNSUPPORTED_FMT at OUT_COUNT, whatever the dimensions, and reads no
pixel, writes no byte and latches no header. -/
def Obligations.EncfFmtUnsupported : Prop :=
  ∀ (s : State) (code : BitVec 8), code ≠ 0x12 → code ≠ 0x14 →
    ∃ t, exec (.encfFmt code) s = .next t ∧ t.status = errorStatus s .unsupportedFmt 0
      ∧ resultsAre t s.outCount 0 0 0 0 0 ∧ t.hdr = s.hdr ∧ t.cvtOut = s.cvtOut ∧ keepsSettings s t
      ∧ keepsSource s t ∧ keepsPixels s t ∧ keepsSink s t ∧ t.records = s.records ∧ t.running = none ∧ keepsWorld s t

/-- R151, R239: with a supported format, a zero dimension or a stride that does not fit a u32 raises BAD_DIM at
OUT_COUNT, before any pixel or byte; EXP_COUNT and HDR_* are unchanged. -/
def Obligations.EncfBadDimensions : Prop :=
  ∀ (s : State) (i : Instr) (fmt : PixelFormat), encodesIn i fmt →
    s.inWidth = 0 ∨ s.inHeight = 0 ∨ s.inWidth.toNat * (if fmt = .rgb565 then 2 else 3) > 0xFFFFFFFF →
    ∃ t, exec i s = .next t ∧ t.status = errorStatus s .badDim 0
      ∧ resultsAre t s.outCount 0 0 0 0 0 ∧ t.hdr = s.hdr ∧ t.cvtOut = s.cvtOut ∧ keepsSettings s t
      ∧ keepsSource s t ∧ keepsPixels s t ∧ keepsSink s t ∧ t.records = s.records ∧ t.running = none ∧ keepsWorld s t

/-- R155, R242: where the sink takes `k` bytes of the frame and rejects the next with code `e`, ENCF ends with SINK_IO
at the count of bytes accepted; those bytes stay written, the words read stay consumed, EXP_COUNT keeps the whole
frame's length, and SINK_ERR is `e`. Only the words read by then need be ready. -/
def Obligations.EncfSinkRejects : Prop :=
  ∀ (s : State) (i : Instr) (fmt : PixelFormat) (k : Nat) (e : Word), encodesIn i fmt →
    let n := s.inWidth.toNat * s.inHeight.toNat
    let h := encodedHeader fmt s.inWidth s.inHeight
    let read := if k < 24 then 0 else (k - 24) / fmt.bpp + 1
    goodDimensions fmt s → read ≤ s.pix.length →
    k < encodedLength fmt s → sinkAccepts s k → sinkAnswerAt s k = .reject e →
    s.outCount.toNat + k < 2 ^ 64 → s.expCount.toNat + encodedLength fmt s < 2 ^ 64 →
    ∃ t, exec i s = .next t
      ∧ t.status = errorStatus s .sinkIo 0 ∧ resultsAre t t.outCount 0 0 0 e 0
      ∧ t.sink = s.sink ++ (packHeader h ++ (s.pix.take n).flatMap (pixbytes fmt)).take k
      ∧ t.outCount.toNat = s.outCount.toNat + k ∧ t.expCount.toNat = s.expCount.toNat + encodedLength fmt s
      ∧ t.hdr = h ∧ t.pixIndex = s.pixIndex + read ∧ t.pix = s.pix.drop read
      ∧ t.sinkAnswers = s.sinkAnswers.drop (k + 1)
      ∧ t.cvtOut = s.cvtOut ∧ keepsSettings s t ∧ keepsSource s t ∧ t.records = s.records ∧ t.running = none
      ∧ keepsWorld s t

/-- R67, R73, 93 U15: where fewer words are ready than ENCF reads and the sink accepts what they give, it waits, busy in
E_PAY, with every ready word read and its bytes written behind the header, and the pixels it has still to read in
`running` (log entry 2 says how the model holds a waiting command). And from every waiting state it goes on, when further
words are ready, to exactly the outcome it has where they were ready from the start. -/
def Obligations.EncfWaitsAndGoesOn : Prop :=
  (∀ (s : State) (i : Instr) (fmt : PixelFormat), encodesIn i fmt →
    let n := s.inWidth.toNat * s.inHeight.toNat
    let h := encodedHeader fmt s.inWidth s.inHeight
    let out := 24 + s.pix.length * fmt.bpp
    goodDimensions fmt s → s.pix.length < n → sinkAccepts s out →
    s.outCount.toNat + out < 2 ^ 64 → s.expCount.toNat + encodedLength fmt s < 2 ^ 64 →
    ∃ t, exec i s = .next t
      ∧ t.running = some { fmt := fmt, remaining := n - s.pix.length }
      ∧ t.status = { successStatus s false with busy := true, done := false, state := .ePay }
      ∧ t.sink = s.sink ++ packHeader h ++ s.pix.flatMap (pixbytes fmt)
      ∧ t.outCount.toNat = s.outCount.toNat + out ∧ t.expCount.toNat = s.expCount.toNat + encodedLength fmt s
      ∧ t.hdr = h ∧ t.pix = [] ∧ t.pixIndex = s.pixIndex + s.pix.length ∧ t.sinkAnswers = s.sinkAnswers.drop out
      ∧ resultsAre t 0 0 0 0 0 0 ∧ t.cvtOut = s.cvtOut ∧ keepsSettings s t ∧ keepsSource s t
      ∧ t.records = s.records ∧ keepsWorld s t)
  ∧ ∀ (s t : State) (i : Instr) (job : EncodeJob), isEncode i →
    exec i s = .next t → t.running = some job →
    t.status.busy = true ∧ t.status.done = false ∧ t.status.state = .ePay ∧ t.pix = [] ∧ 0 < job.remaining
    ∧ s.pix.length + job.remaining = s.inWidth.toNat * s.inHeight.toNat
    ∧ ∀ more : List Word, resumeEncode job { t with pix := more } = exec i { s with pix := s.pix ++ more }

/-- R67, X9 of 95: a waiting ENCF with a word ready goes on; that it does so before the host's next event is the model's
choice (log entry 3). -/
def Obligations.StepResumesWaitingEncode : Prop :=
  ∀ (s : State) (job : EncodeJob) (rest : List HostEvent) (more : List Word),
    s.running = some job → s.pix = [] → s.cut = none → s.host = .pixels more :: rest → more ≠ [] →
    ∃ t, step s = .next t ∧ t = { s with host := rest, pix := more } ∧ step t = resumeEncode job t

/-- The frame of ENCF, in both forms and however it ends (R150, R151, R152, R155, R67): the settings, the byte source,
CVT_OUT and the records are unchanged; the sink history only grows, by as many bytes as OUT_COUNT counts; pixel words
are only taken from the front. -/
def Obligations.EncfFrame : Prop :=
  ∀ (s t : State) (i : Instr), isEncode i → exec i s = .next t →
    keepsSettings s t ∧ keepsSource s t ∧ t.cvtOut = s.cvtOut ∧ t.records = s.records ∧ keepsWorld s t
    ∧ t.trailCount = 0 ∧ t.framesDone = 0 ∧ t.curSection = 0 ∧ t.srcErr = 0
    ∧ (∃ bs, t.sink = s.sink ++ bs ∧ t.outCount.toNat = s.outCount.toNat + bs.length)
    ∧ (∃ k, k ≤ s.pix.length ∧ t.pix = s.pix.drop k ∧ t.pixIndex = s.pixIndex + k)

/-- R154, R155, R182: EXP_COUNT and OUT_COUNT grow by the same amount unless the sink rejected a byte or ENCF waits. -/
def Obligations.CountsAgreeUnlessSinkRejects : Prop :=
  ∀ (s t : State) (i : Instr), isEncode i → exec i s = .next t →
    t.status.code ≠ .sinkIo → t.running = none →
    t.expCount.toNat + s.outCount.toNat = s.expCount.toNat + t.outCount.toNat

/-! ### FrameDecoder (R160 to R167) -/

/-- R160, R166: DECF at a whole frame with the magic emits its record, the payload bytes unchanged, and consumes exactly
the frame. Only the magic is checked (R165). -/
def Obligations.DecfDecodesFrame : Prop :=
  ∀ (s : State) (h : Header) (payload rest : List Byte),
    s.src.bytes = frameBytes h payload ++ rest → h.magic = frameMagic → payload.length = payloadLength h →
    s.cursor.toNat + (24 + payload.length) < 2 ^ 64 →
    ∃ t, exec .decf s = .next t
      ∧ t.records = s.records
          ++ [{ sectionIdx := 0, index := 0, offset := s.cursor, header := h, payload := payload }]
      ∧ t.hdr = h ∧ t.cursor.toNat = s.cursor.toNat + (24 + payload.length)
      ∧ t.src = { s.src with bytes := rest }
      ∧ t.status = successStatus s false ∧ resultsAre t 0 0 1 0 0 0 ∧ t.cvtOut = s.cvtOut ∧ keepsSettings s t
      ∧ keepsPixels s t ∧ keepsSink s t ∧ t.running = none ∧ keepsWorld s t

/-- R162, R166, R231: fewer than 24 bytes before a clean end: DECF raises TRUNC_HDR at the boundary with HDR_AVAIL their
number, 0 included; HDR_* are unchanged and no record is emitted. -/
def Obligations.DecfTruncatedHeader : Prop :=
  ∀ s : State, s.src.bytes.length < 24 → s.src.ending = .eos → s.cursor.toNat + s.src.bytes.length < 2 ^ 64 →
    ∃ t, exec .decf s = .next t
      ∧ t.status = errorStatus s .truncHdr (BitVec.ofNat 5 s.src.bytes.length)
      ∧ resultsAre t s.cursor 0 0 0 0 0 ∧ t.hdr = s.hdr ∧ t.records = s.records
      ∧ t.cursor.toNat = s.cursor.toNat + s.src.bytes.length ∧ t.src = { s.src with bytes := [] }
      ∧ t.cvtOut = s.cvtOut ∧ keepsSettings s t ∧ keepsPixels s t ∧ keepsSink s t ∧ t.running = none ∧ keepsWorld s t

/-- R163, R232: a header with another magic: DECF raises INVALID_MAGIC at the frame's first byte; the 24 bytes are
consumed, HDR_* hold the header, the payload is not read and no record is emitted. -/
def Obligations.DecfInvalidMagic : Prop :=
  ∀ (s : State) (h : Header) (rest : List Byte),
    s.src.bytes = packHeader h ++ rest → h.magic ≠ frameMagic → s.cursor.toNat + 24 < 2 ^ 64 →
    ∃ t, exec .decf s = .next t ∧ t.status = errorStatus s .invalidMagic 0
      ∧ resultsAre t s.cursor 0 0 0 0 0 ∧ t.hdr = h ∧ t.records = s.records
      ∧ t.cursor.toNat = s.cursor.toNat + 24 ∧ t.src = { s.src with bytes := rest }
      ∧ t.cvtOut = s.cvtOut ∧ keepsSettings s t ∧ keepsPixels s t ∧ keepsSink s t ∧ t.running = none ∧ keepsWorld s t

/-- R164, R233: fewer payload bytes than the header gives before a clean end: DECF raises TRUNC_PAYLOAD at the frame's
first byte; the bytes there were stay consumed and no record is emitted. -/
def Obligations.DecfTruncatedPayload : Prop :=
  ∀ (s : State) (h : Header) (got : List Byte),
    s.src.bytes = packHeader h ++ got → s.src.ending = .eos → h.magic = frameMagic → got.length < payloadLength h →
    s.cursor.toNat + (24 + got.length) < 2 ^ 64 →
    ∃ t, exec .decf s = .next t ∧ t.status = errorStatus s .truncPayload 0
      ∧ resultsAre t s.cursor 0 0 0 0 0 ∧ t.hdr = h ∧ t.records = s.records
      ∧ t.cursor.toNat = s.cursor.toNat + (24 + got.length) ∧ t.src = { s.src with bytes := [] }
      ∧ t.cvtOut = s.cvtOut ∧ keepsSettings s t ∧ keepsPixels s t ∧ keepsSink s t ∧ t.running = none ∧ keepsWorld s t

/-- R64, R241: the source fails where a header or a payload is still being read: DECF ends with SRC_IO at CURSOR, which
counts the bytes read, and SRC_ERR is the source's code. It takes the place of TRUNC_HDR and TRUNC_PAYLOAD. -/
def Obligations.DecfSourceFails : Prop :=
  ∀ (s : State) (e : Word), s.src.ending = .err e → s.cursor.toNat + s.src.bytes.length < 2 ^ 64 →
    s.src.bytes.length < 24
      ∨ (∃ h got, s.src.bytes = packHeader h ++ got ∧ h.magic = frameMagic ∧ got.length < payloadLength h) →
    ∃ t, exec .decf s = .next t ∧ t.status = errorStatus s .srcIo 0
      ∧ resultsAre t t.cursor 0 0 0 0 e ∧ t.records = s.records
      ∧ t.cursor.toNat = s.cursor.toNat + s.src.bytes.length ∧ t.src = { s.src with bytes := [] }
      ∧ (s.src.bytes.length < 24 → t.hdr = s.hdr)
      ∧ t.cvtOut = s.cvtOut ∧ keepsSettings s t ∧ keepsPixels s t ∧ keepsSink s t ∧ t.running = none ∧ keepsWorld s t

/-- R167: what a successful ENCF wrote, DECF reads back: one record, its header the one ENCF latched, its payload the
bytes of the pixels, CURSOR advanced by 24 + H × stride. -/
def Obligations.EncodeThenDecodeRoundTrip : Prop :=
  ∀ (s t u : State) (i : Instr) (fmt : PixelFormat) (rest : List Byte), encodesIn i fmt →
    exec i s = .next t → t.status.code = .ok → t.running = none →
    u.src.bytes = t.sink.drop s.sink.length ++ rest →
    u.cursor.toNat + (24 + payloadLength t.hdr) < 2 ^ 64 →
    ∃ v r, exec .decf u = .next v ∧ v.status = successStatus u false ∧ v.records = u.records ++ [r]
      ∧ r.header = t.hdr ∧ r.offset = u.cursor
      ∧ r.payload = (s.pix.take (s.inWidth.toNat * s.inHeight.toNat)).flatMap (pixbytes fmt)
      ∧ r.payload.length = r.header.height.toNat * r.header.stride.toNat
      ∧ v.cursor.toNat = u.cursor.toNat + (24 + r.header.height.toNat * r.header.stride.toNat)

/-- The frame of the decode commands, however they end: the settings, CVT_OUT, the pixel port and the sink with its
counts are unchanged; the source is only consumed from the front, as far as CURSOR moves; records are only added. -/
def Obligations.DecodeFrame : Prop :=
  ∀ (s t : State) (i : Instr), i ∈ [Instr.decf, .decn, .decs, .decsec] → exec i s = .next t →
    keepsSettings s t ∧ t.cvtOut = s.cvtOut ∧ keepsPixels s t ∧ keepsSink s t ∧ t.sinkErr = 0 ∧ t.running = none
    ∧ keepsWorld s t
    ∧ (∃ k, k ≤ s.src.bytes.length ∧ t.src = { s.src with bytes := s.src.bytes.drop k }
        ∧ t.cursor.toNat = s.cursor.toNat + k)
    ∧ ∃ rs, t.records = s.records ++ rs ∧ t.framesDone.toNat = rs.length ∧ ∀ r ∈ rs, r.ok

/-! ### ContainerCodec (spec/42_container.md) -/

/-- R180: CENCB completes from every state: both counts are 0 and nothing else changes but the last command's status. -/
def Obligations.CencbClearsCounts : Prop :=
  ∀ s : State, ∃ t, exec .cencb s = .next t ∧ t.outCount = 0 ∧ t.expCount = 0
    ∧ t.status = successStatus s false ∧ resultsAre t 0 0 0 0 0 0 ∧ t.hdr = s.hdr ∧ t.cvtOut = s.cvtOut
    ∧ keepsSettings s t ∧ keepsSource s t ∧ keepsPixels s t ∧ t.sink = s.sink ∧ t.sinkAnswers = s.sinkAnswers
    ∧ t.records = s.records ∧ t.running = none ∧ keepsWorld s t

/-- R182, R240: CENCE completes from every state: it succeeds where the counts are equal, and raises LEN_MISMATCH at
OUT_COUNT where they differ; it changes nothing but the last command's status. -/
def Obligations.CenceChecksCounts : Prop :=
  ∀ s : State, ∃ t, exec .cence s = .next t
    ∧ (s.outCount = s.expCount → t.status = successStatus s false ∧ resultsAre t 0 0 0 0 0 0)
    ∧ (s.outCount ≠ s.expCount → t.status = errorStatus s .lenMismatch 0 ∧ resultsAre t s.outCount 0 0 0 0 0)
    ∧ t.hdr = s.hdr ∧ t.cvtOut = s.cvtOut ∧ keepsSettings s t ∧ keepsSource s t ∧ keepsPixels s t ∧ keepsSink s t
    ∧ t.records = s.records ∧ t.running = none ∧ keepsWorld s t

/-- R184, R185, R188, R193: DECN on FRAME_COUNT frames and any bytes after them succeeds: it emits their records in
order, then drains the rest, counts it, and warns if there is any. -/
def Obligations.DecnDecodesContainer : Prop :=
  ∀ (s : State) (fs : List FrameData) (tail : List Byte),
    (∀ f ∈ fs, FrameData.ok f) → s.frameCount.toNat = fs.length → s.src.bytes = containerBytes fs ++ tail →
    s.src.ending = .eos → s.cursor.toNat + s.src.bytes.length < 2 ^ 64 →
    ∃ t, exec .decn s = .next t
      ∧ t.records = s.records ++ recordsOf 0 0 s.cursor.toNat fs
      ∧ t.status = successStatus s (!tail.isEmpty)
      ∧ resultsAre t (if tail = [] then 0 else s.cursor + BitVec.ofNat 64 (containerBytes fs).length)
          (BitVec.ofNat 64 tail.length) s.frameCount 0 0 0
      ∧ t.hdr = lastHeader s.hdr fs
      ∧ t.cursor.toNat = s.cursor.toNat + s.src.bytes.length ∧ t.src = { s.src with bytes := [] }
      ∧ t.cvtOut = s.cvtOut ∧ keepsSettings s t ∧ keepsPixels s t ∧ keepsSink s t ∧ t.running = none ∧ keepsWorld s t

/-- R184, R186, R231, R234: DECN or DECSEC where the source ends cleanly before the last expected frame:
FRAME_COUNT_MISMATCH at the boundary if no byte is left there, TRUNC_HDR with HDR_AVAIL if 1 to 23 are. The records
before it stand, and CUR_SECTION is the section in which the frame is missing. -/
def Obligations.CountedDecodeFindsTooFewFrames : Prop :=
  ∀ (s : State) (i : Instr) (secs : List (List FrameData)) (tail : List Byte),
    wantsFrameAfter i s secs → i ≠ .decs → (∀ f ∈ secs.flatten, FrameData.ok f) → secs.flatten.length < 2 ^ 32 →
    s.src.bytes = containerBytes secs.flatten ++ tail → tail.length < 24 → s.src.ending = .eos →
    s.cursor.toNat + s.src.bytes.length < 2 ^ 64 →
    ∃ t, exec i s = .next t
      ∧ t.records = s.records ++ recordsOfSections 0 0 s.cursor.toNat secs
      ∧ t.status = (if tail = [] then errorStatus s .frameCountMismatch 0
          else errorStatus s .truncHdr (BitVec.ofNat 5 tail.length))
      ∧ resultsAre t (s.cursor + BitVec.ofNat 64 (containerBytes secs.flatten).length) 0
          (BitVec.ofNat 32 secs.flatten.length) (BitVec.ofNat 32 (secs.length - 1)) 0 0
      ∧ t.cursor.toNat = s.cursor.toNat + s.src.bytes.length ∧ t.src = { s.src with bytes := [] }
      ∧ t.hdr = lastHeader s.hdr secs.flatten

/-- R190, R191, R232, R233, R241, R243: what ends DECN, DECS and DECSEC at a frame after some whole ones: a header with
another magic, with INVALID_MAGIC at that header, the block does not skip; a payload that a clean end cuts short, with
TRUNC_PAYLOAD at its header; a source that fails inside a header or a payload, with SRC_IO at CURSOR. The records before
it stand, and CUR_SECTION is the section it is in. -/
def Obligations.ContainerFrameErrorAborts : Prop :=
  ∀ (s : State) (i : Instr) (secs : List (List FrameData)) (tail : List Byte),
    wantsFrameAfter i s secs → (∀ f ∈ secs.flatten, FrameData.ok f) → secs.flatten.length < 2 ^ 32 →
    s.src.bytes = containerBytes secs.flatten ++ tail → s.cursor.toNat + s.src.bytes.length < 2 ^ 64 →
    let base := s.cursor + BitVec.ofNat 64 (containerBytes secs.flatten).length
    let frames := BitVec.ofNat 32 secs.flatten.length
    let sectionIdx := BitVec.ofNat 32 (secs.length - 1)
    let records := s.records ++ recordsOfSections 0 0 s.cursor.toNat secs
    (∀ h rest, tail = packHeader h ++ rest → h.magic ≠ frameMagic →
      ∃ t, exec i s = .next t ∧ t.records = records ∧ t.status = errorStatus s .invalidMagic 0
        ∧ resultsAre t base 0 frames sectionIdx 0 0 ∧ t.hdr = h
        ∧ t.cursor.toNat = s.cursor.toNat + (containerBytes secs.flatten).length + 24
        ∧ t.src = { s.src with bytes := rest })
    ∧ (∀ h got, tail = packHeader h ++ got → h.magic = frameMagic → got.length < payloadLength h →
      s.src.ending = .eos →
      ∃ t, exec i s = .next t ∧ t.records = records ∧ t.status = errorStatus s .truncPayload 0
        ∧ resultsAre t base 0 frames sectionIdx 0 0 ∧ t.hdr = h
        ∧ t.cursor.toNat = s.cursor.toNat + s.src.bytes.length ∧ t.src = { s.src with bytes := [] })
    ∧ (∀ h got e, tail = packHeader h ++ got → h.magic = frameMagic → got.length < payloadLength h →
      s.src.ending = .err e →
      ∃ t, exec i s = .next t ∧ t.records = records ∧ t.status = errorStatus s .srcIo 0
        ∧ resultsAre t t.cursor 0 frames sectionIdx 0 e ∧ t.hdr = h
        ∧ t.cursor.toNat = s.cursor.toNat + s.src.bytes.length ∧ t.src = { s.src with bytes := [] })
    ∧ ∀ e, tail.length < 24 → s.src.ending = .err e →
      ∃ t, exec i s = .next t ∧ t.records = records ∧ t.status = errorStatus s .srcIo 0
        ∧ resultsAre t t.cursor 0 frames sectionIdx 0 e ∧ t.hdr = lastHeader s.hdr secs.flatten
        ∧ t.cursor.toNat = s.cursor.toNat + s.src.bytes.length ∧ t.src = { s.src with bytes := [] }

/-- R65, R186, R188, R241, R243: a source that fails while DECN or DECSEC drains it: SRC_IO at CURSOR in place of the
warning; all the records stand, and CUR_SECTION is the last section. -/
def Obligations.CountedDecodeSourceFailsInDrain : Prop :=
  ∀ (s : State) (i : Instr) (secs : List (List FrameData)) (tail : List Byte) (e : Word),
    wantsExactly i s secs → (∀ f ∈ secs.flatten, FrameData.ok f) → secs.flatten.length < 2 ^ 32 →
    s.src.bytes = containerBytes secs.flatten ++ tail → s.src.ending = .err e →
    s.cursor.toNat + s.src.bytes.length < 2 ^ 64 →
    ∃ t, exec i s = .next t
      ∧ t.records = s.records ++ recordsOfSections 0 0 s.cursor.toNat secs
      ∧ t.status = errorStatus s .srcIo 0
      ∧ resultsAre t t.cursor 0 (BitVec.ofNat 32 secs.flatten.length) (BitVec.ofNat 32 (secs.length - 1)) 0 e
      ∧ t.cursor.toNat = s.cursor.toNat + s.src.bytes.length ∧ t.src = { s.src with bytes := [] }
      ∧ t.hdr = lastHeader s.hdr secs.flatten

/-- R187: DECS on one or more frames and at most 23 bytes after them succeeds: it emits their records in order, and
counts and warns of the bytes after them if there are any. -/
def Obligations.DecsDecodesContainer : Prop :=
  ∀ (s : State) (fs : List FrameData) (tail : List Byte),
    (∀ f ∈ fs, FrameData.ok f) → fs ≠ [] → fs.length < 2 ^ 32 → tail.length < 24 →
    s.src.bytes = containerBytes fs ++ tail → s.src.ending = .eos → s.cursor.toNat + s.src.bytes.length < 2 ^ 64 →
    ∃ t, exec .decs s = .next t
      ∧ t.records = s.records ++ recordsOf 0 0 s.cursor.toNat fs
      ∧ t.status = successStatus s (!tail.isEmpty)
      ∧ resultsAre t (if tail = [] then 0 else s.cursor + BitVec.ofNat 64 (containerBytes fs).length)
          (BitVec.ofNat 64 tail.length) (BitVec.ofNat 32 fs.length) 0 0 0
      ∧ t.hdr = lastHeader s.hdr fs
      ∧ t.cursor.toNat = s.cursor.toNat + s.src.bytes.length ∧ t.src = { s.src with bytes := [] }
      ∧ t.cvtOut = s.cvtOut ∧ keepsSettings s t ∧ keepsPixels s t ∧ keepsSink s t ∧ t.running = none ∧ keepsWorld s t

/-- R187, R192, R231, R234: DECS whose first frame has no whole header: FRAME_COUNT_MISMATCH on an empty source,
TRUNC_HDR on 1 to 23 bytes. -/
def Obligations.DecsNeedsAFirstFrame : Prop :=
  ∀ s : State, s.src.bytes.length < 24 → s.src.ending = .eos → s.cursor.toNat + s.src.bytes.length < 2 ^ 64 →
    ∃ t, exec .decs s = .next t
      ∧ t.status = (if s.src.bytes = [] then errorStatus s .frameCountMismatch 0
          else errorStatus s .truncHdr (BitVec.ofNat 5 s.src.bytes.length))
      ∧ resultsAre t s.cursor 0 0 0 0 0 ∧ t.records = s.records ∧ t.hdr = s.hdr
      ∧ t.cursor.toNat = s.cursor.toNat + s.src.bytes.length

/-- R184, R186: DECSEC on the frames of SEC_NUM sections, SEC_COUNT[i] in section i, and any bytes after them: it emits
their records in order, numbered across sections and tagged with their section, then drains the rest. -/
def Obligations.DecsecDecodesSections : Prop :=
  ∀ (s : State) (secs : List (List FrameData)) (tail : List Byte),
    (∀ fs ∈ secs, ∀ f ∈ fs, FrameData.ok f) →
    s.secNum.toNat = secs.length → secs.length ≤ s.secCount.length →
    (s.secCount.take secs.length).map BitVec.toNat = secs.map List.length →
    (secs.map List.length).sum < 2 ^ 32 →
    s.src.bytes = containerBytes secs.flatten ++ tail → s.src.ending = .eos →
    s.cursor.toNat + s.src.bytes.length < 2 ^ 64 →
    ∃ t, exec .decsec s = .next t
      ∧ t.records = s.records ++ recordsOfSections 0 0 s.cursor.toNat secs
      ∧ t.status = successStatus s (!tail.isEmpty)
      ∧ resultsAre t (if tail = [] then 0 else s.cursor + BitVec.ofNat 64 (containerBytes secs.flatten).length)
          (BitVec.ofNat 64 tail.length) (BitVec.ofNat 32 secs.flatten.length) (BitVec.ofNat 32 (secs.length - 1)) 0 0
      ∧ t.hdr = lastHeader s.hdr secs.flatten
      ∧ t.cursor.toNat = s.cursor.toNat + s.src.bytes.length ∧ t.src = { s.src with bytes := [] }
      ∧ t.cvtOut = s.cvtOut ∧ keepsSettings s t ∧ keepsPixels s t ∧ keepsSink s t ∧ t.running = none ∧ keepsWorld s t

/-! ### Counters -/

/-- R27, R33, D24 of 92, U14 of 93: a run that would move a counter past its width is refused, by the counter's name:
CURSOR by a header read, EXP_COUNT by a frame's length, OUT_COUNT by an accepted byte, FRAMES_DONE by a record. -/
def Obligations.CounterOverflowIsRefused : Prop :=
  (∀ s : State, 24 ≤ s.src.bytes.length → 2 ^ 64 ≤ s.cursor.toNat + 24 →
    exec .decf s = .refused (.counterOverflow .cursor))
  ∧ (∀ (s : State) (i : Instr) (fmt : PixelFormat), encodesIn i fmt → goodDimensions fmt s →
      2 ^ 64 ≤ s.expCount.toNat + encodedLength fmt s → exec i s = .refused (.counterOverflow .expCount))
  ∧ (∀ (s : State) (i : Instr) (fmt : PixelFormat), encodesIn i fmt → goodDimensions fmt s →
      s.expCount.toNat + encodedLength fmt s < 2 ^ 64 → s.outCount.toNat = 2 ^ 64 - 1 → sinkAnswerAt s 0 = .accept →
      exec i s = .refused (.counterOverflow .outCount))
  ∧ ∀ (s : State) (rec : Record), s.framesDone.toNat = 2 ^ 32 - 1 →
      match recEmit rec s with
      | .refused r => r = .counterOverflow .framesDone
      | _ => False

/-! ### Control (R220) and the whole machine -/

/-- R220: NOP completes from every state and changes the status of the last command only. -/
def Obligations.NopClearsStatus : Prop :=
  ∀ s : State, ∃ t, exec .nop s = .next t ∧ t.status = successStatus s false ∧ resultsAre t 0 0 0 0 0 0
    ∧ t.hdr = s.hdr ∧ t.cvtOut = s.cvtOut ∧ keepsSettings s t ∧ keepsSource s t ∧ keepsPixels s t ∧ keepsSink s t
    ∧ t.records = s.records ∧ t.running = none ∧ keepsWorld s t

/-- The invariant of the block (R24, R25, R26, R29, R30, R33, R36 to R39, R45, 95 W9; Safety.lean) is kept by every
step, from every state that meets it. -/
def Obligations.StepKeepsInvariant : Prop :=
  ∀ s t : State, s.Inv → step s = .next t → t.Inv

/-- R46, R191: no step withdraws or rewrites a byte the sink accepted or a record that was delivered. -/
def Obligations.HistoriesOnlyGrow : Prop :=
  ∀ s t : State, step s = .next t → s.sink <+: t.sink ∧ s.records <+: t.records

/-- R21, R27, R64, R65, R74: but for a reset, no step moves CURSOR backward, and CURSOR moves by exactly the bytes that
are taken from the front of the source. -/
def Obligations.CursorCountsBytesConsumed : Prop :=
  ∀ s t : State, step s = .next t → s.cut = none → (∀ rest, s.host ≠ .powerOn :: rest) →
    (∀ rest off width w, s.host = .write off width w :: rest → decodeWord w ≠ .ok .srst) →
    ∃ k, k ≤ s.src.bytes.length ∧ t.src = { s.src with bytes := s.src.bytes.drop k }
      ∧ t.cursor.toNat = s.cursor.toNat + k

/-- R31, R32, R35, R38, R40, R43: no command but SRST writes a register that the host writes. -/
def Obligations.CommandsKeepHostSettings : Prop :=
  ∀ (s t : State) (i : Instr), i ≠ .srst → exec i s = .next t → keepsSettings s t

/-- R42: a command other than SRST leaves BUSY = 0 and DONE = 1, with STATE = DONE and CODE = OK or STATE = FAIL and an
error code; but for an ENCF that waits for a pixel word (R67), which leaves BUSY = 1 and DONE = 0. -/
def Obligations.CommandsCompleteOrWait : Prop :=
  ∀ (s t : State) (i : Instr), i ≠ .srst → exec i s = .next t →
    (t.running = none ∧ t.status.busy = false ∧ t.status.done = true
      ∧ ((t.status.state = .done ∧ t.status.err = false ∧ t.status.code = .ok)
        ∨ (t.status.state = .fail ∧ t.status.err = true ∧ t.status.code ≠ .ok ∧ t.status.warnTrail = false)))
    ∨ (t.running ≠ none ∧ t.status.busy = true ∧ t.status.done = false ∧ t.status.state = .ePay
      ∧ isEncode i)

/-- R47: no command reads a field of STATUS as an input. A host read that falls while the command is busy may show the
state before it (log entry 5, the model's choice), so the statement is about a host that waits. -/
def Obligations.StatusIsNoInput : Prop :=
  ∀ (s : State) (i : Instr) (st : Status), s.overlap = [] → exec i { s with status := st } = exec i s

/-- R73, R81, R248: host accesses that fall while a command is busy change nothing of what the command does: they set
WR_WHILE_BUSY if there is a write among them (which SRST clears with the other registers, R221), and each read is
answered, in order. A read of STATUS shows BUSY = 1 and one of the states the command passes through, or the one it
starts in (log entries 5 and 20); the values of the other registers are free (log entry 4). That such accesses are given
before the command is the model's choice (log entry 3). -/
def Obligations.AccessesWhileBusyOnlyFlag : Prop :=
  ∀ (s t : State) (i : Instr) (as : List BusyAccess), exec i { s with overlap := [] } = .next t →
    ∃ log : List (Nat × Word),
      exec i { s with overlap := as } =
        .next { t with status := { t.status with wrWhileBusy := decide (i ≠ .srst) && as.any BusyAccess.isWrite }
                       readLog := s.readLog ++ log, draws := s.draws + log.length }
      ∧ (log.map Prod.fst = as.filterMap fun a => match a with
          | .read r => some (4 * r.val)
          | .write _ _ => none)
      ∧ ∀ v, (4, v) ∈ log → v.getLsbD 0 = true
          ∧ v.extractLsb' 24 4 ∈ (s.status.state :: passesThrough i).map BlockState.num
end

