-- ==== Sys2Proof/Laws/State.lean ====
section
/-! SUPPORT. What each shared update does to each field of the state, one lemma per field, so that no proof unfolds a
record update. -/
namespace Sys2Proof.Machine

/-! ### STATE <- b -/

@[simp] theorem setBlockState_status (b : BlockState) (s : State) : (setBlockState b s).status = { s.status with state := b } := rfl
@[simp] theorem setBlockState_evtOffset (b : BlockState) (s : State) : (setBlockState b s).evtOffset = s.evtOffset := rfl
@[simp] theorem setBlockState_cursor (b : BlockState) (s : State) : (setBlockState b s).cursor = s.cursor := rfl
@[simp] theorem setBlockState_outCount (b : BlockState) (s : State) : (setBlockState b s).outCount = s.outCount := rfl
@[simp] theorem setBlockState_expCount (b : BlockState) (s : State) : (setBlockState b s).expCount = s.expCount := rfl
@[simp] theorem setBlockState_trailCount (b : BlockState) (s : State) : (setBlockState b s).trailCount = s.trailCount := rfl
@[simp] theorem setBlockState_inWidth (b : BlockState) (s : State) : (setBlockState b s).inWidth = s.inWidth := rfl
@[simp] theorem setBlockState_inHeight (b : BlockState) (s : State) : (setBlockState b s).inHeight = s.inHeight := rfl
@[simp] theorem setBlockState_frameCount (b : BlockState) (s : State) : (setBlockState b s).frameCount = s.frameCount := rfl
@[simp] theorem setBlockState_framesDone (b : BlockState) (s : State) : (setBlockState b s).framesDone = s.framesDone := rfl
@[simp] theorem setBlockState_hdr (b : BlockState) (s : State) : (setBlockState b s).hdr = s.hdr := rfl
@[simp] theorem setBlockState_cvtIn (b : BlockState) (s : State) : (setBlockState b s).cvtIn = s.cvtIn := rfl
@[simp] theorem setBlockState_cvtOut (b : BlockState) (s : State) : (setBlockState b s).cvtOut = s.cvtOut := rfl
@[simp] theorem setBlockState_sinkErr (b : BlockState) (s : State) : (setBlockState b s).sinkErr = s.sinkErr := rfl
@[simp] theorem setBlockState_srcErr (b : BlockState) (s : State) : (setBlockState b s).srcErr = s.srcErr := rfl
@[simp] theorem setBlockState_secNum (b : BlockState) (s : State) : (setBlockState b s).secNum = s.secNum := rfl
@[simp] theorem setBlockState_curSection (b : BlockState) (s : State) : (setBlockState b s).curSection = s.curSection := rfl
@[simp] theorem setBlockState_secCount (b : BlockState) (s : State) : (setBlockState b s).secCount = s.secCount := rfl
@[simp] theorem setBlockState_running (b : BlockState) (s : State) : (setBlockState b s).running = s.running := rfl
@[simp] theorem setBlockState_src (b : BlockState) (s : State) : (setBlockState b s).src = s.src := rfl
@[simp] theorem setBlockState_pix (b : BlockState) (s : State) : (setBlockState b s).pix = s.pix := rfl
@[simp] theorem setBlockState_pixIndex (b : BlockState) (s : State) : (setBlockState b s).pixIndex = s.pixIndex := rfl
@[simp] theorem setBlockState_sink (b : BlockState) (s : State) : (setBlockState b s).sink = s.sink := rfl
@[simp] theorem setBlockState_records (b : BlockState) (s : State) : (setBlockState b s).records = s.records := rfl
@[simp] theorem setBlockState_sinkAnswers (b : BlockState) (s : State) : (setBlockState b s).sinkAnswers = s.sinkAnswers := rfl
@[simp] theorem setBlockState_sinkRest (b : BlockState) (s : State) : (setBlockState b s).sinkRest = s.sinkRest := rfl
@[simp] theorem setBlockState_staged (b : BlockState) (s : State) : (setBlockState b s).staged = s.staged := rfl
@[simp] theorem setBlockState_host (b : BlockState) (s : State) : (setBlockState b s).host = s.host := rfl
@[simp] theorem setBlockState_overlap (b : BlockState) (s : State) : (setBlockState b s).overlap = s.overlap := rfl
@[simp] theorem setBlockState_cut (b : BlockState) (s : State) : (setBlockState b s).cut = s.cut := rfl
@[simp] theorem setBlockState_readLog (b : BlockState) (s : State) : (setBlockState b s).readLog = s.readLog := rfl
@[simp] theorem setBlockState_draws (b : BlockState) (s : State) : (setBlockState b s).draws = s.draws := rfl

/-! ### `finish` -/

@[simp] theorem finish_status (s : State) : (finish s).status = s.status.finished := rfl
@[simp] theorem finish_evtOffset (s : State) : (finish s).evtOffset = s.evtOffset := rfl
@[simp] theorem finish_cursor (s : State) : (finish s).cursor = s.cursor := rfl
@[simp] theorem finish_outCount (s : State) : (finish s).outCount = s.outCount := rfl
@[simp] theorem finish_expCount (s : State) : (finish s).expCount = s.expCount := rfl
@[simp] theorem finish_trailCount (s : State) : (finish s).trailCount = s.trailCount := rfl
@[simp] theorem finish_inWidth (s : State) : (finish s).inWidth = s.inWidth := rfl
@[simp] theorem finish_inHeight (s : State) : (finish s).inHeight = s.inHeight := rfl
@[simp] theorem finish_frameCount (s : State) : (finish s).frameCount = s.frameCount := rfl
@[simp] theorem finish_framesDone (s : State) : (finish s).framesDone = s.framesDone := rfl
@[simp] theorem finish_hdr (s : State) : (finish s).hdr = s.hdr := rfl
@[simp] theorem finish_cvtIn (s : State) : (finish s).cvtIn = s.cvtIn := rfl
@[simp] theorem finish_cvtOut (s : State) : (finish s).cvtOut = s.cvtOut := rfl
@[simp] theorem finish_sinkErr (s : State) : (finish s).sinkErr = s.sinkErr := rfl
@[simp] theorem finish_srcErr (s : State) : (finish s).srcErr = s.srcErr := rfl
@[simp] theorem finish_secNum (s : State) : (finish s).secNum = s.secNum := rfl
@[simp] theorem finish_curSection (s : State) : (finish s).curSection = s.curSection := rfl
@[simp] theorem finish_secCount (s : State) : (finish s).secCount = s.secCount := rfl
@[simp] theorem finish_running (s : State) : (finish s).running = none := rfl
@[simp] theorem finish_src (s : State) : (finish s).src = s.src := rfl
@[simp] theorem finish_pix (s : State) : (finish s).pix = s.pix := rfl
@[simp] theorem finish_pixIndex (s : State) : (finish s).pixIndex = s.pixIndex := rfl
@[simp] theorem finish_sink (s : State) : (finish s).sink = s.sink := rfl
@[simp] theorem finish_records (s : State) : (finish s).records = s.records := rfl
@[simp] theorem finish_sinkAnswers (s : State) : (finish s).sinkAnswers = s.sinkAnswers := rfl
@[simp] theorem finish_sinkRest (s : State) : (finish s).sinkRest = s.sinkRest := rfl
@[simp] theorem finish_staged (s : State) : (finish s).staged = s.staged := rfl
@[simp] theorem finish_host (s : State) : (finish s).host = s.host := rfl
@[simp] theorem finish_overlap (s : State) : (finish s).overlap = s.overlap := rfl
@[simp] theorem finish_cut (s : State) : (finish s).cut = s.cut := rfl
@[simp] theorem finish_readLog (s : State) : (finish s).readLog = s.readLog := rfl
@[simp] theorem finish_draws (s : State) : (finish s).draws = s.draws := rfl

/-! ### `raise Error` -/

@[simp] theorem raiseError_status (c : Code) (o : Count) (s : State) : (raiseError c o s).status = s.status.failed c 0 := rfl
@[simp] theorem raiseError_evtOffset (c : Code) (o : Count) (s : State) : (raiseError c o s).evtOffset = o := rfl
@[simp] theorem raiseError_cursor (c : Code) (o : Count) (s : State) : (raiseError c o s).cursor = s.cursor := rfl
@[simp] theorem raiseError_outCount (c : Code) (o : Count) (s : State) : (raiseError c o s).outCount = s.outCount := rfl
@[simp] theorem raiseError_expCount (c : Code) (o : Count) (s : State) : (raiseError c o s).expCount = s.expCount := rfl
@[simp] theorem raiseError_trailCount (c : Code) (o : Count) (s : State) : (raiseError c o s).trailCount = s.trailCount := rfl
@[simp] theorem raiseError_inWidth (c : Code) (o : Count) (s : State) : (raiseError c o s).inWidth = s.inWidth := rfl
@[simp] theorem raiseError_inHeight (c : Code) (o : Count) (s : State) : (raiseError c o s).inHeight = s.inHeight := rfl
@[simp] theorem raiseError_frameCount (c : Code) (o : Count) (s : State) : (raiseError c o s).frameCount = s.frameCount := rfl
@[simp] theorem raiseError_framesDone (c : Code) (o : Count) (s : State) : (raiseError c o s).framesDone = s.framesDone := rfl
@[simp] theorem raiseError_hdr (c : Code) (o : Count) (s : State) : (raiseError c o s).hdr = s.hdr := rfl
@[simp] theorem raiseError_cvtIn (c : Code) (o : Count) (s : State) : (raiseError c o s).cvtIn = s.cvtIn := rfl
@[simp] theorem raiseError_cvtOut (c : Code) (o : Count) (s : State) : (raiseError c o s).cvtOut = s.cvtOut := rfl
@[simp] theorem raiseError_sinkErr (c : Code) (o : Count) (s : State) : (raiseError c o s).sinkErr = s.sinkErr := rfl
@[simp] theorem raiseError_srcErr (c : Code) (o : Count) (s : State) : (raiseError c o s).srcErr = s.srcErr := rfl
@[simp] theorem raiseError_secNum (c : Code) (o : Count) (s : State) : (raiseError c o s).secNum = s.secNum := rfl
@[simp] theorem raiseError_curSection (c : Code) (o : Count) (s : State) : (raiseError c o s).curSection = s.curSection := rfl
@[simp] theorem raiseError_secCount (c : Code) (o : Count) (s : State) : (raiseError c o s).secCount = s.secCount := rfl
@[simp] theorem raiseError_running (c : Code) (o : Count) (s : State) : (raiseError c o s).running = none := rfl
@[simp] theorem raiseError_src (c : Code) (o : Count) (s : State) : (raiseError c o s).src = s.src := rfl
@[simp] theorem raiseError_pix (c : Code) (o : Count) (s : State) : (raiseError c o s).pix = s.pix := rfl
@[simp] theorem raiseError_pixIndex (c : Code) (o : Count) (s : State) : (raiseError c o s).pixIndex = s.pixIndex := rfl
@[simp] theorem raiseError_sink (c : Code) (o : Count) (s : State) : (raiseError c o s).sink = s.sink := rfl
@[simp] theorem raiseError_records (c : Code) (o : Count) (s : State) : (raiseError c o s).records = s.records := rfl
@[simp] theorem raiseError_sinkAnswers (c : Code) (o : Count) (s : State) : (raiseError c o s).sinkAnswers = s.sinkAnswers := rfl
@[simp] theorem raiseError_sinkRest (c : Code) (o : Count) (s : State) : (raiseError c o s).sinkRest = s.sinkRest := rfl
@[simp] theorem raiseError_staged (c : Code) (o : Count) (s : State) : (raiseError c o s).staged = s.staged := rfl
@[simp] theorem raiseError_host (c : Code) (o : Count) (s : State) : (raiseError c o s).host = s.host := rfl
@[simp] theorem raiseError_overlap (c : Code) (o : Count) (s : State) : (raiseError c o s).overlap = s.overlap := rfl
@[simp] theorem raiseError_cut (c : Code) (o : Count) (s : State) : (raiseError c o s).cut = s.cut := rfl
@[simp] theorem raiseError_readLog (c : Code) (o : Count) (s : State) : (raiseError c o s).readLog = s.readLog := rfl
@[simp] theorem raiseError_draws (c : Code) (o : Count) (s : State) : (raiseError c o s).draws = s.draws := rfl

/-! ### `raise Error(TRUNC_HDR, ..)` -/

@[simp] theorem raiseTruncHdr_status (o : Count) (n : Nat) (s : State) : (raiseTruncHdr o n s).status = s.status.failed .truncHdr (BitVec.ofNat 5 n) := rfl
@[simp] theorem raiseTruncHdr_evtOffset (o : Count) (n : Nat) (s : State) : (raiseTruncHdr o n s).evtOffset = o := rfl
@[simp] theorem raiseTruncHdr_cursor (o : Count) (n : Nat) (s : State) : (raiseTruncHdr o n s).cursor = s.cursor := rfl
@[simp] theorem raiseTruncHdr_outCount (o : Count) (n : Nat) (s : State) : (raiseTruncHdr o n s).outCount = s.outCount := rfl
@[simp] theorem raiseTruncHdr_expCount (o : Count) (n : Nat) (s : State) : (raiseTruncHdr o n s).expCount = s.expCount := rfl
@[simp] theorem raiseTruncHdr_trailCount (o : Count) (n : Nat) (s : State) : (raiseTruncHdr o n s).trailCount = s.trailCount := rfl
@[simp] theorem raiseTruncHdr_inWidth (o : Count) (n : Nat) (s : State) : (raiseTruncHdr o n s).inWidth = s.inWidth := rfl
@[simp] theorem raiseTruncHdr_inHeight (o : Count) (n : Nat) (s : State) : (raiseTruncHdr o n s).inHeight = s.inHeight := rfl
@[simp] theorem raiseTruncHdr_frameCount (o : Count) (n : Nat) (s : State) : (raiseTruncHdr o n s).frameCount = s.frameCount := rfl
@[simp] theorem raiseTruncHdr_framesDone (o : Count) (n : Nat) (s : State) : (raiseTruncHdr o n s).framesDone = s.framesDone := rfl
@[simp] theorem raiseTruncHdr_hdr (o : Count) (n : Nat) (s : State) : (raiseTruncHdr o n s).hdr = s.hdr := rfl
@[simp] theorem raiseTruncHdr_cvtIn (o : Count) (n : Nat) (s : State) : (raiseTruncHdr o n s).cvtIn = s.cvtIn := rfl
@[simp] theorem raiseTruncHdr_cvtOut (o : Count) (n : Nat) (s : State) : (raiseTruncHdr o n s).cvtOut = s.cvtOut := rfl
@[simp] theorem raiseTruncHdr_sinkErr (o : Count) (n : Nat) (s : State) : (raiseTruncHdr o n s).sinkErr = s.sinkErr := rfl
@[simp] theorem raiseTruncHdr_srcErr (o : Count) (n : Nat) (s : State) : (raiseTruncHdr o n s).srcErr = s.srcErr := rfl
@[simp] theorem raiseTruncHdr_secNum (o : Count) (n : Nat) (s : State) : (raiseTruncHdr o n s).secNum = s.secNum := rfl
@[simp] theorem raiseTruncHdr_curSection (o : Count) (n : Nat) (s : State) : (raiseTruncHdr o n s).curSection = s.curSection := rfl
@[simp] theorem raiseTruncHdr_secCount (o : Count) (n : Nat) (s : State) : (raiseTruncHdr o n s).secCount = s.secCount := rfl
@[simp] theorem raiseTruncHdr_running (o : Count) (n : Nat) (s : State) : (raiseTruncHdr o n s).running = none := rfl
@[simp] theorem raiseTruncHdr_src (o : Count) (n : Nat) (s : State) : (raiseTruncHdr o n s).src = s.src := rfl
@[simp] theorem raiseTruncHdr_pix (o : Count) (n : Nat) (s : State) : (raiseTruncHdr o n s).pix = s.pix := rfl
@[simp] theorem raiseTruncHdr_pixIndex (o : Count) (n : Nat) (s : State) : (raiseTruncHdr o n s).pixIndex = s.pixIndex := rfl
@[simp] theorem raiseTruncHdr_sink (o : Count) (n : Nat) (s : State) : (raiseTruncHdr o n s).sink = s.sink := rfl
@[simp] theorem raiseTruncHdr_records (o : Count) (n : Nat) (s : State) : (raiseTruncHdr o n s).records = s.records := rfl
@[simp] theorem raiseTruncHdr_sinkAnswers (o : Count) (n : Nat) (s : State) : (raiseTruncHdr o n s).sinkAnswers = s.sinkAnswers := rfl
@[simp] theorem raiseTruncHdr_sinkRest (o : Count) (n : Nat) (s : State) : (raiseTruncHdr o n s).sinkRest = s.sinkRest := rfl
@[simp] theorem raiseTruncHdr_staged (o : Count) (n : Nat) (s : State) : (raiseTruncHdr o n s).staged = s.staged := rfl
@[simp] theorem raiseTruncHdr_host (o : Count) (n : Nat) (s : State) : (raiseTruncHdr o n s).host = s.host := rfl
@[simp] theorem raiseTruncHdr_overlap (o : Count) (n : Nat) (s : State) : (raiseTruncHdr o n s).overlap = s.overlap := rfl
@[simp] theorem raiseTruncHdr_cut (o : Count) (n : Nat) (s : State) : (raiseTruncHdr o n s).cut = s.cut := rfl
@[simp] theorem raiseTruncHdr_readLog (o : Count) (n : Nat) (s : State) : (raiseTruncHdr o n s).readLog = s.readLog := rfl
@[simp] theorem raiseTruncHdr_draws (o : Count) (n : Nat) (s : State) : (raiseTruncHdr o n s).draws = s.draws := rfl

/-! ### `warn TrailingBytes` -/

@[simp] theorem warnTrailing_status (o : Count) (n : Nat) (s : State) : (warnTrailing o n s).status = s.status.warned := rfl
@[simp] theorem warnTrailing_evtOffset (o : Count) (n : Nat) (s : State) : (warnTrailing o n s).evtOffset = o := rfl
@[simp] theorem warnTrailing_cursor (o : Count) (n : Nat) (s : State) : (warnTrailing o n s).cursor = s.cursor := rfl
@[simp] theorem warnTrailing_outCount (o : Count) (n : Nat) (s : State) : (warnTrailing o n s).outCount = s.outCount := rfl
@[simp] theorem warnTrailing_expCount (o : Count) (n : Nat) (s : State) : (warnTrailing o n s).expCount = s.expCount := rfl
@[simp] theorem warnTrailing_trailCount (o : Count) (n : Nat) (s : State) : (warnTrailing o n s).trailCount = BitVec.ofNat 64 n := rfl
@[simp] theorem warnTrailing_inWidth (o : Count) (n : Nat) (s : State) : (warnTrailing o n s).inWidth = s.inWidth := rfl
@[simp] theorem warnTrailing_inHeight (o : Count) (n : Nat) (s : State) : (warnTrailing o n s).inHeight = s.inHeight := rfl
@[simp] theorem warnTrailing_frameCount (o : Count) (n : Nat) (s : State) : (warnTrailing o n s).frameCount = s.frameCount := rfl
@[simp] theorem warnTrailing_framesDone (o : Count) (n : Nat) (s : State) : (warnTrailing o n s).framesDone = s.framesDone := rfl
@[simp] theorem warnTrailing_hdr (o : Count) (n : Nat) (s : State) : (warnTrailing o n s).hdr = s.hdr := rfl
@[simp] theorem warnTrailing_cvtIn (o : Count) (n : Nat) (s : State) : (warnTrailing o n s).cvtIn = s.cvtIn := rfl
@[simp] theorem warnTrailing_cvtOut (o : Count) (n : Nat) (s : State) : (warnTrailing o n s).cvtOut = s.cvtOut := rfl
@[simp] theorem warnTrailing_sinkErr (o : Count) (n : Nat) (s : State) : (warnTrailing o n s).sinkErr = s.sinkErr := rfl
@[simp] theorem warnTrailing_srcErr (o : Count) (n : Nat) (s : State) : (warnTrailing o n s).srcErr = s.srcErr := rfl
@[simp] theorem warnTrailing_secNum (o : Count) (n : Nat) (s : State) : (warnTrailing o n s).secNum = s.secNum := rfl
@[simp] theorem warnTrailing_curSection (o : Count) (n : Nat) (s : State) : (warnTrailing o n s).curSection = s.curSection := rfl
@[simp] theorem warnTrailing_secCount (o : Count) (n : Nat) (s : State) : (warnTrailing o n s).secCount = s.secCount := rfl
@[simp] theorem warnTrailing_running (o : Count) (n : Nat) (s : State) : (warnTrailing o n s).running = s.running := rfl
@[simp] theorem warnTrailing_src (o : Count) (n : Nat) (s : State) : (warnTrailing o n s).src = s.src := rfl
@[simp] theorem warnTrailing_pix (o : Count) (n : Nat) (s : State) : (warnTrailing o n s).pix = s.pix := rfl
@[simp] theorem warnTrailing_pixIndex (o : Count) (n : Nat) (s : State) : (warnTrailing o n s).pixIndex = s.pixIndex := rfl
@[simp] theorem warnTrailing_sink (o : Count) (n : Nat) (s : State) : (warnTrailing o n s).sink = s.sink := rfl
@[simp] theorem warnTrailing_records (o : Count) (n : Nat) (s : State) : (warnTrailing o n s).records = s.records := rfl
@[simp] theorem warnTrailing_sinkAnswers (o : Count) (n : Nat) (s : State) : (warnTrailing o n s).sinkAnswers = s.sinkAnswers := rfl
@[simp] theorem warnTrailing_sinkRest (o : Count) (n : Nat) (s : State) : (warnTrailing o n s).sinkRest = s.sinkRest := rfl
@[simp] theorem warnTrailing_staged (o : Count) (n : Nat) (s : State) : (warnTrailing o n s).staged = s.staged := rfl
@[simp] theorem warnTrailing_host (o : Count) (n : Nat) (s : State) : (warnTrailing o n s).host = s.host := rfl
@[simp] theorem warnTrailing_overlap (o : Count) (n : Nat) (s : State) : (warnTrailing o n s).overlap = s.overlap := rfl
@[simp] theorem warnTrailing_cut (o : Count) (n : Nat) (s : State) : (warnTrailing o n s).cut = s.cut := rfl
@[simp] theorem warnTrailing_readLog (o : Count) (n : Nat) (s : State) : (warnTrailing o n s).readLog = s.readLog := rfl
@[simp] theorem warnTrailing_draws (o : Count) (n : Nat) (s : State) : (warnTrailing o n s).draws = s.draws := rfl

/-! ### A command's start -/

@[simp] theorem startCommand_status (l : List BlockState) (w : Bool) (s : State) : (startCommand l w s).status = s.status.started.afterAccesses s.overlap := rfl
@[simp] theorem startCommand_evtOffset (l : List BlockState) (w : Bool) (s : State) : (startCommand l w s).evtOffset = 0 := rfl
@[simp] theorem startCommand_cursor (l : List BlockState) (w : Bool) (s : State) : (startCommand l w s).cursor = s.cursor := rfl
@[simp] theorem startCommand_outCount (l : List BlockState) (w : Bool) (s : State) : (startCommand l w s).outCount = s.outCount := rfl
@[simp] theorem startCommand_expCount (l : List BlockState) (w : Bool) (s : State) : (startCommand l w s).expCount = s.expCount := rfl
@[simp] theorem startCommand_trailCount (l : List BlockState) (w : Bool) (s : State) : (startCommand l w s).trailCount = 0 := rfl
@[simp] theorem startCommand_inWidth (l : List BlockState) (w : Bool) (s : State) : (startCommand l w s).inWidth = s.inWidth := rfl
@[simp] theorem startCommand_inHeight (l : List BlockState) (w : Bool) (s : State) : (startCommand l w s).inHeight = s.inHeight := rfl
@[simp] theorem startCommand_frameCount (l : List BlockState) (w : Bool) (s : State) : (startCommand l w s).frameCount = s.frameCount := rfl
@[simp] theorem startCommand_framesDone (l : List BlockState) (w : Bool) (s : State) : (startCommand l w s).framesDone = 0 := rfl
@[simp] theorem startCommand_hdr (l : List BlockState) (w : Bool) (s : State) : (startCommand l w s).hdr = s.hdr := rfl
@[simp] theorem startCommand_cvtIn (l : List BlockState) (w : Bool) (s : State) : (startCommand l w s).cvtIn = s.cvtIn := rfl
@[simp] theorem startCommand_cvtOut (l : List BlockState) (w : Bool) (s : State) : (startCommand l w s).cvtOut = s.cvtOut := rfl
@[simp] theorem startCommand_sinkErr (l : List BlockState) (w : Bool) (s : State) : (startCommand l w s).sinkErr = 0 := rfl
@[simp] theorem startCommand_srcErr (l : List BlockState) (w : Bool) (s : State) : (startCommand l w s).srcErr = 0 := rfl
@[simp] theorem startCommand_secNum (l : List BlockState) (w : Bool) (s : State) : (startCommand l w s).secNum = s.secNum := rfl
@[simp] theorem startCommand_curSection (l : List BlockState) (w : Bool) (s : State) : (startCommand l w s).curSection = 0 := rfl
@[simp] theorem startCommand_secCount (l : List BlockState) (w : Bool) (s : State) : (startCommand l w s).secCount = s.secCount := rfl
@[simp] theorem startCommand_running (l : List BlockState) (w : Bool) (s : State) : (startCommand l w s).running = none := rfl
@[simp] theorem startCommand_src (l : List BlockState) (w : Bool) (s : State) : (startCommand l w s).src = s.src := rfl
@[simp] theorem startCommand_pix (l : List BlockState) (w : Bool) (s : State) : (startCommand l w s).pix = s.pix := rfl
@[simp] theorem startCommand_pixIndex (l : List BlockState) (w : Bool) (s : State) : (startCommand l w s).pixIndex = s.pixIndex := rfl
@[simp] theorem startCommand_sink (l : List BlockState) (w : Bool) (s : State) : (startCommand l w s).sink = s.sink := rfl
@[simp] theorem startCommand_records (l : List BlockState) (w : Bool) (s : State) : (startCommand l w s).records = s.records := rfl
@[simp] theorem startCommand_sinkAnswers (l : List BlockState) (w : Bool) (s : State) : (startCommand l w s).sinkAnswers = s.sinkAnswers := rfl
@[simp] theorem startCommand_sinkRest (l : List BlockState) (w : Bool) (s : State) : (startCommand l w s).sinkRest = s.sinkRest := rfl
@[simp] theorem startCommand_staged (l : List BlockState) (w : Bool) (s : State) : (startCommand l w s).staged = s.staged := rfl
@[simp] theorem startCommand_host (l : List BlockState) (w : Bool) (s : State) : (startCommand l w s).host = s.host := rfl
@[simp] theorem startCommand_overlap (l : List BlockState) (w : Bool) (s : State) : (startCommand l w s).overlap = [] := rfl
@[simp] theorem startCommand_cut (l : List BlockState) (w : Bool) (s : State) : (startCommand l w s).cut = s.cut := rfl
@[simp] theorem startCommand_readLog (l : List BlockState) (w : Bool) (s : State) : (startCommand l w s).readLog = s.readLog ++ busyReads (s.status.state :: l) w s.status.started s.draws s.overlap := rfl
@[simp] theorem startCommand_draws (l : List BlockState) (w : Bool) (s : State) : (startCommand l w s).draws = s.draws + s.overlap.countP (fun a => !a.isWrite) := rfl

/-! ### Reset -/

@[simp] theorem resetBlock_status (s : State) : (resetBlock s).status = Status.reset := rfl
@[simp] theorem resetBlock_evtOffset (s : State) : (resetBlock s).evtOffset = 0 := rfl
@[simp] theorem resetBlock_cursor (s : State) : (resetBlock s).cursor = 0 := rfl
@[simp] theorem resetBlock_outCount (s : State) : (resetBlock s).outCount = 0 := rfl
@[simp] theorem resetBlock_expCount (s : State) : (resetBlock s).expCount = 0 := rfl
@[simp] theorem resetBlock_trailCount (s : State) : (resetBlock s).trailCount = 0 := rfl
@[simp] theorem resetBlock_inWidth (s : State) : (resetBlock s).inWidth = 0 := rfl
@[simp] theorem resetBlock_inHeight (s : State) : (resetBlock s).inHeight = 0 := rfl
@[simp] theorem resetBlock_frameCount (s : State) : (resetBlock s).frameCount = 0 := rfl
@[simp] theorem resetBlock_framesDone (s : State) : (resetBlock s).framesDone = 0 := rfl
@[simp] theorem resetBlock_hdr (s : State) : (resetBlock s).hdr = Header.zero := rfl
@[simp] theorem resetBlock_cvtIn (s : State) : (resetBlock s).cvtIn = 0 := rfl
@[simp] theorem resetBlock_cvtOut (s : State) : (resetBlock s).cvtOut = 0 := rfl
@[simp] theorem resetBlock_sinkErr (s : State) : (resetBlock s).sinkErr = 0 := rfl
@[simp] theorem resetBlock_srcErr (s : State) : (resetBlock s).srcErr = 0 := rfl
@[simp] theorem resetBlock_secNum (s : State) : (resetBlock s).secNum = 0 := rfl
@[simp] theorem resetBlock_curSection (s : State) : (resetBlock s).curSection = 0 := rfl
@[simp] theorem resetBlock_secCount (s : State) : (resetBlock s).secCount = List.replicate s.secCount.length 0 := rfl
@[simp] theorem resetBlock_running (s : State) : (resetBlock s).running = none := rfl
@[simp] theorem resetBlock_src (s : State) : (resetBlock s).src = s.staged.src := rfl
@[simp] theorem resetBlock_pix (s : State) : (resetBlock s).pix = s.staged.pix := rfl
@[simp] theorem resetBlock_pixIndex (s : State) : (resetBlock s).pixIndex = 0 := rfl
@[simp] theorem resetBlock_sink (s : State) : (resetBlock s).sink = s.sink := rfl
@[simp] theorem resetBlock_records (s : State) : (resetBlock s).records = s.records := rfl
@[simp] theorem resetBlock_sinkAnswers (s : State) : (resetBlock s).sinkAnswers = s.sinkAnswers := rfl
@[simp] theorem resetBlock_sinkRest (s : State) : (resetBlock s).sinkRest = s.sinkRest := rfl
@[simp] theorem resetBlock_staged (s : State) : (resetBlock s).staged = s.staged := rfl
@[simp] theorem resetBlock_host (s : State) : (resetBlock s).host = s.host := rfl
@[simp] theorem resetBlock_overlap (s : State) : (resetBlock s).overlap = s.overlap := rfl
@[simp] theorem resetBlock_cut (s : State) : (resetBlock s).cut = none := rfl
@[simp] theorem resetBlock_readLog (s : State) : (resetBlock s).readLog = s.readLog := rfl
@[simp] theorem resetBlock_draws (s : State) : (resetBlock s).draws = s.draws := rfl

/-! ### A waiting command goes on -/

@[simp] theorem continueCommand_status (l : List BlockState) (s : State) : (continueCommand l s).status = s.status.afterAccesses s.overlap := rfl
@[simp] theorem continueCommand_evtOffset (l : List BlockState) (s : State) : (continueCommand l s).evtOffset = s.evtOffset := rfl
@[simp] theorem continueCommand_cursor (l : List BlockState) (s : State) : (continueCommand l s).cursor = s.cursor := rfl
@[simp] theorem continueCommand_outCount (l : List BlockState) (s : State) : (continueCommand l s).outCount = s.outCount := rfl
@[simp] theorem continueCommand_expCount (l : List BlockState) (s : State) : (continueCommand l s).expCount = s.expCount := rfl
@[simp] theorem continueCommand_trailCount (l : List BlockState) (s : State) : (continueCommand l s).trailCount = s.trailCount := rfl
@[simp] theorem continueCommand_inWidth (l : List BlockState) (s : State) : (continueCommand l s).inWidth = s.inWidth := rfl
@[simp] theorem continueCommand_inHeight (l : List BlockState) (s : State) : (continueCommand l s).inHeight = s.inHeight := rfl
@[simp] theorem continueCommand_frameCount (l : List BlockState) (s : State) : (continueCommand l s).frameCount = s.frameCount := rfl
@[simp] theorem continueCommand_framesDone (l : List BlockState) (s : State) : (continueCommand l s).framesDone = s.framesDone := rfl
@[simp] theorem continueCommand_hdr (l : List BlockState) (s : State) : (continueCommand l s).hdr = s.hdr := rfl
@[simp] theorem continueCommand_cvtIn (l : List BlockState) (s : State) : (continueCommand l s).cvtIn = s.cvtIn := rfl
@[simp] theorem continueCommand_cvtOut (l : List BlockState) (s : State) : (continueCommand l s).cvtOut = s.cvtOut := rfl
@[simp] theorem continueCommand_sinkErr (l : List BlockState) (s : State) : (continueCommand l s).sinkErr = s.sinkErr := rfl
@[simp] theorem continueCommand_srcErr (l : List BlockState) (s : State) : (continueCommand l s).srcErr = s.srcErr := rfl
@[simp] theorem continueCommand_secNum (l : List BlockState) (s : State) : (continueCommand l s).secNum = s.secNum := rfl
@[simp] theorem continueCommand_curSection (l : List BlockState) (s : State) : (continueCommand l s).curSection = s.curSection := rfl
@[simp] theorem continueCommand_secCount (l : List BlockState) (s : State) : (continueCommand l s).secCount = s.secCount := rfl
@[simp] theorem continueCommand_running (l : List BlockState) (s : State) : (continueCommand l s).running = none := rfl
@[simp] theorem continueCommand_src (l : List BlockState) (s : State) : (continueCommand l s).src = s.src := rfl
@[simp] theorem continueCommand_pix (l : List BlockState) (s : State) : (continueCommand l s).pix = s.pix := rfl
@[simp] theorem continueCommand_pixIndex (l : List BlockState) (s : State) : (continueCommand l s).pixIndex = s.pixIndex := rfl
@[simp] theorem continueCommand_sink (l : List BlockState) (s : State) : (continueCommand l s).sink = s.sink := rfl
@[simp] theorem continueCommand_records (l : List BlockState) (s : State) : (continueCommand l s).records = s.records := rfl
@[simp] theorem continueCommand_sinkAnswers (l : List BlockState) (s : State) : (continueCommand l s).sinkAnswers = s.sinkAnswers := rfl
@[simp] theorem continueCommand_sinkRest (l : List BlockState) (s : State) : (continueCommand l s).sinkRest = s.sinkRest := rfl
@[simp] theorem continueCommand_staged (l : List BlockState) (s : State) : (continueCommand l s).staged = s.staged := rfl
@[simp] theorem continueCommand_host (l : List BlockState) (s : State) : (continueCommand l s).host = s.host := rfl
@[simp] theorem continueCommand_overlap (l : List BlockState) (s : State) : (continueCommand l s).overlap = [] := rfl
@[simp] theorem continueCommand_cut (l : List BlockState) (s : State) : (continueCommand l s).cut = s.cut := rfl
@[simp] theorem continueCommand_readLog (l : List BlockState) (s : State) : (continueCommand l s).readLog = s.readLog ++ busyReads l false s.status s.draws s.overlap := rfl
@[simp] theorem continueCommand_draws (l : List BlockState) (s : State) : (continueCommand l s).draws = s.draws + s.overlap.countP (fun a => !a.isWrite) := rfl

/-- With no access to fall while it goes on, a waiting command goes on as it stands. -/
theorem continueCommand_of_no_access (l : List BlockState) {s : State} (h : s.overlap = []) :
    continueCommand l s = { s with running := none } := by
  simp [continueCommand, h, Status.afterAccesses, busyReads]

/-! ### Power-on reset inside a command -/

theorem unlessCut_none {s : State} (h : s.cut = none) (o : Host.Outcome State Fault Refusal) : unlessCut s o = o := by
  simp [unlessCut, h]

theorem unlessCut_some {s t : State} {k : Nat} (h : s.cut = some k) :
    unlessCut s (.next t) = .next (abandonCommand k s t) := by
  simp [unlessCut, h]

/-- Everything a command that may be cut can answer. -/
theorem unlessCut_next {s u : State} {o : Host.Outcome State Fault Refusal} (h : unlessCut s o = .next u) :
    (s.cut = none ∧ o = .next u) ∨ ∃ k t, s.cut = some k ∧ o = .next t ∧ u = abandonCommand k s t := by
  cases hc : s.cut with
  | none =>
    rw [unlessCut_none hc] at h
    exact Or.inl ⟨rfl, h⟩
  | some k =>
    cases o with
    | next t =>
      rw [unlessCut_some hc] at h
      cases h
      exact Or.inr ⟨k, t, rfl, rfl, rfl⟩
    | fault f => simp [unlessCut, hc] at h
    | refused r => simp [unlessCut, hc] at h

end Sys2Proof.Machine
end

