-- ==== Sys2Proof/Laws/Run.lean ====
section
/-! SUPPORT. How the parts of a command are put together, and the rule by which a property of every outcome is shown
part by part. -/
namespace Sys2Proof.Machine

@[simp] theorem Run.bind_ok {α β : Type} (a : α) (s : State) (f : α → State → Run β) :
    (Run.ok a s).bind f = f a s := rfl
@[simp] theorem Run.bind_stopped {α β : Type} (s : State) (f : α → State → Run β) :
    (Run.stopped s : Run α).bind f = .stopped s := rfl
@[simp] theorem Run.bind_refused {α β : Type} (r : Refusal) (f : α → State → Run β) :
    (Run.refused r : Run α).bind f = .refused r := rfl

theorem Run.bind_assoc {α β γ : Type} (x : Run α) (f : α → State → Run β) (g : β → State → Run γ) :
    (x.bind f).bind g = x.bind fun a s => (f a s).bind g := by
  cases x <;> rfl

@[simp] theorem Run.outcome_ok (a : Unit) (s : State) : (Run.ok a s).outcome = .next (finish s) := rfl
@[simp] theorem Run.outcome_stopped (s : State) : (Run.stopped s : Run Unit).outcome = .next s := rfl
@[simp] theorem Run.outcome_refused (r : Refusal) : (Run.refused r : Run Unit).outcome = .refused r := rfl

/-- Every state a part can answer has the property: `A` where it ran, `P` where it stopped. -/
def Run.Holds {α : Type} (A : α → State → Prop) (P : State → Prop) : Run α → Prop
  | .ok a s => A a s
  | .stopped s => P s
  | .refused _ => True

@[simp] theorem Run.holds_ok {α : Type} (A : α → State → Prop) (P : State → Prop) (a : α) (s : State) :
    (Run.ok a s).Holds A P ↔ A a s := Iff.rfl
@[simp] theorem Run.holds_stopped {α : Type} (A : α → State → Prop) (P : State → Prop) (s : State) :
    (Run.stopped s : Run α).Holds A P ↔ P s := Iff.rfl
@[simp] theorem Run.holds_refused {α : Type} (A : α → State → Prop) (P : State → Prop) (r : Refusal) :
    (Run.refused r : Run α).Holds A P ↔ True := Iff.rfl

/-- One part after another. -/
theorem Run.Holds.bind {α β : Type} {A : α → State → Prop} {B : β → State → Prop} {P : State → Prop} {x : Run α}
    {f : α → State → Run β} (hx : x.Holds A P) (hf : ∀ a s, A a s → (f a s).Holds B P) : (x.bind f).Holds B P := by
  cases x with
  | ok a s => exact hf a s hx
  | stopped s => exact hx
  | refused r => trivial

theorem Run.Holds.mono {α : Type} {A B : α → State → Prop} {P Q : State → Prop} {x : Run α} (hx : x.Holds A P)
    (hA : ∀ a s, A a s → B a s) (hP : ∀ s, P s → Q s) : x.Holds B Q := by
  cases x with
  | ok a s => exact hA a s hx
  | stopped s => exact hP s hx
  | refused r => trivial

/-- What a whole command answers. -/
theorem Run.Holds.next {A : Unit → State → Prop} {P : State → Prop} {x : Run Unit} {t : State} (hx : x.Holds A P)
    (hA : ∀ a s, A a s → P (finish s)) (h : x.outcome = .next t) : P t := by
  cases x with
  | ok a s => cases h; exact hA a s hx
  | stopped s => cases h; exact hx
  | refused r => cases h

end Sys2Proof.Machine
end

