-- ==== Sys2Proof/Laws/Wire.lean ====
section
/-! SUPPORT. Little-endian bytes, lengths of the wire formats, and the bytes of a pixel. -/
namespace Sys2Proof.Machine

/-- The four bytes of a u32, put together again (R69). -/
theorem or_bytes_eq (v : Word) :
    (v.extractLsb' 0 8).setWidth 32 ||| ((v.extractLsb' 8 8).setWidth 32 <<< 8)
      ||| ((v.extractLsb' 16 8).setWidth 32 <<< 16) ||| ((v.extractLsb' 24 8).setWidth 32 <<< 24) = v := by
  apply BitVec.eq_of_getLsbD_eq
  intro i hi
  simp only [BitVec.getLsbD_or, BitVec.getLsbD_shiftLeft, BitVec.getLsbD_setWidth, BitVec.getLsbD_extractLsb']
  interval_cases i <;> simp

/-- Four bytes, put together to a u32 and taken apart again (R69). -/
theorem le32_or_bytes (a b c d : Byte) :
    le32 (a.setWidth 32 ||| (b.setWidth 32 <<< 8) ||| (c.setWidth 32 <<< 16) ||| (d.setWidth 32 <<< 24))
      = [a, b, c, d] := by
  simp only [le32, List.cons.injEq, and_true]
  refine ⟨?_, ?_, ?_, ?_⟩ <;>
  · apply BitVec.eq_of_getLsbD_eq
    intro i hi
    simp only [BitVec.getLsbD_or, BitVec.getLsbD_shiftLeft, BitVec.getLsbD_setWidth, BitVec.getLsbD_extractLsb']
    interval_cases i <;> simp

@[simp] theorem le16_length (v : Half) : (le16 v).length = 2 := rfl
@[simp] theorem le32_length (v : Word) : (le32 v).length = 4 := rfl
@[simp] theorem packHeader_length (h : Header) : (packHeader h).length = 24 := rfl

@[simp] theorem frameBytes_length (h : Header) (payload : List Byte) :
    (frameBytes h payload).length = 24 + payload.length := by
  simp [frameBytes]

@[simp] theorem pixbytes_length (fmt : PixelFormat) (w : Word) : (pixbytes fmt w).length = fmt.bpp := by
  cases fmt <;> rfl

theorem bpp_pos (fmt : PixelFormat) : 0 < fmt.bpp := by cases fmt <;> decide

@[simp] theorem flatMap_pixbytes_length (fmt : PixelFormat) (ws : List Word) :
    (ws.flatMap (pixbytes fmt)).length = ws.length * fmt.bpp := by
  induction ws with
  | nil => simp
  | cons w ws ih => simp [ih, Nat.add_mul, Nat.add_comm]

@[simp] theorem supportedFormat_code (fmt : PixelFormat) : supportedFormat fmt.code = some fmt := by
  cases fmt <;> rfl

/-- The stride of the header ENCF writes is W × bpp where R151 admits it (R144). -/
theorem encodedHeader_stride_toNat (fmt : PixelFormat) (w h : Word) (hw : w.toNat * fmt.bpp ≤ 0xFFFFFFFF) :
    (encodedHeader fmt w h).stride.toNat = w.toNat * fmt.bpp := by
  simp only [encodedHeader, BitVec.toNat_ofNat]
  exact Nat.mod_eq_of_lt (by omega)

@[simp] theorem containerBytes_nil : containerBytes [] = [] := rfl

@[simp] theorem containerBytes_cons (f : FrameData) (fs : List FrameData) :
    containerBytes (f :: fs) = packHeader f.1 ++ (f.2 ++ containerBytes fs) := by
  simp [containerBytes, frameBytes]

theorem containerBytes_append (fs gs : List FrameData) :
    containerBytes (fs ++ gs) = containerBytes fs ++ containerBytes gs := by
  simp [containerBytes]

end Sys2Proof.Machine
end

