-- ==== Sys2Proof/Laws/Ops.lean ====
section
/-! SUPPORT. One law per case of each shared operation: start and completion, the byte source, the byte sink, the pixel
and record ports. -/
namespace Sys2Proof.Machine

/-! ### Status at the end of a command -/

@[simp] theorem afterAccesses_eq (st : Status) (as : List BusyAccess) :
    st.started.afterAccesses as = { st.started with wrWhileBusy := as.any BusyAccess.isWrite } := by
  unfold Status.afterAccesses
  split <;> simp_all [Status.writeDropped, Status.started]

/-- `finish`, whatever the state passed through. -/
theorem finished_started (s : State) (b : BlockState) :
    ({ ({ s.status.started with wrWhileBusy := s.overlap.any BusyAccess.isWrite } : Status) with state := b }
      : Status).finished = successStatus s false := rfl

/-! ### Byte source (R64, R65) -/

/-- The state after `n` source bytes are consumed. -/
def consume (n : Nat) (s : State) : State :=
  { s with src := { s.src with bytes := s.src.bytes.drop n }, cursor := s.cursor + BitVec.ofNat 64 n }

/-- R64: `k` bytes are there. -/
theorem srcRead_whole {k : Nat} {s : State} (hk : k ≤ s.src.bytes.length) (hc : s.cursor.toNat + k < 2 ^ 64) :
    srcRead k s = .ok (s.src.bytes.take k) (consume k s) := by
  have hl : (s.src.bytes.take k).length = k := by simp [hk]
  simp only [srcRead, hl, hc, if_true, Nat.lt_irrefl, if_false, consume]

/-- R64: fewer than `k` bytes are there, before a clean end. -/
theorem srcRead_short {k : Nat} {s : State} (hk : s.src.bytes.length < k) (he : s.src.ending = .eos)
    (hc : s.cursor.toNat + s.src.bytes.length < 2 ^ 64) :
    srcRead k s = .ok s.src.bytes (consume s.src.bytes.length s) := by
  have ht : s.src.bytes.take k = s.src.bytes := List.take_of_length_le (by omega)
  have hd : s.src.bytes.drop k = [] := List.drop_of_length_le (by omega)
  simp [srcRead, ht, hd, hc, hk, he, consume, -Nat.reducePow]

/-- R64, R241: fewer than `k` bytes are there, before a failure. -/
theorem srcRead_fails {k : Nat} {s : State} {e : Word} (hk : s.src.bytes.length < k) (he : s.src.ending = .err e)
    (hc : s.cursor.toNat + s.src.bytes.length < 2 ^ 64) :
    srcRead k s = .stopped (raiseError .srcIo (s.cursor + BitVec.ofNat 64 s.src.bytes.length)
      { consume s.src.bytes.length s with srcErr := e }) := by
  have ht : s.src.bytes.take k = s.src.bytes := List.take_of_length_le (by omega)
  have hd : s.src.bytes.drop k = [] := List.drop_of_length_le (by omega)
  simp [srcRead, ht, hd, hc, hk, he, consume, -Nat.reducePow]

/-- R65: the drain reaches a clean end. -/
theorem srcDrain_clean {s : State} (he : s.src.ending = .eos) (hc : s.cursor.toNat + s.src.bytes.length < 2 ^ 64) :
    srcDrain s = .ok s.src.bytes.length (consume s.src.bytes.length s) := by
  simp [srcDrain, hc, he, consume, -Nat.reducePow]

/-- R65, R241: the drain reaches a failure. -/
theorem srcDrain_fails {s : State} {e : Word} (he : s.src.ending = .err e)
    (hc : s.cursor.toNat + s.src.bytes.length < 2 ^ 64) :
    srcDrain s = .stopped (raiseError .srcIo (s.cursor + BitVec.ofNat 64 s.src.bytes.length)
      { consume s.src.bytes.length s with srcErr := e }) := by
  simp [srcDrain, hc, he, consume, -Nat.reducePow]

/-- Everything a source read can do: it consumes bytes from the front, and has stopped only at the failure of R241. -/
theorem srcRead_holds (k : Nat) (s : State) :
    (srcRead k s).Holds
      (fun got t => ∃ n, n ≤ s.src.bytes.length ∧ s.cursor.toNat + n < 2 ^ 64 ∧ got = s.src.bytes.take k
        ∧ n = got.length ∧ t = consume n s ∧ (got.length < k → s.src.ending = .eos))
      (fun t => ∃ e, s.src.ending = .err e ∧ s.src.bytes.length < k ∧ s.cursor.toNat + s.src.bytes.length < 2 ^ 64
        ∧ t = raiseError .srcIo (s.cursor + BitVec.ofNat 64 s.src.bytes.length)
            { consume s.src.bytes.length s with srcErr := e }) := by
  rcases Nat.lt_or_ge s.src.bytes.length k with hk | hk
  · by_cases hc : s.cursor.toNat + s.src.bytes.length < 2 ^ 64
    · cases he : s.src.ending with
      | eos =>
        rw [srcRead_short hk he hc]
        exact ⟨_, le_refl _, hc, (List.take_of_length_le (by omega)).symm, rfl, rfl, fun _ => rfl⟩
      | err e => rw [srcRead_fails hk he hc]; exact ⟨e, rfl, hk, hc, rfl⟩
    · have : (s.src.bytes.take k).length = s.src.bytes.length := by simp; omega
      simp [srcRead, this, hc, -Nat.reducePow]
  · have hl : (s.src.bytes.take k).length = k := by simp [hk]
    by_cases hc : s.cursor.toNat + k < 2 ^ 64
    · rw [srcRead_whole hk hc]
      exact ⟨k, hk, hc, rfl, hl.symm, rfl, fun h => by omega⟩
    · simp [srcRead, hl, hc, -Nat.reducePow]

/-- Everything a drain can do. -/
theorem srcDrain_holds (s : State) :
    (srcDrain s).Holds
      (fun n t => n = s.src.bytes.length ∧ s.cursor.toNat + n < 2 ^ 64 ∧ t = consume n s ∧ s.src.ending = .eos)
      (fun t => ∃ e, s.src.ending = .err e ∧ s.cursor.toNat + s.src.bytes.length < 2 ^ 64
        ∧ t = raiseError .srcIo (s.cursor + BitVec.ofNat 64 s.src.bytes.length)
            { consume s.src.bytes.length s with srcErr := e }) := by
  by_cases hc : s.cursor.toNat + s.src.bytes.length < 2 ^ 64
  · cases he : s.src.ending with
    | eos => rw [srcDrain_clean he hc]; exact ⟨rfl, hc, rfl, rfl⟩
    | err e => rw [srcDrain_fails he hc]; exact ⟨e, rfl, hc, rfl⟩
  · simp [srcDrain, hc, -Nat.reducePow]

/-! ### Byte sink (R66) -/

/-- The state after the sink accepted `bs`. -/
def accepted (bs : List Byte) (s : State) : State :=
  { s with sink := s.sink ++ bs, outCount := s.outCount + BitVec.ofNat 64 bs.length
           sinkAnswers := s.sinkAnswers.drop bs.length }

@[simp] theorem accepted_nil (s : State) : accepted [] s = s := by simp [accepted]

theorem accepted_append (bs cs : List Byte) (s : State) : accepted cs (accepted bs s) = accepted (bs ++ cs) s := by
  simp [accepted, BitVec.ofNat_add, BitVec.add_assoc]

theorem sinkAnswerAt_accepted (bs : List Byte) (s : State) (k : Nat) :
    sinkAnswerAt (accepted bs s) k = sinkAnswerAt s (bs.length + k) := by
  simp [sinkAnswerAt, accepted]

theorem sinkAnswerAt_zero (s : State) : s.sinkAnswers.head?.getD s.sinkRest = sinkAnswerAt s 0 := by
  cases h : s.sinkAnswers <;> simp [sinkAnswerAt, h]

/-- R66: the sink accepts a byte. -/
theorem sinkByte_accepts {b : Byte} {s : State} (ha : sinkAnswerAt s 0 = .accept) (hc : s.outCount.toNat + 1 < 2 ^ 64) :
    sinkByte b s = .ok () (accepted [b] s) := by
  simp [sinkByte, sinkAnswerAt_zero, ha, hc, accepted, -Nat.reducePow]

/-- R66, R242: the sink rejects a byte. -/
theorem sinkByte_rejects {b : Byte} {s : State} {e : Word} (ha : sinkAnswerAt s 0 = .reject e) :
    sinkByte b s =
      .stopped (raiseError .sinkIo s.outCount { s with sinkAnswers := s.sinkAnswers.tail, sinkErr := e }) := by
  simp [sinkByte, sinkAnswerAt_zero, ha]

theorem accepted_outCount_toNat {bs : List Byte} {s : State} (hc : s.outCount.toNat + bs.length < 2 ^ 64) :
    (accepted bs s).outCount.toNat = s.outCount.toNat + bs.length := by
  simp only [accepted, BitVec.toNat_add, BitVec.toNat_ofNat]
  omega

/-- R66: the sink accepts every byte of `bs`. -/
theorem sinkWrite_accepts (bs : List Byte) (s : State) (ha : sinkAccepts s bs.length)
    (hc : s.outCount.toNat + bs.length < 2 ^ 64) : sinkWrite bs s = .ok () (accepted bs s) := by
  induction bs generalizing s with
  | nil => simp [sinkWrite]
  | cons b bs ih =>
    simp only [List.length_cons] at ha hc
    have h1 : (accepted [b] s).outCount.toNat = s.outCount.toNat + 1 := accepted_outCount_toNat (by simp; omega)
    rw [sinkWrite, sinkByte_accepts (ha 0 (by omega)) (by omega), Run.bind_ok, ih, accepted_append]
    · rfl
    · intro k hk
      rw [sinkAnswerAt_accepted]
      exact ha _ (by simp; omega)
    · omega

/-- R66, R242: the sink accepts `k` bytes of `bs` and rejects the next. -/
theorem sinkWrite_rejects (bs : List Byte) (s : State) {k : Nat} {e : Word} (hk : k < bs.length) (ha : sinkAccepts s k)
    (hr : sinkAnswerAt s k = .reject e) (hc : s.outCount.toNat + k < 2 ^ 64) :
    sinkWrite bs s = .stopped (raiseError .sinkIo (accepted (bs.take k) s).outCount
      { accepted (bs.take k) s with sinkAnswers := s.sinkAnswers.drop (k + 1), sinkErr := e }) := by
  induction bs generalizing s k with
  | nil => simp at hk
  | cons b bs ih =>
    cases k with
    | zero =>
      rw [sinkWrite, sinkByte_rejects hr]
      simp
    | succ k =>
      simp only [List.length_cons] at hk
      have h1 : (accepted [b] s).outCount.toNat = s.outCount.toNat + 1 := accepted_outCount_toNat (by simp; omega)
      rw [sinkWrite, sinkByte_accepts (ha 0 (by omega)) (by omega), Run.bind_ok, ih _ (k := k) (by omega)]
      · rw [accepted_append]
        simp [accepted, Nat.add_comm]
      · intro j hj
        rw [sinkAnswerAt_accepted]
        exact ha _ (by simp; omega)
      · rw [sinkAnswerAt_accepted, ← hr]
        simp [Nat.add_comm]
      · omega

/-- Everything a sink write can do: the sink accepted all of `bs`, or a part of it and then rejected a byte. -/
theorem sinkWrite_holds (bs : List Byte) (s : State) :
    (sinkWrite bs s).Holds
      (fun _ t => t = accepted bs s ∧ s.outCount.toNat + bs.length < 2 ^ 64)
      (fun t => ∃ k e, k < bs.length ∧ s.outCount.toNat + k < 2 ^ 64
        ∧ t = raiseError .sinkIo (accepted (bs.take k) s).outCount
          { accepted (bs.take k) s with sinkAnswers := s.sinkAnswers.drop (k + 1), sinkErr := e }) := by
  induction bs generalizing s with
  | nil => exact ⟨(accepted_nil s).symm, s.outCount.isLt⟩
  | cons b bs ih =>
    rw [sinkWrite]
    cases ha : sinkAnswerAt s 0 with
    | reject e =>
      rw [sinkByte_rejects ha]
      exact ⟨0, e, by simp, by simpa using s.outCount.isLt, by simp⟩
    | accept =>
      by_cases hc : s.outCount.toNat + 1 < 2 ^ 64
      · have h1 : (accepted [b] s).outCount.toNat = s.outCount.toNat + 1 := accepted_outCount_toNat (by simpa using hc)
        rw [sinkByte_accepts ha hc, Run.bind_ok]
        refine (ih (accepted [b] s)).mono ?_ ?_
        · rintro _ t ⟨rfl, h⟩
          refine ⟨by rw [accepted_append]; rfl, ?_⟩
          rw [List.length_cons]
          omega
        · rintro t ⟨k, e, hk, h, rfl⟩
          refine ⟨k + 1, e, by simpa using hk, by omega, ?_⟩
          rw [accepted_append]
          simp [accepted, Nat.add_comm]
      · simp [sinkByte, sinkAnswerAt_zero, ha, hc, -Nat.reducePow]

/-! ### Record-out port (R68) -/

/-- The state after a record was delivered. -/
def emitted (rec : Record) (s : State) : State :=
  { s with records := s.records ++ [rec], framesDone := s.framesDone + 1 }

theorem recEmit_eq {rec : Record} {s : State} (h : s.framesDone.toNat + 1 < 2 ^ 32) :
    recEmit rec s = .ok () (emitted rec s) := by
  simp [recEmit, h, emitted, -Nat.reducePow]

theorem recEmit_holds (rec : Record) (s : State) :
    (recEmit rec s).Holds (fun _ t => t = emitted rec s ∧ s.framesDone.toNat + 1 < 2 ^ 32) (fun _ => False) := by
  unfold recEmit
  split
  · exact ⟨rfl, by assumption⟩
  · trivial

end Sys2Proof.Machine
end

