-- ==== Sys2Proof/Laws/Frame.lean ====
section
/-! SUPPORT. The laws of the frame encoder's pixel loop and of DecodeAt, one per case (R150, R160). -/
namespace Sys2Proof.Machine

/-! ### The pixel loop of ENCF -/

/-- The state after the pixel port gave `n` words. -/
def pixelsTaken (n : Nat) (s : State) : State := { s with pix := s.pix.drop n, pixIndex := s.pixIndex + n }

@[simp] theorem pixelsTaken_zero (s : State) : pixelsTaken 0 s = s := rfl

theorem pixRead_cons {s : State} {w : Word} {ws : List Word} (h : s.pix = w :: ws) :
    pixRead s = some (w, pixelsTaken 1 s) := by
  simp [pixRead, h, pixelsTaken]

theorem pixRead_nil {s : State} (h : s.pix = []) : pixRead s = none := by simp [pixRead, h]

/-- One pixel: its word is read, then its bytes are written (R153). -/
theorem encodePixels_succ {fmt : PixelFormat} {n : Nat} {s : State} {w : Word} {ws : List Word} (h : s.pix = w :: ws) :
    encodePixels fmt (n + 1) s =
      (sinkWrite (pixbytes fmt w) (pixelsTaken 1 s)).bind fun _ s => encodePixels fmt n s := by
  simp [encodePixels, pixRead_cons h]

/-- No word is ready: the command waits (R67). -/
theorem encodePixels_waits {fmt : PixelFormat} {n : Nat} {s : State} (h : s.pix = []) :
    encodePixels fmt (n + 1) s = .stopped { s with running := some { fmt := fmt, remaining := n + 1 } } := by
  simp [encodePixels, pixRead_nil h]

/-- The words are ready and the sink accepts every byte (R154). -/
theorem encodePixels_accepts (fmt : PixelFormat) (n : Nat) (s : State) (hn : n ≤ s.pix.length)
    (ha : sinkAccepts s (n * fmt.bpp)) (hc : s.outCount.toNat + n * fmt.bpp < 2 ^ 64) :
    encodePixels fmt n s = .ok () (accepted ((s.pix.take n).flatMap (pixbytes fmt)) (pixelsTaken n s)) := by
  induction n generalizing s with
  | zero => simp [encodePixels]
  | succ n ih =>
    obtain ⟨w, ws, hp⟩ : ∃ w ws, s.pix = w :: ws := by
      cases h : s.pix with
      | nil => simp [h] at hn
      | cons w ws => exact ⟨w, ws, rfl⟩
    rw [Nat.succ_mul] at ha hc
    have hl : (pixbytes fmt w).length = fmt.bpp := pixbytes_length fmt w
    have hw : sinkWrite (pixbytes fmt w) (pixelsTaken 1 s) = .ok () (accepted (pixbytes fmt w) (pixelsTaken 1 s)) :=
      sinkWrite_accepts _ _ (fun k hk => ha k (by omega)) (by simp only [pixelsTaken]; omega)
    have ho : (accepted (pixbytes fmt w) (pixelsTaken 1 s)).outCount.toNat = s.outCount.toNat + fmt.bpp := by
      rw [accepted_outCount_toNat (by simp only [pixelsTaken]; omega), hl]
      rfl
    rw [encodePixels_succ hp, hw, Run.bind_ok, ih]
    · have ht : s.pix.take (n + 1) = w :: ws.take n := by simp [hp]
      rw [ht, List.flatMap_cons]
      simp [accepted, pixelsTaken, hp, Nat.add_comm, Nat.add_left_comm, BitVec.ofNat_add, BitVec.add_assoc]
    · simp [accepted, pixelsTaken, hp] at hn ⊢
      omega
    · intro k hk
      rw [sinkAnswerAt_accepted, hl]
      exact ha _ (by omega)
    · omega

/-- The sink accepts every byte but the words are too few (R67): the command waits, every ready word written. -/
theorem encodePixels_starves (fmt : PixelFormat) (n : Nat) (s : State) (hn : s.pix.length < n)
    (ha : sinkAccepts s (s.pix.length * fmt.bpp)) (hc : s.outCount.toNat + s.pix.length * fmt.bpp < 2 ^ 64) :
    encodePixels fmt n s =
      .stopped { accepted (s.pix.flatMap (pixbytes fmt)) (pixelsTaken s.pix.length s) with
                 running := some { fmt := fmt, remaining := n - s.pix.length } } := by
  induction n generalizing s with
  | zero => omega
  | succ n ih =>
    cases hp : s.pix with
    | nil =>
      rw [encodePixels_waits hp]
      simp [pixelsTaken]
    | cons w ws =>
      have hl : (pixbytes fmt w).length = fmt.bpp := pixbytes_length fmt w
      have hpix : (accepted (pixbytes fmt w) (pixelsTaken 1 s)).pix = ws := by simp [accepted, pixelsTaken, hp]
      rw [hp, List.length_cons, Nat.succ_mul] at ha hc
      rw [hp, List.length_cons] at hn
      have ho : (accepted (pixbytes fmt w) (pixelsTaken 1 s)).outCount.toNat = s.outCount.toNat + fmt.bpp := by
        rw [accepted_outCount_toNat (by simp only [pixelsTaken]; omega), hl]
        rfl
      rw [encodePixels_succ hp, sinkWrite_accepts _ (pixelsTaken 1 s) (fun k hk => ha k (by omega))
        (by simp only [pixelsTaken]; omega), Run.bind_ok, ih]
      · rw [hpix, List.flatMap_cons, List.length_cons]
        simp [accepted, pixelsTaken, hp, Nat.add_comm, BitVec.ofNat_add, BitVec.add_assoc]
        omega
      · rw [hpix]
        omega
      · intro k hk
        rw [hpix] at hk
        rw [sinkAnswerAt_accepted, hl]
        exact ha _ (by omega)
      · rw [hpix, ho]
        omega

/-- Everything the pixel loop can do: it takes `k` words and writes bytes of theirs, all of them where it ran through,
and where it stopped it waits for a word with all taken ones written, or the sink rejected a byte of the last. -/
theorem encodePixels_holds (fmt : PixelFormat) (n : Nat) (s : State) :
    (encodePixels fmt n s).Holds
      (fun _ t => n ≤ s.pix.length ∧ s.outCount.toNat + n * fmt.bpp < 2 ^ 64
        ∧ t = accepted ((s.pix.take n).flatMap (pixbytes fmt)) (pixelsTaken n s))
      (fun t =>
        (s.pix.length < n ∧ s.outCount.toNat + s.pix.length * fmt.bpp < 2 ^ 64
          ∧ t = { accepted (s.pix.flatMap (pixbytes fmt)) (pixelsTaken s.pix.length s) with
                  running := some { fmt := fmt, remaining := n - s.pix.length } })
        ∨ ∃ k j e u, k < n ∧ k < s.pix.length ∧ j < fmt.bpp ∧ s.outCount.toNat + (k * fmt.bpp + j) < 2 ^ 64
          ∧ u = accepted (((s.pix.take (k + 1)).flatMap (pixbytes fmt)).take (k * fmt.bpp + j)) (pixelsTaken (k + 1) s)
          ∧ t = raiseError .sinkIo u.outCount
              { u with sinkAnswers := s.sinkAnswers.drop (k * fmt.bpp + j + 1), sinkErr := e }) := by
  induction n generalizing s with
  | zero =>
    refine ⟨Nat.zero_le _, ?_, by simp⟩
    simpa using s.outCount.isLt
  | succ n ih =>
    cases hp : s.pix with
    | nil =>
      rw [encodePixels_waits hp]
      refine Or.inl ⟨by simp, by simpa using s.outCount.isLt, ?_⟩
      simp [accepted, pixelsTaken, hp]
    | cons w ws =>
      have hl : (pixbytes fmt w).length = fmt.bpp := pixbytes_length fmt w
      have hb := bpp_pos fmt
      rw [encodePixels_succ hp]
      refine (sinkWrite_holds (pixbytes fmt w) (pixelsTaken 1 s)).mono (fun _ _ h => h) (P := _) (Q := _) ?_
        |>.bind ?_
      · rintro t ⟨j, e, hj, hc, rfl⟩
        rw [hl] at hj
        refine Or.inr ⟨0, j, e, _, by omega, by simp, hj, by simpa [pixelsTaken] using hc, rfl, ?_⟩
        simp [accepted, pixelsTaken, hp]
      · rintro _ u ⟨rfl, hc⟩
        rw [hl] at hc
        have ho : (accepted (pixbytes fmt w) (pixelsTaken 1 s)).outCount.toNat = s.outCount.toNat + fmt.bpp := by
          rw [accepted_outCount_toNat (by rw [hl]; exact hc), hl]
          rfl
        have hpix : (accepted (pixbytes fmt w) (pixelsTaken 1 s)).pix = ws := by simp [accepted, pixelsTaken, hp]
        refine (ih (accepted (pixbytes fmt w) (pixelsTaken 1 s))).mono ?_ ?_
        · rintro _ t ⟨hn, hcn, rfl⟩
          rw [hpix] at hn
          refine ⟨by simpa using hn, by rw [Nat.succ_mul]; omega, ?_⟩
          rw [hpix, List.take_succ_cons, List.flatMap_cons]
          simp [accepted, pixelsTaken, hp, Nat.add_comm, Nat.add_left_comm, BitVec.ofNat_add, BitVec.add_assoc]
        · rintro t (⟨hn, hcn, rfl⟩ | ⟨k, j, e, u, hk, hkp, hj, hck, rfl, rfl⟩)
          · rw [hpix] at hn hcn
            refine Or.inl ⟨by simpa using hn, by rw [List.length_cons, Nat.succ_mul]; omega, ?_⟩
            rw [hpix, List.flatMap_cons, List.length_cons]
            simp [accepted, pixelsTaken, hp, Nat.add_comm, BitVec.ofNat_add, BitVec.add_assoc]
            omega
          · rw [hpix] at hkp
            refine Or.inr ⟨k + 1, j, e, _, by omega, by simpa using hkp, hj, by rw [Nat.succ_mul]; omega, rfl, ?_⟩
            have e1 : (k + 1) * fmt.bpp + j = fmt.bpp + (k * fmt.bpp + j) := by rw [Nat.succ_mul]; omega
            have e2 : ((w :: ws).take (k + 1 + 1)).flatMap (pixbytes fmt)
                = pixbytes fmt w ++ (ws.take (k + 1)).flatMap (pixbytes fmt) := by
              rw [List.take_succ_cons, List.flatMap_cons]
            have e3 : (pixbytes fmt w ++ (ws.take (k + 1)).flatMap (pixbytes fmt)).take (fmt.bpp + (k * fmt.bpp + j))
                = pixbytes fmt w ++ ((ws.take (k + 1)).flatMap (pixbytes fmt)).take (k * fmt.bpp + j) := by
              rw [← hl, List.take_length_add_append]
            rw [hpix, e1, e2, e3]
            simp [accepted, pixelsTaken, hp, hl, Nat.add_comm, Nat.add_left_comm, BitVec.ofNat_add, BitVec.add_assoc]

/-! ### DecodeAt (R160) -/

/-- The state after DecodeAt read a header: 24 bytes are consumed and the header is latched. -/
def headerRead (hb : List Byte) (s : State) : State :=
  { setBlockState .valMagic (consume 24 (setBlockState .rdHdr s)) with hdr := unpackHeader hb }

/-- DecodeAt after the 24 header bytes are there (R160, R163). -/
theorem decodeAt_header {s : State} {hb rest : List Byte} (hs : s.src.bytes = hb ++ rest) (hl : hb.length = 24)
    (hc : s.cursor.toNat + 24 < 2 ^ 64) :
    decodeAt s =
      if (unpackHeader hb).magic ≠ frameMagic then .stopped (raiseError .invalidMagic s.cursor (headerRead hb s))
      else
        (srcRead (payloadLength (unpackHeader hb)) (setBlockState .rdPay (headerRead hb s))).bind fun payload t =>
        if payload.length < payloadLength (unpackHeader hb) then .stopped (raiseError .truncPayload s.cursor t)
        else .ok (.frame s.cursor (unpackHeader hb) payload) t := by
  have hk : headerLength ≤ (setBlockState .rdHdr s).src.bytes.length := by simp [hs, hl, headerLength]
  have ht : (setBlockState .rdHdr s).src.bytes.take headerLength = hb := by
    rw [setBlockState_src, hs, show headerLength = hb.length from hl.symm, List.take_left]
  rw [decodeAt, srcRead_whole hk hc, Run.bind_ok, ht, if_neg (by simp [hl, headerLength])]
  rfl

/-- The state after DecodeAt read a whole frame. -/
def frameRead (hb : List Byte) (s : State) : State :=
  consume (payloadLength (unpackHeader hb)) (setBlockState .rdPay (headerRead hb s))

/-- DecodeAt at a whole frame (R160). -/
theorem decodeAt_frame {s : State} {hb payload rest : List Byte} (hs : s.src.bytes = hb ++ (payload ++ rest))
    (hl : hb.length = 24) (hm : (unpackHeader hb).magic = frameMagic)
    (hp : payload.length = payloadLength (unpackHeader hb)) (hc : s.cursor.toNat + (24 + payload.length) < 2 ^ 64) :
    decodeAt s = .ok (.frame s.cursor (unpackHeader hb) payload) (frameRead hb s) := by
  have hb' : (setBlockState .rdPay (headerRead hb s)).src.bytes = payload ++ rest := by
    simp [headerRead, consume, hs, ← hl]
  have hcur : (setBlockState .rdPay (headerRead hb s)).cursor.toNat = s.cursor.toNat + 24 := by
    simp only [headerRead, consume, setBlockState, BitVec.toNat_add, BitVec.toNat_ofNat]
    omega
  rw [decodeAt_header hs hl (by omega), if_neg (by simpa using hm), ← hp,
    srcRead_whole (by rw [hb']; simp) (by omega), Run.bind_ok, hb', List.take_left, if_neg (Nat.lt_irrefl _), frameRead, hp]

/-- DecodeAt where the header is short and the source ends cleanly (R162). -/
theorem decodeAt_short {s : State} (hl : s.src.bytes.length < 24) (he : s.src.ending = .eos)
    (hc : s.cursor.toNat + s.src.bytes.length < 2 ^ 64) :
    decodeAt s = .ok (.short s.cursor s.src.bytes.length) (consume s.src.bytes.length (setBlockState .rdHdr s)) := by
  rw [decodeAt, srcRead_short (k := headerLength) (s := setBlockState .rdHdr s) hl he hc, Run.bind_ok]
  exact if_pos hl

/-- DecodeAt at a header with another magic (R163). -/
theorem decodeAt_badMagic {s : State} {hb rest : List Byte} (hs : s.src.bytes = hb ++ rest) (hl : hb.length = 24)
    (hm : (unpackHeader hb).magic ≠ frameMagic) (hc : s.cursor.toNat + 24 < 2 ^ 64) :
    decodeAt s = .stopped (raiseError .invalidMagic s.cursor (headerRead hb s)) := by
  rw [decodeAt_header hs hl hc, if_pos hm]

/-- DecodeAt where the payload is short and the source ends cleanly (R164). -/
theorem decodeAt_truncPayload {s : State} {hb got : List Byte} (hs : s.src.bytes = hb ++ got) (hl : hb.length = 24)
    (hm : (unpackHeader hb).magic = frameMagic) (hp : got.length < payloadLength (unpackHeader hb))
    (he : s.src.ending = .eos) (hc : s.cursor.toNat + (24 + got.length) < 2 ^ 64) :
    decodeAt s = .stopped (raiseError .truncPayload s.cursor
      (consume got.length (setBlockState .rdPay (headerRead hb s)))) := by
  have hb' : (setBlockState .rdPay (headerRead hb s)).src.bytes = got := by
    simp [headerRead, consume, hs, ← hl]
  have hcur : (setBlockState .rdPay (headerRead hb s)).cursor.toNat = s.cursor.toNat + 24 := by
    simp only [headerRead, consume, setBlockState, BitVec.toNat_add, BitVec.toNat_ofNat]
    omega
  rw [decodeAt_header hs hl (by omega), if_neg (by simpa using hm),
    srcRead_short (s := setBlockState .rdPay (headerRead hb s)) (by rw [hb']; exact hp) he (by rw [hb']; omega),
    Run.bind_ok, hb', if_pos hp]

/-- DecodeAt where the source fails inside the header (R64, R241). -/
theorem decodeAt_headerFails {s : State} {e : Word} (hl : s.src.bytes.length < 24) (he : s.src.ending = .err e)
    (hc : s.cursor.toNat + s.src.bytes.length < 2 ^ 64) :
    decodeAt s = .stopped (raiseError .srcIo (s.cursor + BitVec.ofNat 64 s.src.bytes.length)
      { consume s.src.bytes.length (setBlockState .rdHdr s) with srcErr := e }) := by
  rw [decodeAt, srcRead_fails (k := headerLength) (s := setBlockState .rdHdr s) hl he hc]
  rfl

/-- DecodeAt where the source fails inside the payload (R64, R241). -/
theorem decodeAt_payloadFails {s : State} {hb got : List Byte} {e : Word} (hs : s.src.bytes = hb ++ got)
    (hl : hb.length = 24) (hm : (unpackHeader hb).magic = frameMagic) (hp : got.length < payloadLength (unpackHeader hb))
    (he : s.src.ending = .err e) (hc : s.cursor.toNat + (24 + got.length) < 2 ^ 64) :
    decodeAt s = .stopped (raiseError .srcIo (s.cursor + BitVec.ofNat 64 (24 + got.length))
      { consume got.length (setBlockState .rdPay (headerRead hb s)) with srcErr := e }) := by
  have hb' : (setBlockState .rdPay (headerRead hb s)).src.bytes = got := by
    simp [headerRead, consume, hs, ← hl]
  have hcur : (setBlockState .rdPay (headerRead hb s)).cursor.toNat = s.cursor.toNat + 24 := by
    simp only [headerRead, consume, setBlockState, BitVec.toNat_add, BitVec.toNat_ofNat]
    omega
  rw [decodeAt_header hs hl (by omega), if_neg (by simpa using hm),
    srcRead_fails (s := setBlockState .rdPay (headerRead hb s)) (by rw [hb']; exact hp) he (by rw [hb']; omega),
    Run.bind_stopped, hb', BitVec.ofNat_add, ← BitVec.add_assoc]
  rfl

/-- Everything DecodeAt can do: it consumes bytes from the front of the source and changes, beside that, only STATE and
the latched header, and where it stopped it has raised one of its three errors. -/
theorem decodeAt_holds (s : State) :
    (decodeAt s).Holds
      (fun r t =>
        (∃ h payload n, r = .frame s.cursor h payload ∧ h.magic = frameMagic ∧ payload.length = payloadLength h
            ∧ n = 24 + payload.length ∧ n ≤ s.src.bytes.length ∧ s.cursor.toNat + n < 2 ^ 64
            ∧ t = { consume n s with status := { s.status with state := .rdPay }, hdr := h })
        ∨ (∃ n, r = .short s.cursor n ∧ n < 24 ∧ n = s.src.bytes.length ∧ s.src.ending = .eos
            ∧ s.cursor.toNat + n < 2 ^ 64 ∧ t = consume n (setBlockState .rdHdr s)))
      (fun t => ∃ c off h e b n, (c = .srcIo ∨ c = .invalidMagic ∨ c = .truncPayload) ∧ (c ≠ .srcIo → e = s.srcErr)
        ∧ n ≤ s.src.bytes.length ∧ s.cursor.toNat + n < 2 ^ 64
        ∧ t = raiseError c off { consume n s with status := { s.status with state := b }, hdr := h, srcErr := e }) := by
  have hmod : ∀ n, s.cursor.toNat + n < 2 ^ 64 → (s.cursor + BitVec.ofNat 64 n).toNat = s.cursor.toNat + n := by
    intro n hn
    simp only [BitVec.toNat_add, BitVec.toNat_ofNat]
    omega
  rw [decodeAt]
  refine (srcRead_holds headerLength (setBlockState .rdHdr s)).mono (fun _ _ h => h) (Q := _) ?_ |>.bind ?_
  · rintro t ⟨e, -, -, hc, rfl⟩
    exact ⟨.srcIo, _, s.hdr, e, .rdHdr, s.src.bytes.length, Or.inl rfl, fun h => absurd rfl h, le_refl _, hc, rfl⟩
  · rintro hb t ⟨n, hn, hc, rfl, hnl, rfl, heos⟩
    by_cases hlt : (List.take headerLength (setBlockState .rdHdr s).src.bytes).length < headerLength
    · rw [if_pos hlt]
      have hlen : s.src.bytes.length < 24 := by simpa [headerLength] using hlt
      have hn' : n = s.src.bytes.length := by
        rw [hnl]
        simp [headerLength]
        omega
      refine Or.inr ⟨n, by rw [hnl], by omega, hn', heos hlt, hc, rfl⟩
    · rw [if_neg hlt]
      have hlen : 24 ≤ s.src.bytes.length := by simpa [headerLength] using hlt
      have hn' : n = 24 := by
        rw [hnl]
        simp [headerLength]
        omega
      subst hn'
      simp only []
      split
      · rename_i hm
        refine ⟨.invalidMagic, _, _, s.srcErr, .valMagic, 24, Or.inr (Or.inl rfl), fun _ => rfl, hlen, hc, rfl⟩
      · rename_i hm
        have hm' := not_not.mp hm
        refine (srcRead_holds _ _).mono (fun _ _ h => h) (Q := _) ?_ |>.bind ?_
        · rintro t ⟨e, -, -, hc2, rfl⟩
          have hdl : (s.src.bytes.drop 24).length = s.src.bytes.length - 24 := by simp
          refine ⟨.srcIo, s.cursor + BitVec.ofNat 64 s.src.bytes.length, unpackHeader (s.src.bytes.take 24), e, .rdPay,
            s.src.bytes.length, Or.inl rfl, fun h => absurd rfl h, le_refl _, ?_, ?_⟩
          · have hc3 : (s.cursor + BitVec.ofNat 64 24).toNat + (s.src.bytes.drop 24).length < 2 ^ 64 := hc2
            rw [hmod 24 hc, hdl] at hc3
            omega
          · have e1 : s.cursor + BitVec.ofNat 64 24 + BitVec.ofNat 64 (s.src.bytes.length - 24)
                = s.cursor + BitVec.ofNat 64 s.src.bytes.length := by
              rw [BitVec.add_assoc, ← BitVec.ofNat_add, show 24 + (s.src.bytes.length - 24) = s.src.bytes.length by omega]
            simp [consume, setBlockState, raiseError, e1, Status.failed, headerLength]
            omega
        · rintro pl t ⟨m, hm1, hc2, rfl, hml, rfl, -⟩
          have hm2 : m ≤ s.src.bytes.length - 24 := by simpa [consume] using hm1
          have hc3 : (s.cursor + BitVec.ofNat 64 24).toNat + m < 2 ^ 64 := hc2
          rw [hmod 24 hc] at hc3
          have e1 : s.cursor + BitVec.ofNat 64 24 + BitVec.ofNat 64 m = s.cursor + BitVec.ofNat 64 (24 + m) := by
            rw [BitVec.add_assoc, ← BitVec.ofNat_add]
          split
          · refine ⟨.truncPayload, s.cursor, unpackHeader (s.src.bytes.take 24), s.srcErr, .rdPay, 24 + m, Or.inr (Or.inr rfl),
              fun _ => rfl, by omega, by omega, ?_⟩
            simp only [consume, setBlockState, raiseError, Status.failed, List.drop_drop, e1]
            rfl
          · rename_i hge
            refine Or.inl ⟨_, _, 24 + m, rfl, hm', ?_, by rw [hml], by omega, by omega, ?_⟩
            · have := hge
              simp only [List.length_take] at this ⊢
              omega
            · simp only [consume, setBlockState, List.drop_drop, e1]

end Sys2Proof.Machine
end

