-- ==== Sys2Proof/Laws/Container.lean ====
section
/-! SUPPORT. The laws of the container decode (R184, R187, R188): whole frames one after another, the drain, and where a
command stands after the frames it has read. Where a law names frames by their headers, it takes as a premise that
unmarshalling inverts marshalling. -/
namespace Sys2Proof.Machine

/-- Marshalling loses nothing: the premise of the laws over whole frames. -/
abbrev UnpackPacks : Prop := ∀ h : Header, unpackHeader (packHeader h) = h

theorem add_ofNat_toNat {c : Count} {n : Nat} (h : c.toNat + n < 2 ^ 64) :
    (c + BitVec.ofNat 64 n).toNat = c.toNat + n := by
  simp only [BitVec.toNat_add, BitVec.toNat_ofNat]
  omega

/-- The state after the frames `fs` of section `sectionIdx` were decoded. -/
def framesRead (sectionIdx : Word) (fs : List FrameData) (s : State) : State :=
  { consume (containerBytes fs).length s with
    records := s.records ++ recordsOf sectionIdx s.framesDone.toNat s.cursor.toNat fs
    framesDone := s.framesDone + BitVec.ofNat 32 fs.length
    hdr := lastHeader s.hdr fs
    status := if fs.isEmpty then s.status else { s.status with state := .rdPay } }

@[simp] theorem framesRead_nil (i : Word) (s : State) : framesRead i [] s = s := by
  simp [framesRead, consume, recordsOf, lastHeader]

theorem lastHeader_cons (h : Header) (f : FrameData) (fs : List FrameData) :
    lastHeader h (f :: fs) = lastHeader f.1 fs := by
  cases fs with
  | nil => rfl
  | cons g gs => simp [lastHeader, List.getLast?_cons]

theorem containerBytes_cons_length (f : FrameData) (fs : List FrameData) :
    (containerBytes (f :: fs)).length = 24 + f.2.length + (containerBytes fs).length := by
  simp
  omega

/-- One whole frame of a container: what its record and the state after it are. -/
theorem framesRead_cons (i : Word) (f : FrameData) (fs : List FrameData) (s : State)
    (hc : s.cursor.toNat + (24 + f.2.length) < 2 ^ 64) (hd : s.framesDone.toNat + 1 < 2 ^ 32) :
    framesRead i (f :: fs) s = framesRead i fs (framesRead i [f] s) := by
  have h1 : (s.cursor + BitVec.ofNat 64 (24 + f.2.length)).toNat = s.cursor.toNat + (24 + f.2.length) :=
    add_ofNat_toNat hc
  have h2 : (s.framesDone + 1).toNat = s.framesDone.toNat + 1 := by
    simp only [BitVec.toNat_add]
    change (s.framesDone.toNat + 1) % 2 ^ 32 = _
    omega
  have h3 : BitVec.ofNat 32 (fs.length + 1) = 1#32 + BitVec.ofNat 32 fs.length := by
    rw [Nat.add_comm, BitVec.ofNat_add]
  have h4 : BitVec.ofNat 64 (24 + f.2.length + (containerBytes fs).length)
      = BitVec.ofNat 64 (24 + f.2.length) + BitVec.ofNat 64 (containerBytes fs).length := BitVec.ofNat_add _ _
  simp only [framesRead, consume, lastHeader_cons, recordsOf, List.length_cons, List.length_nil,
    containerBytes_cons_length, containerBytes_nil, Nat.add_zero, Nat.zero_add]
  simp only [h1, h3, h4, List.drop_drop, frameBytes_length, List.append_assoc, List.singleton_append,
    ← BitVec.add_assoc, List.isEmpty_cons, Bool.false_eq_true, if_false]
  have h5 : BitVec.ofNat 32 1 = (1 : Word) := rfl
  simp only [h5, h2, lastHeader, List.getLast?_nil, Option.map_none, Option.getD_none]
  congr 1
  split <;> rfl

/-- DecodeAt at a whole frame that a container holds, in the frame's own terms (R160). -/
theorem decodeAt_frameData (hu : UnpackPacks) {f : FrameData} {rest : List Byte} {s : State} (hf : f.ok)
    (hs : s.src.bytes = packHeader f.1 ++ (f.2 ++ rest)) (hc : s.cursor.toNat + (24 + f.2.length) < 2 ^ 64) :
    decodeAt s = .ok (.frame s.cursor f.1 f.2)
      { consume (24 + f.2.length) s with status := { s.status with state := .rdPay }, hdr := f.1 } := by
  rw [decodeAt_frame hs rfl ((congrArg Header.magic (hu f.1)).trans hf.1) (by rw [hu]; exact hf.2) hc, hu]
  simp only [frameRead, headerRead, hu, ← hf.2, consume, setBlockState, List.drop_drop, BitVec.ofNat_add,
    BitVec.add_assoc]

/-- A whole frame where the loop of `DecodeCounted` or of DECS stands. -/
theorem decodeAt_bound (hu : UnpackPacks) {f : FrameData} {rest : List Byte} {s : State} (i : Word) (hf : f.ok)
    (hs : s.src.bytes = packHeader f.1 ++ (f.2 ++ rest)) (hc : s.cursor.toNat + (24 + f.2.length) < 2 ^ 64)
    (hd : s.framesDone.toNat + 1 < 2 ^ 32) {β : Type} (k : Unit → State → Run β) (g : Count → Nat → State → Run β) :
    ((decodeAt (setBlockState .cBound s)).bind fun r t =>
      match r with
      | .short base n => g base n t
      | .frame base h payload => (recEmit (containerRecord i base h payload t) t).bind k)
      = k () (framesRead i [f] s) := by
  rw [decodeAt_frameData hu (s := setBlockState .cBound s) hf hs hc, Run.bind_ok]
  simp only [recEmit_eq (s := { consume (24 + f.2.length) (setBlockState .cBound s) with
    status := { (setBlockState .cBound s).status with state := .rdPay }, hdr := f.1 }) hd, Run.bind_ok]
  congr 1
  simp [emitted, framesRead, containerRecord, consume, recordsOf, lastHeader, Nat.add_comm]

/-- The inner loop of `DecodeCounted` over whole frames (R184): it goes on from the state after them. -/
theorem decodeFrames_whole (hu : UnpackPacks) (i : Word) (fs : List FrameData) (n : Nat) (rest : List Byte) (s : State)
    (hf : ∀ f ∈ fs, f.ok) (hs : s.src.bytes = containerBytes fs ++ rest)
    (hc : s.cursor.toNat + (containerBytes fs).length < 2 ^ 64) (hd : s.framesDone.toNat + fs.length < 2 ^ 32) :
    decodeFrames i (fs.length + n) s = decodeFrames i n (framesRead i fs s) := by
  induction fs generalizing s with
  | nil => simp
  | cons f fs ih =>
    rw [containerBytes_cons_length] at hc
    rw [List.length_cons] at hd
    rw [containerBytes_cons, List.append_assoc, List.append_assoc] at hs
    rw [framesRead_cons _ _ _ _ (by omega) (by omega), List.length_cons, Nat.add_right_comm, decodeFrames,
      ← ih (framesRead i [f] s)]
    · refine Eq.trans ?_ (decodeAt_bound hu i (hf f (List.mem_cons_self)) hs (by omega) (by omega)
        (fun _ t => decodeFrames i (fs.length + n) t)
        (fun base m t => match m with
          | 0 => .stopped (raiseError .frameCountMismatch base t)
          | k + 1 => .stopped (raiseTruncHdr base (k + 1) t)))
      congr 1
      funext r t
      rcases r with _ | ⟨base, _ | m⟩ <;> rfl
    · exact fun g hg => hf g (List.mem_cons_of_mem _ hg)
    · have : (24 + f.2.length) = (packHeader f.1 ++ f.2).length := by simp
      simp only [framesRead, consume, containerBytes_cons_length, containerBytes_nil, List.length_nil, Nat.add_zero, hs]
      rw [this, ← List.append_assoc, List.drop_left]
    · have : (framesRead i [f] s).cursor.toNat = s.cursor.toNat + (24 + f.2.length) := by
        simp only [framesRead, consume, containerBytes_cons_length, containerBytes_nil, List.length_nil, Nat.add_zero]
        exact add_ofNat_toNat (by omega)
      omega
    · have : (framesRead i [f] s).framesDone.toNat = s.framesDone.toNat + 1 := by
        simp only [framesRead, BitVec.toNat_add, List.length_cons, List.length_nil]
        change (s.framesDone.toNat + 1) % 2 ^ 32 = _
        omega
      omega

/-- DECS over whole frames (R187): it goes on from the state after them. -/
theorem decodeScan_whole (hu : UnpackPacks) (fs : List FrameData) (fuel : Nat) (rest : List Byte) (s : State)
    (hf : ∀ f ∈ fs, f.ok) (hs : s.src.bytes = containerBytes fs ++ rest)
    (hc : s.cursor.toNat + (containerBytes fs).length < 2 ^ 64) (hd : s.framesDone.toNat + fs.length < 2 ^ 32) :
    decodeScan (fs.length + fuel) s = decodeScan fuel (framesRead 0 fs s) := by
  induction fs generalizing s with
  | nil => simp
  | cons f fs ih =>
    rw [containerBytes_cons_length] at hc
    rw [List.length_cons] at hd
    rw [containerBytes_cons, List.append_assoc, List.append_assoc] at hs
    rw [framesRead_cons _ _ _ _ (by omega) (by omega), List.length_cons, Nat.add_right_comm, decodeScan,
      ← ih (framesRead 0 [f] s)]
    · refine Eq.trans ?_ (decodeAt_bound hu 0 (hf f (List.mem_cons_self)) hs (by omega) (by omega)
        (fun _ t => decodeScan (fs.length + fuel) t)
        (fun base n t =>
          if t.framesDone = 0 ∧ n = 0 then .stopped (raiseError .frameCountMismatch base t)
          else if t.framesDone = 0 then .stopped (raiseTruncHdr base n t)
          else if n = 0 then .ok () t
          else .ok () (warnTrailing base n t)))
      congr 1
      funext r t
      cases r <;> rfl
    · exact fun g hg => hf g (List.mem_cons_of_mem _ hg)
    · have : (24 + f.2.length) = (packHeader f.1 ++ f.2).length := by simp
      simp only [framesRead, consume, containerBytes_cons_length, containerBytes_nil, List.length_nil, Nat.add_zero, hs]
      rw [this, ← List.append_assoc, List.drop_left]
    · have : (framesRead 0 [f] s).cursor.toNat = s.cursor.toNat + (24 + f.2.length) := by
        simp only [framesRead, consume, containerBytes_cons_length, containerBytes_nil, List.length_nil, Nat.add_zero]
        exact add_ofNat_toNat (by omega)
      omega
    · have : (framesRead 0 [f] s).framesDone.toNat = s.framesDone.toNat + 1 := by
        simp only [framesRead, BitVec.toNat_add, List.length_cons, List.length_nil]
        change (s.framesDone.toNat + 1) % 2 ^ 32 = _
        omega
      omega

theorem lastHeader_append (h : Header) (fs gs : List FrameData) :
    lastHeader h (fs ++ gs) = lastHeader (lastHeader h fs) gs := by
  cases gs using List.reverseRecOn with
  | nil => simp [lastHeader]
  | append_singleton gs g => simp [lastHeader, ← List.append_assoc]

/-- The state after the sections `secs`, numbered from `i`, were decoded; `b` is STATE. -/
def sectionsRead (i : Nat) (secs : List (List FrameData)) (b : BlockState) (s : State) : State :=
  { consume (containerBytes secs.flatten).length s with
    records := s.records ++ recordsOfSections i s.framesDone.toNat s.cursor.toNat secs
    framesDone := s.framesDone + BitVec.ofNat 32 secs.flatten.length
    hdr := lastHeader s.hdr secs.flatten
    curSection := if secs.isEmpty then s.curSection else BitVec.ofNat 32 (i + secs.length - 1)
    status := { s.status with state := b } }

/-- The outer loop of `DecodeCounted` over sections of whole frames (R184, R186). -/
theorem decodeSections_whole (hu : UnpackPacks) (secs : List (List FrameData)) (i : Nat) (cs : List Word)
    (rest : List Byte) (s : State) (hf : ∀ fs ∈ secs, ∀ f ∈ fs, FrameData.ok f)
    (hcs : cs.map BitVec.toNat = secs.map List.length) (hs : s.src.bytes = containerBytes secs.flatten ++ rest)
    (hc : s.cursor.toNat + (containerBytes secs.flatten).length < 2 ^ 64)
    (hd : s.framesDone.toNat + secs.flatten.length < 2 ^ 32) :
    ∃ b, decodeSections i cs s = .ok () (sectionsRead i secs b s) := by
  induction secs generalizing i cs s with
  | nil =>
    obtain rfl : cs = [] := by simpa using hcs
    exact ⟨s.status.state, by simp [decodeSections, sectionsRead, consume, recordsOfSections, lastHeader]⟩
  | cons fs secs ih =>
    obtain ⟨c, cs, rfl⟩ : ∃ c cs', cs = c :: cs' := by
      cases cs with
      | nil => simp at hcs
      | cons c cs => exact ⟨c, cs, rfl⟩
    simp only [List.map_cons, List.cons.injEq] at hcs
    obtain ⟨hn, hcs⟩ := hcs
    rw [List.flatten_cons, containerBytes_append] at hs hc
    rw [List.flatten_cons, List.length_append] at hd
    rw [List.length_append] at hc
    rw [List.append_assoc] at hs
    have e := decodeFrames_whole hu (BitVec.ofNat 32 i) fs 0 _ { s with curSection := BitVec.ofNat 32 i }
      (hf fs List.mem_cons_self) hs (by change s.cursor.toNat + _ < _; omega)
      (by change s.framesDone.toNat + _ < _; omega)
    rw [Nat.add_zero, ← hn, decodeFrames] at e
    rw [decodeSections, e, Run.bind_ok]
    have h1 : (s.cursor + BitVec.ofNat 64 (containerBytes fs).length).toNat
        = s.cursor.toNat + (containerBytes fs).length := add_ofNat_toNat (by omega)
    have h2 : (s.framesDone + BitVec.ofNat 32 fs.length).toNat = s.framesDone.toNat + fs.length := by
      simp only [BitVec.toNat_add, BitVec.toNat_ofNat]
      omega
    obtain ⟨b, hb⟩ := ih (i + 1) cs (framesRead (BitVec.ofNat 32 i) fs { s with curSection := BitVec.ofNat 32 i })
      (fun gs hg => hf gs (List.mem_cons_of_mem _ hg)) hcs (by
        simp only [framesRead, consume, hs]
        rw [List.drop_left])
      (by simp only [framesRead, consume, h1]; omega)
      (by simp only [framesRead, h2]; omega)
    refine ⟨b, hb.trans ?_⟩
    congr 1
    have h3 : i + 1 + secs.length - 1 = i + (secs.length + 1) - 1 := by omega
    simp only [sectionsRead, framesRead, consume, h1, h2, recordsOfSections, List.flatten_cons, containerBytes_append,
      List.length_append, List.drop_drop, BitVec.ofNat_add, BitVec.add_assoc, lastHeader_append, List.append_assoc,
      List.length_cons, h3, List.isEmpty_cons, Bool.false_eq_true, if_false]
    congr 1
    · split <;> rfl
    · cases secs with
      | nil => simp
      | cons => simp

/-- R188: the drain of a source that ends cleanly. -/
theorem drainTrailing_clean {s : State} (he : s.src.ending = .eos)
    (hc : s.cursor.toNat + s.src.bytes.length < 2 ^ 64) :
    drainTrailing s =
      .ok () (if s.src.bytes.length > 0
        then warnTrailing s.cursor s.src.bytes.length (consume s.src.bytes.length (setBlockState .cTrail s))
        else { consume s.src.bytes.length (setBlockState .cTrail s) with trailCount := 0 }) := by
  rw [drainTrailing, srcDrain_clean (s := setBlockState .cTrail s) he hc, Run.bind_ok]
  by_cases h : s.src.bytes.length > 0
  · rw [if_pos h]
    exact if_pos h
  · rw [if_neg h]
    exact if_neg h

/-- R188, R241: the drain of a source that fails. -/
theorem drainTrailing_fails {s : State} {e : Word} (he : s.src.ending = .err e)
    (hc : s.cursor.toNat + s.src.bytes.length < 2 ^ 64) :
    drainTrailing s = .stopped (raiseError .srcIo (s.cursor + BitVec.ofNat 64 s.src.bytes.length)
      { consume s.src.bytes.length (setBlockState .cTrail s) with srcErr := e }) := by
  rw [drainTrailing, srcDrain_fails (s := setBlockState .cTrail s) he hc, Run.bind_stopped]
  rfl

/-! ### Where a container decode stands after whole frames -/

/-- The sections of a list one after another, in two parts. -/
theorem decodeSections_append (i : Nat) (cs ds : List Word) (s : State) :
    decodeSections i (cs ++ ds) s = (decodeSections i cs s).bind fun _ t => decodeSections (i + cs.length) ds t := by
  induction cs generalizing i s with
  | nil => rfl
  | cons c cs ih =>
    rw [List.cons_append, decodeSections, decodeSections, Run.bind_assoc]
    congr 1
    funext _ t
    rw [ih, List.length_cons, Nat.add_right_comm, Nat.add_assoc]

theorem sectionsRead_cursor_toNat {i : Nat} {secs : List (List FrameData)} {b : BlockState} {s : State}
    (hc : s.cursor.toNat + (containerBytes secs.flatten).length < 2 ^ 64) :
    (sectionsRead i secs b s).cursor.toNat = s.cursor.toNat + (containerBytes secs.flatten).length :=
  add_ofNat_toNat hc

theorem sectionsRead_bytes {i : Nat} {secs : List (List FrameData)} {b : BlockState} {s : State} {rest : List Byte}
    (hs : s.src.bytes = containerBytes secs.flatten ++ rest) : (sectionsRead i secs b s).src.bytes = rest := by
  simp [sectionsRead, consume, hs]

theorem containerRecords_append (i index off : Nat) (secs : List (List FrameData)) (fs : List FrameData) :
    recordsOfSections i index off (secs ++ [fs])
      = recordsOfSections i index off secs ++ recordsOf (BitVec.ofNat 32 (i + secs.length))
          (index + secs.flatten.length) (off + (containerBytes secs.flatten).length) fs := by
  induction secs generalizing i index off with
  | nil => simp [recordsOfSections]
  | cons gs secs ih =>
    rw [List.cons_append, recordsOfSections, recordsOfSections, ih, List.flatten_cons, containerBytes_append]
    simp only [List.append_assoc, List.length_append, List.length_cons, Nat.add_assoc, Nat.add_comm 1]

/-- `DecodeCounted` with a frame still to read of the section it is in (R184, R186): it stands at the header boundary
after the frames it has read, and a short header there is an error. -/
theorem decodeCounted_boundary (hu : UnpackPacks) {counts : List Word} {whole : List (List FrameData)}
    {fs : List FrameData} {n : Nat} {later : List Nat} {rest : List Byte} {s : State}
    (hcs : counts.map BitVec.toNat = whole.map List.length ++ n :: later) (hn : fs.length < n)
    (hf : ∀ f ∈ (whole ++ [fs]).flatten, FrameData.ok f)
    (hs : s.src.bytes = containerBytes (whole ++ [fs]).flatten ++ rest)
    (hc : s.cursor.toNat + (containerBytes (whole ++ [fs]).flatten).length < 2 ^ 64)
    (hd : s.framesDone.toNat + (whole ++ [fs]).flatten.length < 2 ^ 32) :
    ∃ b k, decodeCounted counts s
        = (decodeAt (setBlockState .cBound (sectionsRead 0 (whole ++ [fs]) b s))).bind k
      ∧ ∀ base m t, k (.short base m) t
          = .stopped (if m = 0 then raiseError .frameCountMismatch base t else raiseTruncHdr base m t) := by
  obtain ⟨cs, c, ds, rfl, h1, rfl⟩ : ∃ cs c ds, counts = cs ++ c :: ds ∧ cs.map BitVec.toNat = whole.map List.length
      ∧ c.toNat = n := by
    obtain ⟨cs, ds', rfl, h1, h2⟩ := List.map_eq_append_iff.mp hcs
    obtain ⟨c, ds, rfl, h3, -⟩ := List.map_eq_cons_iff.mp h2
    exact ⟨cs, c, ds, rfl, h1, h3⟩
  have hlen : cs.length = whole.length := by simpa using congrArg List.length h1
  obtain ⟨m, hm⟩ : ∃ m, c.toNat = fs.length + (m + 1) := ⟨c.toNat - fs.length - 1, by omega⟩
  simp only [List.flatten_append, List.flatten_cons, List.flatten_nil, List.append_nil, containerBytes_append,
    List.length_append, List.append_assoc] at hs hc hd
  simp only [List.flatten_append, List.flatten_cons, List.flatten_nil, List.append_nil, List.mem_append] at hf
  obtain ⟨b, hb⟩ := decodeSections_whole hu whole 0 cs (containerBytes fs ++ rest) s
    (fun gs hg f hfg => hf f (Or.inl (List.mem_flatten.mpr ⟨gs, hg, hfg⟩))) h1 hs (by omega) (by omega)
  let u : State := { sectionsRead 0 whole b s with curSection := BitVec.ofNat 32 (0 + cs.length) }
  have hub : u.src.bytes = containerBytes fs ++ rest := sectionsRead_bytes (i := 0) (b := b) hs
  have huc : u.cursor.toNat = s.cursor.toNat + (containerBytes whole.flatten).length :=
    sectionsRead_cursor_toNat (i := 0) (b := b) (by omega)
  have hud : u.framesDone.toNat = s.framesDone.toNat + whole.flatten.length := by
    change (s.framesDone + BitVec.ofNat 32 whole.flatten.length).toNat = _
    simp only [BitVec.toNat_add, BitVec.toNat_ofNat]
    omega
  have e := decodeFrames_whole hu (BitVec.ofNat 32 (0 + cs.length)) fs (m + 1) rest u
    (fun f h => hf f (Or.inr h)) hub (by omega) (by omega)
  have hst : ∃ b', framesRead (BitVec.ofNat 32 (0 + cs.length)) fs u = sectionsRead 0 (whole ++ [fs]) b' s := by
    refine ⟨(framesRead (BitVec.ofNat 32 (0 + cs.length)) fs u).status.state, ?_⟩
    simp only [framesRead, hud, huc]
    simp only [u, sectionsRead, consume, List.flatten_append, List.flatten_cons, List.flatten_nil, List.append_nil,
      containerBytes_append, List.length_append, containerRecords_append, lastHeader_append, List.drop_drop,
      BitVec.ofNat_add, BitVec.add_assoc, List.append_assoc, hlen]
    congr 1
    · split <;> rfl
    · simp
  obtain ⟨b', hb'⟩ := hst
  have e2 : decodeCounted (cs ++ c :: ds) s
      = ((decodeFrames (BitVec.ofNat 32 (0 + cs.length)) (m + 1) (sectionsRead 0 (whole ++ [fs]) b' s)).bind fun _ t =>
          decodeSections (0 + cs.length + 1) ds t).bind fun _ t => drainTrailing t := by
    rw [decodeCounted, decodeSections_append, hb, Run.bind_ok, decodeSections, hm, e, hb']
  rw [decodeFrames, Run.bind_assoc, Run.bind_assoc] at e2
  refine ⟨b', _, e2, fun base k t => ?_⟩
  cases k <;> rfl

theorem containerBytes_length_ge (fs : List FrameData) : 24 * fs.length ≤ (containerBytes fs).length := by
  induction fs with
  | nil => simp
  | cons f fs ih => rw [containerBytes_cons_length, List.length_cons]; omega

/-- DECS after some whole frames (R187): it stands at the header boundary after them. -/
theorem decodeScan_boundary (hu : UnpackPacks) {fs : List FrameData} {rest : List Byte} {s : State}
    (hz : s.curSection = 0) (hf : ∀ f ∈ fs, FrameData.ok f) (hs : s.src.bytes = containerBytes fs ++ rest)
    (hc : s.cursor.toNat + (containerBytes fs).length < 2 ^ 64) (hd : s.framesDone.toNat + fs.length < 2 ^ 32) :
    ∃ b k, decodeScan (s.src.bytes.length + 1) s
      = (decodeAt (setBlockState .cBound (sectionsRead 0 [fs] b s))).bind k := by
  have hge := containerBytes_length_ge fs
  have hl : s.src.bytes.length = (containerBytes fs).length + rest.length := by simp [hs]
  obtain ⟨m, hm⟩ : ∃ m, s.src.bytes.length + 1 = fs.length + (m + 1) := ⟨s.src.bytes.length - fs.length, by omega⟩
  have hst : framesRead 0 fs s = sectionsRead 0 [fs] (framesRead 0 fs s).status.state s := by
    simp only [framesRead, sectionsRead, consume, recordsOfSections, List.flatten_cons, List.flatten_nil,
      List.append_nil]
    congr 1
    split <;> rfl
  have e := decodeScan_whole hu fs (m + 1) rest s hf hs hc hd
  rw [hst, ← hm] at e
  exact ⟨_, _, e.trans (by rw [decodeScan])⟩

/-- A container decode that wants another frame (R185 to R187): it stands at the header boundary after the frames it has
read, and DECN and DECSEC take a short header there for an error (R231, R234). -/
theorem exec_wantsFrameAfter (hu : UnpackPacks) {i : Instr} {s : State} {secs : List (List FrameData)}
    {rest : List Byte} (hw : wantsFrameAfter i s secs) (hf : ∀ f ∈ secs.flatten, FrameData.ok f)
    (hs : s.src.bytes = containerBytes secs.flatten ++ rest)
    (hc : s.cursor.toNat + (containerBytes secs.flatten).length < 2 ^ 64) (hd : secs.flatten.length < 2 ^ 32) :
    ∃ seen mayWarn b k,
      exec i s = ((decodeAt (setBlockState .cBound (sectionsRead 0 secs b (startCommand seen mayWarn s)))).bind k).outcome
      ∧ (i ≠ .decs → ∀ base m t, k (.short base m) t
          = .stopped (if m = 0 then raiseError .frameCountMismatch base t else raiseTruncHdr base m t)) := by
  have hd0 : ∀ seen mayWarn, (startCommand seen mayWarn s).framesDone.toNat + secs.flatten.length < 2 ^ 32 := by
    intro _ _
    simpa [startCommand] using hd
  rcases hw with ⟨rfl, fs, rfl, hn⟩ | ⟨rfl, fs, rfl⟩ | ⟨rfl, whole, fs, n, later, rfl, hn, hcs⟩
  · obtain ⟨b, k, h1, h2⟩ := decodeCounted_boundary hu (counts := [s.frameCount]) (whole := []) (later := [])
      (s := startCommand (.cTrail :: containerStates) true s) rfl hn hf hs hc (hd0 _ _)
    exact ⟨_, _, b, k, congrArg Run.outcome h1, fun _ => h2⟩
  · simp only [List.flatten_cons, List.flatten_nil, List.append_nil] at hf hs hc
    obtain ⟨b, k, h1⟩ := decodeScan_boundary hu (s := startCommand containerStates true s) rfl hf hs hc
      (by simpa using hd0 containerStates true)
    exact ⟨_, _, b, k, congrArg Run.outcome h1, fun h => absurd rfl h⟩
  · obtain ⟨b, k, h1, h2⟩ := decodeCounted_boundary hu (s := startCommand (.cTrail :: containerStates) true s)
      hcs hn hf hs hc (hd0 _ _)
    exact ⟨_, _, b, k, congrArg Run.outcome h1, fun _ => h2⟩

/-- DECN or DECSEC whose frames are all there (R184, R188): it drains what is left. -/
theorem exec_wantsExactly (hu : UnpackPacks) {i : Instr} {s : State} {secs : List (List FrameData)}
    {rest : List Byte} (hw : wantsExactly i s secs) (hf : ∀ f ∈ secs.flatten, FrameData.ok f)
    (hs : s.src.bytes = containerBytes secs.flatten ++ rest)
    (hc : s.cursor.toNat + (containerBytes secs.flatten).length < 2 ^ 64) (hd : secs.flatten.length < 2 ^ 32) :
    ∃ seen mayWarn b, exec i s = (drainTrailing (sectionsRead 0 secs b (startCommand seen mayWarn s))).outcome := by
  refine ⟨.cTrail :: containerStates, true, ?_⟩
  have key : ∀ counts : List Word, counts.map BitVec.toNat = secs.map List.length →
      ∃ b, (decodeCounted counts (startCommand (.cTrail :: containerStates) true s)).outcome
        = (drainTrailing (sectionsRead 0 secs b (startCommand (.cTrail :: containerStates) true s))).outcome := by
    intro counts hcs
    obtain ⟨b, hb⟩ := decodeSections_whole hu secs 0 counts rest (startCommand (.cTrail :: containerStates) true s)
      (fun gs hg f hfg => hf f (List.mem_flatten.mpr ⟨gs, hg, hfg⟩)) hcs hs hc (by simpa [startCommand] using hd)
    exact ⟨b, by rw [decodeCounted, hb, Run.bind_ok]⟩
  rcases hw with ⟨rfl, fs, rfl, hn⟩ | ⟨rfl, hcs⟩
  · exact key [s.frameCount] (by simpa using hn.symm)
  · exact key _ hcs

end Sys2Proof.Machine
end

