-- ==== Sys2Proof/Laws/Decode.lean ====
section
/-! SUPPORT. Everything the decode commands can do (R160 to R166, R184 to R188): one relation for what their parts do
while they run, one for how an error ends them, and for each part the law that it does nothing else. -/
namespace Sys2Proof.Machine

/-- `t` is `s` after some source bytes were consumed and some whole frames delivered. `m` bounds CUR_SECTION. -/
def Decoded (m : Nat) (s t : State) : Prop :=
  ∃ k rs h b cur, k ≤ s.src.bytes.length ∧ s.cursor.toNat + k < 2 ^ 64 ∧ (∀ r ∈ rs, Record.ok r)
    ∧ s.framesDone.toNat + rs.length < 2 ^ 32 ∧ (cur = s.curSection ∨ cur.toNat < m)
    ∧ t = { consume k s with records := s.records ++ rs, framesDone := s.framesDone + BitVec.ofNat 32 rs.length
                             hdr := h, status := { s.status with state := b }, curSection := cur }

/-- `t` is `s` after an error of the decode commands was raised over what they had decoded (R231 to R234, R241). -/
def DecodeError (m : Nat) (s t : State) : Prop :=
  ∃ u, Decoded m s u ∧
    ((∃ c off e, (c = .srcIo ∨ c = .invalidMagic ∨ c = .truncPayload ∨ c = .frameCountMismatch)
        ∧ (c ≠ .srcIo → e = s.srcErr) ∧ t = raiseError c off { u with srcErr := e })
      ∨ ∃ off n, n < 24 ∧ t = raiseTruncHdr off n u)

theorem ofNat_add_toNat {w : Nat} {c : BitVec w} {n : Nat} (h : c.toNat + n < 2 ^ w) :
    (c + BitVec.ofNat w n).toNat = c.toNat + n := by
  rw [BitVec.toNat_add, BitVec.toNat_ofNat, Nat.add_mod_mod]
  exact Nat.mod_eq_of_lt h

theorem Decoded.refl (m : Nat) (s : State) : Decoded m s s :=
  ⟨0, [], s.hdr, s.status.state, s.curSection, Nat.zero_le _, s.cursor.isLt, by simp, s.framesDone.isLt, Or.inl rfl,
    by simp [consume]⟩

theorem Decoded.trans {m : Nat} {s t u : State} (h1 : Decoded m s t) (h2 : Decoded m t u) : Decoded m s u := by
  obtain ⟨k, rs, h, b, cur, hk, hc, hr, hf, hcur, rfl⟩ := h1
  obtain ⟨k', rs', h', b', cur', hk', hc', hr', hf', hcur', rfl⟩ := h2
  have e1 : (s.cursor + BitVec.ofNat 64 k).toNat = s.cursor.toNat + k := ofNat_add_toNat hc
  have e2 : (s.framesDone + BitVec.ofNat 32 rs.length).toNat = s.framesDone.toNat + rs.length := ofNat_add_toNat hf
  simp only [consume, List.length_drop] at hk' hc' hf'
  refine ⟨k + k', rs ++ rs', h', b', cur', by omega, by omega, ?_, by rw [List.length_append]; omega, ?_, ?_⟩
  · intro r hr2
    rcases List.mem_append.mp hr2 with h | h
    · exact hr r h
    · exact hr' r h
  · rcases hcur' with rfl | h
    · exact hcur
    · exact Or.inr h
  · simp [consume, BitVec.ofNat_add, BitVec.add_assoc]

theorem DecodeError.after {m : Nat} {s t u : State} (h1 : Decoded m s t) (h2 : DecodeError m t u) :
    DecodeError m s u := by
  obtain ⟨v, hv, h⟩ := h2
  have hs : t.srcErr = s.srcErr := by
    obtain ⟨k, rs, h, b, cur, -, -, -, -, -, rfl⟩ := h1
    rfl
  rw [hs] at h
  exact ⟨v, h1.trans hv, h⟩

/-- STATE changes while a command runs. -/
theorem Decoded.setBlockState (m : Nat) (b : BlockState) (s : State) : Decoded m s (setBlockState b s) :=
  ⟨0, [], s.hdr, b, s.curSection, Nat.zero_le _, s.cursor.isLt, by simp, s.framesDone.isLt, Or.inl rfl,
    by simp [consume, Machine.setBlockState]⟩

/-- CUR_SECTION takes the number of the section that is being decoded (R39). -/
theorem Decoded.setSection {m : Nat} {i : Word} (hi : i.toNat < m) (s : State) :
    Decoded m s { s with curSection := i } :=
  ⟨0, [], s.hdr, s.status.state, i, Nat.zero_le _, s.cursor.isLt, by simp, s.framesDone.isLt, Or.inr hi,
    by simp [consume]⟩

/-- DecodeAt, as one part of a decode command. -/
theorem decodeAt_decoded (m : Nat) (s : State) :
    (decodeAt s).Holds
      (fun r t => Decoded m s t
        ∧ ((∃ h payload, r = .frame s.cursor h payload ∧ h.magic = frameMagic ∧ payload.length = payloadLength h
              ∧ t.framesDone = s.framesDone)
          ∨ ∃ n, r = .short s.cursor n ∧ n < 24))
      (DecodeError m s) := by
  refine (decodeAt_holds s).mono ?_ ?_
  · rintro r t (⟨h, payload, n, rfl, hm, hp, -, hn, hc, rfl⟩ | ⟨n, rfl, hn, hl, -, hc, rfl⟩)
    · refine ⟨⟨n, [], h, .rdPay, s.curSection, hn, hc, by simp, s.framesDone.isLt, Or.inl rfl, by simp [consume]⟩,
        Or.inl ⟨h, payload, rfl, hm, hp, rfl⟩⟩
    · refine ⟨⟨n, [], s.hdr, .rdHdr, s.curSection, by omega, hc, by simp, s.framesDone.isLt, Or.inl rfl,
        by simp [consume, setBlockState]⟩, Or.inr ⟨n, rfl, hn⟩⟩
  · rintro t ⟨c, off, h, e, b, n, hcode, he, hn, hc, rfl⟩
    refine ⟨_, ⟨n, [], h, b, s.curSection, hn, hc, by simp, s.framesDone.isLt, Or.inl rfl, rfl⟩,
      Or.inl ⟨c, off, e, ?_, he, by simp [consume]⟩⟩
    rcases hcode with h | h | h <;> simp [h]

/-- A record of a whole frame is delivered. -/
theorem recEmit_decoded {m : Nat} {rec : Record} {s : State} (hr : rec.ok) :
    (recEmit rec s).Holds (fun _ t => Decoded m s t) (DecodeError m s) := by
  refine (recEmit_holds rec s).mono ?_ (fun _ h => h.elim)
  rintro _ t ⟨rfl, hd⟩
  exact ⟨0, [rec], s.hdr, s.status.state, s.curSection, Nat.zero_le _, s.cursor.isLt, by simpa using hr, hd, Or.inl rfl,
    by simp [consume, emitted]⟩

/-- One part after another. -/
theorem Decoded.bind {α β : Type} {m : Nat} {s t : State} {x : Run α} {A : α → State → Prop} {B : β → State → Prop}
    {f : α → State → Run β} (hst : Decoded m s t)
    (hx : x.Holds (fun a u => Decoded m t u ∧ A a u) (DecodeError m t))
    (hf : ∀ a u, Decoded m s u → A a u → (f a u).Holds B (DecodeError m s)) : (x.bind f).Holds B (DecodeError m s) :=
  (hx.mono (fun _ _ h => h) (fun _ h => DecodeError.after hst h)).bind fun a u h => hf a u (hst.trans h.1) h.2

/-- `DecodeCounted`'s inner loop. -/
theorem decodeFrames_decoded (m : Nat) (i : Word) (n : Nat) (s t : State) (hst : Decoded m s t) :
    (decodeFrames i n t).Holds (fun _ u => Decoded m s u) (DecodeError m s) := by
  induction n generalizing t with
  | zero => exact hst
  | succ n ih =>
    rw [decodeFrames]
    refine Decoded.bind (hst.trans (Decoded.setBlockState m .cBound t)) (decodeAt_decoded m _) ?_
    rintro r u hu (⟨h, payload, rfl, hm, hp, -⟩ | ⟨k, rfl, hk⟩)
    · exact Decoded.bind (A := fun _ _ => True) hu
        ((recEmit_decoded ⟨hm, hp⟩).mono (fun _ _ h => ⟨h, trivial⟩) (fun _ h => h)) fun _ v hv _ => ih v hv
    · cases k with
      | zero => exact ⟨u, hu, Or.inl ⟨_, _, u.srcErr, by simp, fun _ => by
          obtain ⟨_, _, _, _, _, -, -, -, -, -, rfl⟩ := hu; rfl, rfl⟩⟩
      | succ k => exact ⟨u, hu, Or.inr ⟨_, _, hk, rfl⟩⟩

/-- `DecodeCounted`'s outer loop, over sections with numbers below `m`. -/
theorem decodeSections_decoded (m i : Nat) (cs : List Word) (s t : State) (hst : Decoded m s t)
    (hi : i + cs.length ≤ m) : (decodeSections i cs t).Holds (fun _ u => Decoded m s u) (DecodeError m s) := by
  induction cs generalizing i t with
  | nil => exact hst
  | cons c cs ih =>
    rw [List.length_cons] at hi
    rw [decodeSections]
    refine (decodeFrames_decoded m _ _ s _ (hst.trans (Decoded.setSection ?_ t))).bind fun _ u hu =>
      ih (i + 1) u hu (by omega)
    rw [BitVec.toNat_ofNat]
    exact Nat.lt_of_le_of_lt (Nat.mod_le _ _) (by omega)

/-- `DrainTrailing` (R188): a command that succeeds with or without the warning, or the failure of R241. -/
theorem drainTrailing_decoded (m : Nat) (s t : State) (hst : Decoded m s t) :
    (drainTrailing t).Holds
      (fun _ u => ∃ v, Decoded m s v
        ∧ ((∃ off n, 0 < n ∧ n < 2 ^ 64 ∧ u = warnTrailing off n v) ∨ u = { v with trailCount := 0 }))
      (DecodeError m s) := by
  rw [drainTrailing]
  have hlen : ∀ {n}, n = t.src.bytes.length → t.cursor.toNat + n < 2 ^ 64 →
      Decoded m s (consume n (setBlockState .cTrail t)) := fun hn hc =>
    hst.trans ⟨_, [], t.hdr, .cTrail, t.curSection, Nat.le_of_eq hn, hc, by simp, t.framesDone.isLt, Or.inl rfl,
      by simp [consume, setBlockState]⟩
  refine (srcDrain_holds (setBlockState .cTrail t)).mono (fun _ _ h => h) (P := _) (Q := _) ?_ |>.bind ?_
  · rintro u ⟨e, -, hc, rfl⟩
    exact ⟨_, hlen rfl hc, Or.inl ⟨_, _, e, Or.inl rfl, fun h => absurd rfl h, rfl⟩⟩
  · rintro n u ⟨hn, hc, rfl, -⟩
    split
    · rename_i hpos
      exact ⟨_, hlen hn hc, Or.inl ⟨_, n, hpos, by omega, rfl⟩⟩
    · exact ⟨_, hlen hn hc, Or.inr rfl⟩

/-- The body of DECS (R187): a command that succeeds with or without the warning, or an error. -/
theorem decodeScan_decoded (m fuel : Nat) (s t : State) (hst : Decoded m s t) :
    (decodeScan fuel t).Holds
      (fun _ u => ∃ v, Decoded m s v ∧ ((∃ off n, 0 < n ∧ n < 2 ^ 64 ∧ u = warnTrailing off n v) ∨ u = v))
      (DecodeError m s) := by
  induction fuel generalizing t with
  | zero => exact ⟨t, hst, Or.inr rfl⟩
  | succ n ih =>
    rw [decodeScan]
    refine Decoded.bind (hst.trans (Decoded.setBlockState m .cBound t)) (decodeAt_decoded m _) ?_
    rintro r u hu (⟨h, payload, rfl, hm, hp, -⟩ | ⟨k, rfl, hk⟩)
    · exact Decoded.bind (A := fun _ _ => True) hu
        ((recEmit_decoded ⟨hm, hp⟩).mono (fun _ _ h => ⟨h, trivial⟩) (fun _ h => h)) fun _ v hv _ => ih v hv
    · simp only
      split
      · exact ⟨u, hu, Or.inl ⟨_, _, u.srcErr, by simp, fun _ => by
          obtain ⟨_, _, _, _, _, -, -, -, -, -, rfl⟩ := hu; rfl, rfl⟩⟩
      · split
        · exact ⟨u, hu, Or.inr ⟨_, _, hk, rfl⟩⟩
        · split
          · exact ⟨u, hu, Or.inr rfl⟩
          · exact ⟨u, hu, Or.inl ⟨_, k, by omega, by omega, rfl⟩⟩

/-- The body of DECF (R166). -/
theorem decodeOne_decoded (m : Nat) (s : State) :
    (decodeOne s).Holds (fun _ u => Decoded m s u) (DecodeError m s) := by
  rw [decodeOne]
  refine Decoded.bind (Decoded.refl m s) (decodeAt_decoded m s) ?_
  rintro r u hu (⟨h, payload, rfl, hm, hp, -⟩ | ⟨k, rfl, hk⟩)
  · refine (recEmit_decoded (m := m) (s := u) ⟨hm, hp⟩).mono (fun _ _ h => hu.trans h) (fun _ h => h.after hu)
  · exact ⟨u, hu, Or.inr ⟨_, _, hk, rfl⟩⟩

end Sys2Proof.Machine
end

