-- ==== Sys2Proof/Laws/Encode.lean ====
section
/-! SUPPORT. The laws of ENCF as a whole (R150 to R155): how it starts, and each way the frame's bytes reach the sink. -/
namespace Sys2Proof.Machine

/-- The state in which the body of ENCF starts (R42, R150). -/
abbrev encodeStart (s : State) : State := startCommand [.eHdr, .ePay] false s

theorem startCommand_status_eq (seen : List BlockState) (mayWarn : Bool) (s : State) :
    (startCommand seen mayWarn s).status
      = { s.status.started with wrWhileBusy := s.overlap.any BusyAccess.isWrite } := by
  simp [startCommand]

/-- The four words of R93 select the format that `encodesIn` names. -/
theorem exec_of_encodesIn {i : Instr} {fmt : PixelFormat} (h : encodesIn i fmt) (s : State) :
    exec i s = (encodeCommand fmt.code (encodeStart s)).outcome := by
  rcases h with ⟨rfl, rfl⟩ | ⟨rfl, rfl⟩ | ⟨rfl, rfl⟩ | ⟨rfl, rfl⟩ <;> rfl

/-- ENCF in either form is `encodeCommand` for a code that its word gives. -/
theorem exec_of_isEncode {i : Instr} (h : isEncode i) :
    ∃ code, ∀ s, exec i s = (encodeCommand code (encodeStart s)).outcome := by
  rcases h with ⟨a, rfl⟩ | ⟨f, rfl⟩ <;> exact ⟨_, fun _ => rfl⟩

theorem badDimensions_eq_false_iff (fmt : PixelFormat) (s : State) :
    badDimensions fmt s.inWidth s.inHeight = false ↔ goodDimensions fmt s := by
  simp [badDimensions, goodDimensions]

/-- The length of the frame that ENCF writes, as the number of its pixels gives it (R108, R144). -/
theorem frameLength_encodedHeader {fmt : PixelFormat} {s : State} (hg : goodDimensions fmt s) :
    frameLength (encodedHeader fmt s.inWidth s.inHeight)
      = 24 + s.inWidth.toNat * s.inHeight.toNat * fmt.bpp := by
  rw [frameLength, payloadLength, encodedHeader_stride_toNat _ _ _ hg.2.2]
  simp only [encodedHeader, headerLength]
  ring

/-- The state in which ENCF writes its header: the header is latched and EXP_COUNT is increased. -/
def headerStart (fmt : PixelFormat) (s : State) : State :=
  setBlockState .eHdr
    { s with hdr := encodedHeader fmt s.inWidth s.inHeight
             expCount := s.expCount + BitVec.ofNat 64 (frameLength (encodedHeader fmt s.inWidth s.inHeight)) }

/-- The state in which the pixel loop starts, the header written. -/
def payloadStart (fmt : PixelFormat) (s : State) : State :=
  setBlockState .ePay (accepted (packHeader (encodedHeader fmt s.inWidth s.inHeight)) (headerStart fmt s))

/-- ENCF with a supported format and legal dimensions, EXP_COUNT inside its width. -/
theorem encodeCommand_eq {fmt : PixelFormat} {s : State} (hg : goodDimensions fmt s)
    (hc : s.expCount.toNat + frameLength (encodedHeader fmt s.inWidth s.inHeight) < 2 ^ 64) :
    encodeCommand fmt.code s =
      (sinkWrite (packHeader (encodedHeader fmt s.inWidth s.inHeight)) (headerStart fmt s)).bind fun _ t =>
        encodePixels fmt (s.inWidth.toNat * s.inHeight.toNat) (setBlockState .ePay t) := by
  have hb := (badDimensions_eq_false_iff fmt s).mpr hg
  simp only [encodeCommand, supportedFormat_code, hb, encodeFrame, addExpected]
  rw [if_pos hc]
  rfl

theorem payloadStart_outCount {fmt : PixelFormat} {s : State} (hc : s.outCount.toNat + 24 < 2 ^ 64) :
    (payloadStart fmt s).outCount.toNat = s.outCount.toNat + 24 :=
  accepted_outCount_toNat (bs := packHeader _) (s := headerStart fmt s) hc

theorem sinkAnswerAt_payloadStart (fmt : PixelFormat) (s : State) (k : Nat) :
    sinkAnswerAt (payloadStart fmt s) k = sinkAnswerAt s (24 + k) :=
  sinkAnswerAt_accepted (packHeader (encodedHeader fmt s.inWidth s.inHeight)) (headerStart fmt s) k

/-- The sink accepts the header: the command goes on with its pixels. -/
theorem encodeCommand_header {fmt : PixelFormat} {s : State} (hg : goodDimensions fmt s) (ha : sinkAccepts s 24)
    (ho : s.outCount.toNat + 24 < 2 ^ 64)
    (hc : s.expCount.toNat + frameLength (encodedHeader fmt s.inWidth s.inHeight) < 2 ^ 64) :
    encodeCommand fmt.code s = encodePixels fmt (s.inWidth.toNat * s.inHeight.toNat) (payloadStart fmt s) := by
  rw [encodeCommand_eq hg hc, sinkWrite_accepts _ _ ha ho]
  rfl

/-- The words are ready and the sink accepts the whole frame (R154). -/
theorem encodeCommand_accepts {fmt : PixelFormat} {s : State} (hg : goodDimensions fmt s)
    (hn : s.inWidth.toNat * s.inHeight.toNat ≤ s.pix.length)
    (ha : sinkAccepts s (24 + s.inWidth.toNat * s.inHeight.toNat * fmt.bpp))
    (ho : s.outCount.toNat + (24 + s.inWidth.toNat * s.inHeight.toNat * fmt.bpp) < 2 ^ 64)
    (hc : s.expCount.toNat + (24 + s.inWidth.toNat * s.inHeight.toNat * fmt.bpp) < 2 ^ 64) :
    encodeCommand fmt.code s =
      .ok () (accepted ((s.pix.take (s.inWidth.toNat * s.inHeight.toNat)).flatMap (pixbytes fmt))
        (pixelsTaken (s.inWidth.toNat * s.inHeight.toNat) (payloadStart fmt s))) := by
  rw [← frameLength_encodedHeader hg] at hc
  rw [encodeCommand_header hg (fun k hk => ha k (by omega)) (by omega) hc]
  refine encodePixels_accepts fmt _ (payloadStart fmt s) hn (fun k hk => ?_) ?_
  · rw [sinkAnswerAt_payloadStart]
    exact ha _ (by omega)
  · rw [payloadStart_outCount (by omega)]
    omega

/-- The sink accepts what the ready words give, and they are too few: ENCF waits (R67, 93 U15). -/
theorem encodeCommand_starves {fmt : PixelFormat} {s : State} (hg : goodDimensions fmt s)
    (hn : s.pix.length < s.inWidth.toNat * s.inHeight.toNat) (ha : sinkAccepts s (24 + s.pix.length * fmt.bpp))
    (ho : s.outCount.toNat + (24 + s.pix.length * fmt.bpp) < 2 ^ 64)
    (hc : s.expCount.toNat + (24 + s.inWidth.toNat * s.inHeight.toNat * fmt.bpp) < 2 ^ 64) :
    encodeCommand fmt.code s =
      .stopped { accepted (s.pix.flatMap (pixbytes fmt)) (pixelsTaken s.pix.length (payloadStart fmt s)) with
                 running := some { fmt := fmt
                                   remaining := s.inWidth.toNat * s.inHeight.toNat - s.pix.length } } := by
  rw [← frameLength_encodedHeader hg] at hc
  rw [encodeCommand_header hg (fun k hk => ha k (by omega)) (by omega) hc]
  refine encodePixels_starves fmt _ (payloadStart fmt s) hn (fun k hk => ?_) ?_
  · rw [sinkAnswerAt_payloadStart]
    exact ha _ (Nat.add_lt_add_left hk 24)
  · rw [payloadStart_outCount (by omega)]
    exact (Nat.add_assoc _ _ _).trans_lt ho

/-- The pixel loop where the sink takes `k` pixels and `j` bytes of the next and then rejects a byte (R155). -/
theorem encodePixels_rejects (fmt : PixelFormat) (n k j : Nat) (s : State) {e : Word} (hk : k < n)
    (hp : k < s.pix.length) (hj : j < fmt.bpp) (ha : sinkAccepts s (k * fmt.bpp + j))
    (hr : sinkAnswerAt s (k * fmt.bpp + j) = .reject e) (hc : s.outCount.toNat + (k * fmt.bpp + j) < 2 ^ 64) :
    encodePixels fmt n s =
      (let u := accepted (((s.pix.take (k + 1)).flatMap (pixbytes fmt)).take (k * fmt.bpp + j)) (pixelsTaken (k + 1) s)
       .stopped (raiseError .sinkIo u.outCount
        { u with sinkAnswers := s.sinkAnswers.drop (k * fmt.bpp + j + 1), sinkErr := e })) := by
  induction k generalizing n s with
  | zero =>
    obtain ⟨m, rfl⟩ : ∃ m, n = m + 1 := ⟨n - 1, by omega⟩
    cases hpx : s.pix with
    | nil => simp [hpx] at hp
    | cons w ws =>
      have hl : (pixbytes fmt w).length = fmt.bpp := pixbytes_length fmt w
      simp only [Nat.zero_mul, Nat.zero_add] at ha hr hc ⊢
      rw [encodePixels_succ hpx, sinkWrite_rejects _ (pixelsTaken 1 s) (by omega) ha hr hc]
      simp [pixelsTaken, hpx]
  | succ k ih =>
    obtain ⟨m, rfl⟩ : ∃ m, n = m + 1 := ⟨n - 1, by omega⟩
    cases hpx : s.pix with
    | nil => simp [hpx] at hp
    | cons w ws =>
      have hl : (pixbytes fmt w).length = fmt.bpp := pixbytes_length fmt w
      have e1 : (k + 1) * fmt.bpp + j = fmt.bpp + (k * fmt.bpp + j) := by rw [Nat.succ_mul]; omega
      rw [e1] at ha hr hc ⊢
      have ho : (accepted (pixbytes fmt w) (pixelsTaken 1 s)).outCount.toNat = s.outCount.toNat + fmt.bpp := by
        rw [accepted_outCount_toNat (by simp only [pixelsTaken]; omega), hl]
        rfl
      have hpix : (accepted (pixbytes fmt w) (pixelsTaken 1 s)).pix = ws := by simp [accepted, pixelsTaken, hpx]
      rw [encodePixels_succ hpx, sinkWrite_accepts _ (pixelsTaken 1 s) (fun i hi => ha i (by omega))
        (by simp only [pixelsTaken]; omega), Run.bind_ok, ih]
      · rw [hpix, List.take_succ_cons (i := k + 1), List.flatMap_cons,
          show fmt.bpp + (k * fmt.bpp + j) = (pixbytes fmt w).length + (k * fmt.bpp + j) by rw [hl],
          List.take_length_add_append]
        simp [accepted, pixelsTaken, hpx, hl, Nat.add_comm, Nat.add_left_comm, BitVec.ofNat_add, BitVec.add_assoc]
      · omega
      · rw [hpix]
        simpa [hpx] using hp
      · intro i hi
        rw [sinkAnswerAt_accepted, hl]
        exact ha _ (by omega)
      · rw [sinkAnswerAt_accepted, hl]
        exact hr
      · omega

/-- Everything ENCF can do: it ends at once with UNSUPPORTED_FMT or BAD_DIM; or it runs through; or it waits for a pixel
word with all ready ones written; or the sink rejects a byte of the header, or of a pixel. -/
theorem encodeCommand_holds (code : Word) (s : State) :
    (encodeCommand code s).Holds
      (fun _ t => ∃ fmt, supportedFormat code = some fmt ∧ goodDimensions fmt s
        ∧ s.expCount.toNat + frameLength (encodedHeader fmt s.inWidth s.inHeight) < 2 ^ 64
        ∧ s.inWidth.toNat * s.inHeight.toNat ≤ s.pix.length
        ∧ s.outCount.toNat + (24 + s.inWidth.toNat * s.inHeight.toNat * fmt.bpp) < 2 ^ 64
        ∧ t = accepted ((s.pix.take (s.inWidth.toNat * s.inHeight.toNat)).flatMap (pixbytes fmt))
            (pixelsTaken (s.inWidth.toNat * s.inHeight.toNat) (payloadStart fmt s)))
      (fun t =>
        (supportedFormat code = none ∧ t = raiseError .unsupportedFmt s.outCount s)
        ∨ ∃ fmt, supportedFormat code = some fmt
          ∧ ((¬ goodDimensions fmt s ∧ t = raiseError .badDim s.outCount s)
            ∨ (goodDimensions fmt s
              ∧ s.expCount.toNat + frameLength (encodedHeader fmt s.inWidth s.inHeight) < 2 ^ 64
              ∧ ((∃ k e u, k < 24 ∧ s.outCount.toNat + k < 2 ^ 64
                  ∧ u = accepted ((packHeader (encodedHeader fmt s.inWidth s.inHeight)).take k) (headerStart fmt s)
                  ∧ t = raiseError .sinkIo u.outCount
                      { u with sinkAnswers := s.sinkAnswers.drop (k + 1), sinkErr := e })
                ∨ (s.pix.length < s.inWidth.toNat * s.inHeight.toNat
                  ∧ s.outCount.toNat + (24 + s.pix.length * fmt.bpp) < 2 ^ 64
                  ∧ t = { accepted (s.pix.flatMap (pixbytes fmt)) (pixelsTaken s.pix.length (payloadStart fmt s)) with
                          running := some { fmt := fmt
                                            remaining := s.inWidth.toNat * s.inHeight.toNat - s.pix.length } })
                ∨ (∃ k j e u, k < s.inWidth.toNat * s.inHeight.toNat ∧ k < s.pix.length ∧ j < fmt.bpp
                  ∧ s.outCount.toNat + (24 + (k * fmt.bpp + j)) < 2 ^ 64
                  ∧ u = accepted (((s.pix.take (k + 1)).flatMap (pixbytes fmt)).take (k * fmt.bpp + j))
                      (pixelsTaken (k + 1) (payloadStart fmt s))
                  ∧ t = raiseError .sinkIo u.outCount
                      { u with sinkAnswers := s.sinkAnswers.drop (24 + (k * fmt.bpp + j) + 1)
                               sinkErr := e }))))) := by
  cases hf : supportedFormat code with
  | none =>
    simp only [encodeCommand, hf]
    exact Or.inl ⟨trivial, rfl⟩
  | some fmt =>
    obtain rfl : code = fmt.code := by
      unfold supportedFormat at hf
      split at hf
      · cases hf; assumption
      · split at hf
        · cases hf; assumption
        · cases hf
    by_cases hg : goodDimensions fmt s
    · by_cases hc : s.expCount.toNat + frameLength (encodedHeader fmt s.inWidth s.inHeight) < 2 ^ 64
      · rw [encodeCommand_eq hg hc]
        refine (sinkWrite_holds _ (headerStart fmt s)).mono (fun _ _ h => h) (P := _) (Q := _) ?_ |>.bind ?_
        · rintro t ⟨k, e, hk, ho, rfl⟩
          exact Or.inr ⟨fmt, rfl, Or.inr ⟨hg, hc, Or.inl ⟨k, e, _, hk, ho, rfl, rfl⟩⟩⟩
        · rintro _ t ⟨rfl, ho⟩
          have ho' : (payloadStart fmt s).outCount.toNat = s.outCount.toNat + 24 := payloadStart_outCount ho
          refine (encodePixels_holds fmt _ (payloadStart fmt s)).mono ?_ ?_
          · rintro _ t ⟨hn, hcn, rfl⟩
            exact ⟨fmt, rfl, hg, hc, hn, by omega, rfl⟩
          · rintro t (⟨hn, hcn, rfl⟩ | ⟨k, j, e, u, hk, hkp, hj, hck, rfl, rfl⟩)
            · rw [ho'] at hcn
              exact Or.inr ⟨fmt, rfl, Or.inr ⟨hg, hc, Or.inr (Or.inl ⟨hn, (Nat.add_assoc _ _ _).symm.trans_lt hcn, rfl⟩)⟩⟩
            · rw [ho'] at hck
              refine Or.inr ⟨fmt, rfl, Or.inr ⟨hg, hc, Or.inr (Or.inr ⟨k, j, e, _, hk, hkp, hj,
                (Nat.add_assoc _ _ _).symm.trans_lt hck, rfl, ?_⟩)⟩⟩
              have : (payloadStart fmt s).sinkAnswers = s.sinkAnswers.drop 24 := rfl
              rw [this, List.drop_drop]
              rfl
      · have hb := (badDimensions_eq_false_iff fmt s).mpr hg
        simp only [encodeCommand, supportedFormat_code, hb, encodeFrame, addExpected]
        rw [if_neg hc]
        trivial
    · have hb : badDimensions fmt s.inWidth s.inHeight = true := by
        rw [← Bool.not_eq_false]
        exact fun h => hg ((badDimensions_eq_false_iff fmt s).mp h)
      simp only [encodeCommand, supportedFormat_code, hb, if_true]
      exact Or.inr ⟨fmt, rfl, Or.inl ⟨hg, rfl⟩⟩

end Sys2Proof.Machine
end

