-- ==== Sys2Proof/Laws/PerInstr.lean ====
section
/-! SUPPORT. A property of every command, one lemma per constructor of `Instr`: its word stands in its own row of
spec/opcode_table.json (R92, R93). -/
namespace Sys2Proof.Laws.TableRow

/-- The word of a command, under the mask of its row, is the row's match. -/
def Statement (i : Instr) : Prop := encode i &&& (tableRow i).2 = (tableRow i).1

theorem nop : Statement .nop := by unfold Statement; decide
theorem srst : Statement .srst := by unfold Statement; decide
theorem cvt565 : Statement .cvt565 := by unfold Statement; decide
theorem cvt565a8 : Statement .cvt565a8 := by unfold Statement; decide
theorem encfAuto (hasAlpha : Bool) : Statement (.encfAuto hasAlpha) := by unfold Statement; revert hasAlpha; decide
theorem encfFmt (fmt : BitVec 8) : Statement (.encfFmt fmt) := by
  unfold Statement encode tableRow
  apply BitVec.eq_of_getLsbD_eq
  intro k hk
  simp only [BitVec.getLsbD_and, BitVec.getLsbD_or, BitVec.getLsbD_shiftLeft, BitVec.getLsbD_setWidth]
  interval_cases k <;> simp
theorem cencb : Statement .cencb := by unfold Statement; decide
theorem cence : Statement .cence := by unfold Statement; decide
theorem decf : Statement .decf := by unfold Statement; decide
theorem decn : Statement .decn := by unfold Statement; decide
theorem decs : Statement .decs := by unfold Statement; decide
theorem decsec : Statement .decsec := by unfold Statement; decide

end Sys2Proof.Laws.TableRow
end

