-- ==== Sys2Proof/Laws/Trace.lean ====
section
/-! SUPPORT. A change of state that commutes with every part of a command: what the host has read and drawn, and the flag
of R248 (R73, R81). And what ENCF does when words are added behind those that are ready (R67). -/
namespace Sys2Proof.Machine

/-- The same run over changed states. -/
def Run.map {α : Type} (g : State → State) : Run α → Run α
  | .ok a s => .ok a (g s)
  | .stopped s => .stopped (g s)
  | .refused r => .refused r

@[simp] theorem Run.map_ok {α : Type} (g : State → State) (a : α) (s : State) : (Run.ok a s).map g = .ok a (g s) := rfl
@[simp] theorem Run.map_stopped {α : Type} (g : State → State) (s : State) :
    (Run.stopped s : Run α).map g = .stopped (g s) := rfl
@[simp] theorem Run.map_refused {α : Type} (g : State → State) (r : Refusal) :
    (Run.refused r : Run α).map g = .refused r := rfl

theorem Run.bind_congr {α β : Type} {x y : Run α} (f : α → State → Run β) (h : x = y) : x.bind f = y.bind f := by rw [h]

/-- A change that commutes with each part commutes with them one after another. -/
theorem Run.map_bind {α β : Type} {g : State → State} {x : Run α} {f f' : α → State → Run β}
    (h : ∀ a s, f a (g s) = (f' a s).map g) : (x.map g).bind f = (x.bind f').map g := by
  cases x <;> simp [h]

/-- The host has read and drawn otherwise, and the flag of R248 is otherwise. -/
def traced (flag : Bool) (log : List (Nat × Word)) (n : Nat) (s : State) : State :=
  { s with status := { s.status with wrWhileBusy := flag }, readLog := s.readLog ++ log, draws := n }

variable (flag : Bool) (log : List (Nat × Word)) (n : Nat)

theorem srcRead_traced (k : Nat) (s : State) :
    srcRead k (traced flag log n s) = (srcRead k s).map (traced flag log n) := by
  simp only [srcRead, traced]
  by_cases h1 : s.cursor.toNat + (s.src.bytes.take k).length < 2 ^ 64
  · by_cases h2 : (s.src.bytes.take k).length < k
    · simp only [h1, h2, if_true]
      cases s.src.ending <;> rfl
    · simp only [h1, h2, if_true, if_false]
      rfl
  · simp only [h1, if_false]
    rfl

theorem srcDrain_traced (s : State) :
    srcDrain (traced flag log n s) = (srcDrain s).map (traced flag log n) := by
  simp only [srcDrain, traced]
  by_cases h1 : s.cursor.toNat + s.src.bytes.length < 2 ^ 64
  · simp only [h1, if_true]
    cases s.src.ending <;> rfl
  · simp only [h1, if_false]
    rfl

theorem sinkByte_traced (b : Byte) (s : State) :
    sinkByte b (traced flag log n s) = (sinkByte b s).map (traced flag log n) := by
  simp only [sinkByte, traced]
  cases s.sinkAnswers.headD s.sinkRest with
  | reject e => rfl
  | accept =>
    by_cases h : s.outCount.toNat + 1 < 2 ^ 64
    · simp only [h, if_true]
      rfl
    · simp only [h, if_false]
      rfl

theorem sinkWrite_traced (bs : List Byte) (s : State) :
    sinkWrite bs (traced flag log n s) = (sinkWrite bs s).map (traced flag log n) := by
  induction bs generalizing s with
  | nil => rfl
  | cons b bs ih =>
    rw [sinkWrite, sinkWrite, sinkByte_traced]
    exact Run.map_bind fun _ t => ih t

theorem recEmit_traced (rec : Record) (s : State) :
    recEmit rec (traced flag log n s) = (recEmit rec s).map (traced flag log n) := by
  simp only [recEmit, traced]
  by_cases h : s.framesDone.toNat + 1 < 2 ^ 32
  · simp only [h, if_true]
    rfl
  · simp only [h, if_false]
    rfl

theorem encodePixels_traced (fmt : PixelFormat) (m : Nat) (s : State) :
    encodePixels fmt m (traced flag log n s) = (encodePixels fmt m s).map (traced flag log n) := by
  induction m generalizing s with
  | zero => rfl
  | succ m ih =>
    cases hp : s.pix with
    | nil =>
      rw [encodePixels_waits hp, encodePixels_waits (s := traced flag log n s) hp]
      rfl
    | cons w ws =>
      rw [encodePixels_succ hp, encodePixels_succ (s := traced flag log n s) hp]
      have h : pixelsTaken 1 (traced flag log n s) = traced flag log n (pixelsTaken 1 s) := rfl
      rw [h, sinkWrite_traced]
      exact Run.map_bind fun _ t => ih t

theorem encodeCommand_traced (code : Word) (s : State) :
    encodeCommand code (traced flag log n s) = (encodeCommand code s).map (traced flag log n) := by
  simp only [encodeCommand]
  cases supportedFormat code with
  | none => rfl
  | some fmt =>
    have hw : (traced flag log n s).inWidth = s.inWidth := rfl
    have hh : (traced flag log n s).inHeight = s.inHeight := rfl
    simp only [hw, hh]
    cases hb : badDimensions fmt s.inWidth s.inHeight with
    | true =>
      simp only [if_true]
      rfl
    | false =>
      simp only [Bool.false_eq_true, if_false]
      simp only [encodeFrame, addExpected, hw, hh]
      by_cases he : s.expCount.toNat + frameLength (encodedHeader fmt s.inWidth s.inHeight) < 2 ^ 64
      · have he' : (traced flag log n s).expCount.toNat + frameLength (encodedHeader fmt s.inWidth s.inHeight)
          < 2 ^ 64 := he
        rw [if_pos he, if_pos he', Run.bind_ok, Run.bind_ok]
        refine (Run.bind_congr _ (sinkWrite_traced flag log n _ (headerStart fmt s))).trans ?_
        exact Run.map_bind fun _ t => encodePixels_traced flag log n fmt _ (setBlockState .ePay t)
      · have he' : ¬ (traced flag log n s).expCount.toNat + frameLength (encodedHeader fmt s.inWidth s.inHeight)
          < 2 ^ 64 := he
        rw [if_neg he, if_neg he']
        rfl

theorem decodeAt_traced (s : State) :
    decodeAt (traced flag log n s) = (decodeAt s).map (traced flag log n) := by
  have h : setBlockState .rdHdr (traced flag log n s) = traced flag log n (setBlockState .rdHdr s) := rfl
  simp only [decodeAt]
  rw [h, srcRead_traced]
  refine Run.map_bind fun hb t => ?_
  by_cases hl : hb.length < headerLength
  · simp only [hl, if_true]
    rfl
  · simp only [hl, if_false]
    by_cases hm : (unpackHeader hb).magic = frameMagic
    · simp only [hm, ne_eq, not_true, if_false]
      refine (Run.bind_congr _ (srcRead_traced flag log n _
        (setBlockState .rdPay { setBlockState .valMagic t with hdr := unpackHeader hb }))).trans ?_
      refine Run.map_bind fun pl u => ?_
      by_cases hp : pl.length < payloadLength (unpackHeader hb)
      · simp only [hp, if_true]
        rfl
      · simp only [hp, if_false]
        rfl
    · simp only [ne_eq, hm, not_false_iff, if_true]
      rfl

theorem decodeOne_traced (s : State) :
    decodeOne (traced flag log n s) = (decodeOne s).map (traced flag log n) := by
  simp only [decodeOne]
  rw [decodeAt_traced]
  refine Run.map_bind fun r t => ?_
  cases r with
  | short => rfl
  | frame => exact recEmit_traced flag log n _ t

theorem decodeFrames_traced (i : Word) (m : Nat) (s : State) :
    decodeFrames i m (traced flag log n s) = (decodeFrames i m s).map (traced flag log n) := by
  induction m generalizing s with
  | zero => rfl
  | succ m ih =>
    have h : setBlockState .cBound (traced flag log n s) = traced flag log n (setBlockState .cBound s) := rfl
    rw [decodeFrames, decodeFrames, h, decodeAt_traced]
    refine Run.map_bind fun r t => ?_
    rcases r with ⟨base, hd, payload⟩ | ⟨base, _ | k⟩
    · exact (Run.bind_congr _ (recEmit_traced flag log n _ t)).trans (Run.map_bind fun _ u => ih u)
    · rfl
    · rfl

theorem decodeSections_traced (i : Nat) (cs : List Word) (s : State) :
    decodeSections i cs (traced flag log n s) = (decodeSections i cs s).map (traced flag log n) := by
  induction cs generalizing i s with
  | nil => rfl
  | cons c cs ih =>
    rw [decodeSections, decodeSections]
    exact (Run.bind_congr _ (decodeFrames_traced flag log n _ _ { s with curSection := BitVec.ofNat 32 i })).trans
      (Run.map_bind fun _ u => ih (i + 1) u)

theorem drainTrailing_traced (s : State) :
    drainTrailing (traced flag log n s) = (drainTrailing s).map (traced flag log n) := by
  have h : setBlockState .cTrail (traced flag log n s) = traced flag log n (setBlockState .cTrail s) := rfl
  simp only [drainTrailing]
  rw [h, srcDrain_traced]
  refine Run.map_bind fun k t => ?_
  by_cases hk : k > 0
  · simp only [hk, if_true]
    rfl
  · simp only [hk, if_false]
    rfl

theorem decodeCounted_traced (cs : List Word) (s : State) :
    decodeCounted cs (traced flag log n s) = (decodeCounted cs s).map (traced flag log n) := by
  simp only [decodeCounted]
  rw [decodeSections_traced]
  exact Run.map_bind fun _ t => drainTrailing_traced flag log n t

theorem decodeScan_traced (fuel : Nat) (s : State) :
    decodeScan fuel (traced flag log n s) = (decodeScan fuel s).map (traced flag log n) := by
  induction fuel generalizing s with
  | zero => rfl
  | succ m ih =>
    have h : setBlockState .cBound (traced flag log n s) = traced flag log n (setBlockState .cBound s) := rfl
    rw [decodeScan, decodeScan, h, decodeAt_traced]
    refine Run.map_bind fun r t => ?_
    rcases r with ⟨base, hd, payload⟩ | ⟨base, k⟩
    · exact (Run.bind_congr _ (recEmit_traced flag log n _ t)).trans (Run.map_bind fun _ u => ih u)
    · have hf : (traced flag log n t).framesDone = t.framesDone := rfl
      simp only [hf]
      by_cases h1 : t.framesDone = 0 ∧ k = 0
      · simp only [h1, if_true]
        rfl
      · simp only [h1, if_false]
        by_cases h2 : t.framesDone = 0
        · simp only [h2, if_true]
          rfl
        · simp only [h2, if_false]
          by_cases h3 : k = 0
          · simp only [h3, if_true]
            rfl
          · simp only [h3, if_false]
            rfl

/-! ### Words added behind those that are ready -/

/-- The pixel port has the words `p` ready. -/
def withPixels (p : List Word) (s : State) : State := { s with pix := p }

theorem sinkWrite_withPixels (p : List Word) (bs : List Byte) (s : State) :
    sinkWrite bs (withPixels p s) = (sinkWrite bs s).map (withPixels p) := by
  induction bs generalizing s with
  | nil => rfl
  | cons b bs ih =>
    have h : sinkByte b (withPixels p s) = (sinkByte b s).map (withPixels p) := by
      simp only [sinkByte, withPixels]
      cases s.sinkAnswers.headD s.sinkRest with
      | reject e => rfl
      | accept =>
        by_cases hc : s.outCount.toNat + 1 < 2 ^ 64
        · simp only [hc, if_true]
          rfl
        · simp only [hc, if_false]
          rfl
    rw [sinkWrite, sinkWrite, h]
    exact Run.map_bind fun _ t => ih t

/-- Where the pixel loop waits (R67), further words behind the ready ones make it go on from where it waits. -/
theorem encodePixels_more {fmt : PixelFormat} {m : Nat} {s t : State} {job : EncodeJob} (more : List Word)
    (hr : s.running = none) (h : encodePixels fmt m s = .stopped t) (hj : t.running = some job) :
    encodePixels fmt m (withPixels (s.pix ++ more) s)
      = encodePixels job.fmt job.remaining (withPixels more { t with running := none }) := by
  induction m generalizing s with
  | zero => simp [encodePixels] at h
  | succ m ih =>
    cases hp : s.pix with
    | nil =>
      rw [encodePixels_waits hp] at h
      cases h
      cases hj
      simp [withPixels, hr]
    | cons w ws =>
      rw [encodePixels_succ hp] at h
      rw [encodePixels_succ (s := withPixels (w :: ws ++ more) s) (w := w) (ws := ws ++ more) rfl]
      have e : pixelsTaken 1 (withPixels (w :: ws ++ more) s) = withPixels (ws ++ more) (pixelsTaken 1 s) := rfl
      rw [e, sinkWrite_withPixels]
      have hs := sinkWrite_holds (pixbytes fmt w) (pixelsTaken 1 s)
      cases hw : sinkWrite (pixbytes fmt w) (pixelsTaken 1 s) with
      | ok a u =>
        rw [hw] at h hs
        simp only [Run.bind_ok, Run.map_ok] at h ⊢
        obtain ⟨rfl, -⟩ := hs
        have hp' : (accepted (pixbytes fmt w) (pixelsTaken 1 s)).pix = ws := by simp [accepted, pixelsTaken, hp]
        have := ih (s := accepted (pixbytes fmt w) (pixelsTaken 1 s)) hr h
        rw [hp'] at this
        exact this
      | stopped u =>
        rw [hw] at h hs
        cases h
        obtain ⟨k, e, _, _, rfl⟩ := hs
        cases hj
      | refused r =>
        rw [hw] at h
        cases h

end Sys2Proof.Machine
end

