-- ==== Sys2Proof/Laws/Window.lean ====
section
/-! SUPPORT. Which register stands at an offset (R22), and what a step does with the host's next event (R60, R75). -/
namespace Sys2Proof.Machine

/-- Below the section table the map does not depend on MAX_SECTIONS. -/
theorem regAt_low {n off : Nat} (m : Nat) (h : off < 0x80) : regAt n off = regAt m off := by
  unfold regAt
  split <;> first | rfl | (rw [if_neg (by omega), if_neg (by omega)])

/-- SEC_COUNT[i] stands at 0x80 + 4·i. -/
theorem regAt_secCount {n i : Nat} (h : i < n) : regAt n (0x80 + 4 * i) = .secCount i := by
  unfold regAt
  split <;> first | omega | skip
  rw [if_pos (by omega), show (0x80 + 4 * i - 0x80) / 4 = i by omega]

/-- Past the section table the window is reserved. -/
theorem regAt_reserved {n off : Nat} (h : 0x80 + 4 * n ≤ off) : regAt n off = .reserved := by
  unfold regAt
  split <;> first | omega | skip
  rw [if_neg (by omega)]

theorem regAt_secCount_lt {n off i : Nat} (h : regAt n off = .secCount i) : i < n := by
  unfold regAt at h
  split at h <;> first | contradiction | skip
  split at h
  · cases h; omega
  · contradiction

/-- A write of the window leaves MAX_SECTIONS. -/
@[simp] theorem writeReg_secCount_length (r : Reg) (v : Word) (s : State) :
    (writeReg r v s).secCount.length = s.secCount.length := by
  unfold writeReg
  split <;> simp

/-- Where no ENCF can go on, the step is the host's next event. -/
theorem nextTurn_of_event {s : State} {e : HostEvent} {rest : List HostEvent} (h : s.host = e :: rest)
    (hr : s.pix = [] ∨ s.running = none) : nextTurn s = hostEvent e { s with host := rest } := by
  unfold nextTurn
  split
  · simp_all
  · simp [hostTurn, h]

end Sys2Proof.Machine
end

