-- ==== Sys2Proof/Tests/Slice0.lean ====
section
/-! SUPPORT. Tests on fixed values: command words from the tables of spec/30_encoding.md, one step per command from the
vectors of spec/95_test_vectors.md, and for each statement with hypotheses a witness that meets them all. -/
namespace Sys2Proof.Tests
open Sys2Proof Sys2Proof.Machine

/-! ### Small states -/

/-- The next state of a command, if it has one. -/
def ran (i : Instr) (s : State) : Option State :=
  match exec i s with
  | .next t => some t
  | _ => none

/-- The next state of a step, if it has one. -/
def stepped (s : State) : Option State :=
  match step s with
  | .next t => some t
  | _ => none

/-- Reset, with these source bytes before a clean end. -/
def withBytes (bs : List Byte) : State := { State.reset with src := { bytes := bs, ending := .eos } }

/-- Reset, with these source bytes before a failure. -/
def withFailingBytes (bs : List Byte) (e : Word) : State :=
  { State.reset with src := { bytes := bs, ending := .err e } }

/-- Reset, with dimensions and pixel words. -/
def withPicture (w h : Word) (pix : List Word) : State := { State.reset with inWidth := w, inHeight := h, pix := pix }

/-- Reset, with these host events. -/
def withHost (es : List HostEvent) : State := { State.reset with host := es }

/-- An ENCF of a 2×1 RGB565 frame that waits for its second pixel, the first one written. -/
def waiting : State :=
  { State.reset with
    status := { Status.reset with busy := true, state := .ePay }
    inWidth := 2, inHeight := 1, outCount := 26, expCount := 28, sink := List.replicate 26 0
    running := some { fmt := .rgb565, remaining := 1 } }

/-- Frame F1 of 95: its header. -/
def header1 : Header := { magic := 0x4C56474C, colorFormat := 0x12, flags := 0, width := 2, height := 1, stride := 4 }
/-- Frame F1 of 95. -/
def frame1 : FrameData := (header1, [0x00, 0xF8, 0xE0, 0x07])
/-- Frame F2 of 95: its header. -/
def header2 : Header := { magic := 0x4C56474C, colorFormat := 0x14, flags := 0, width := 1, height := 1, stride := 3 }
/-- Frame F2 of 95. -/
def frame2 : FrameData := (header2, [0x1F, 0x00, 0x80])
/-- A header with another magic. -/
def badHeader : Header := { header1 with magic := 0xCC56474C }

/-- The bytes of F1, as 95 writes them. -/
def bytes1 : List Byte :=
  [0x4C, 0x47, 0x56, 0x4C, 0x12, 0x00, 0x00, 0x00, 0x00, 0x00, 0x00, 0x00, 0x02, 0x00, 0x00, 0x00,
   0x01, 0x00, 0x00, 0x00, 0x04, 0x00, 0x00, 0x00, 0x00, 0xF8, 0xE0, 0x07]
/-- The bytes of F2, as 95 writes them. -/
def bytes2 : List Byte :=
  [0x4C, 0x47, 0x56, 0x4C, 0x14, 0x00, 0x00, 0x00, 0x00, 0x00, 0x00, 0x00, 0x01, 0x00, 0x00, 0x00,
   0x01, 0x00, 0x00, 0x00, 0x03, 0x00, 0x00, 0x00, 0x1F, 0x00, 0x80]

/-! ### Well-formedness -/

/-- Every command of the tables is well-formed; R93 admits every FMT. -/
theorem test_wf_admits : Instr.wf (.encfFmt 0xFF) = true ∧ Instr.wf .decsec = true := by decide
/-- R60: the width, the alignment and the range of an access are checked. -/
theorem test_wf_access_width : accessWf 0x30 2 = false := by decide
theorem test_wf_access_alignment : accessWf 0x32 4 = false := by decide
theorem test_wf_access_range : accessWf 0x100 4 = false ∧ accessWf 0xFC 4 = true := by decide

/-! ### Decoding, from R92, R93 and R94 -/

theorem test_decode_control : decodeWord 0x00000000 = .ok .nop ∧ decodeWord 0x00000001 = .ok .srst := by decide
theorem test_decode_color : decodeWord 0x00000010 = .ok .cvt565 ∧ decodeWord 0x00000011 = .ok .cvt565a8 := by decide
theorem test_decode_encf_auto : decodeWord 0x00000120 = .ok (.encfAuto false)
    ∧ decodeWord 0x00000320 = .ok (.encfAuto true) := by decide
theorem test_decode_encf_fmt : decodeWord 0x00120020 = .ok (.encfFmt 0x12)
    ∧ decodeWord 0x000F0020 = .ok (.encfFmt 0x0F) := by decide
theorem test_decode_container : decodeWord 0x00000021 = .ok .cencb ∧ decodeWord 0x00000022 = .ok .cence := by decide
theorem test_decode_decoders : decodeWord 0x00000030 = .ok .decf ∧ decodeWord 0x00000031 = .ok .decn
    ∧ decodeWord 0x00000032 = .ok .decs ∧ decodeWord 0x00000033 = .ok .decsec := by decide
/-- X5, X6, E18, E16, E17 of 95: one word for each case of R94. -/
theorem test_decode_illegal : decodeWord 0x00000002 = .error .unassignedOp
    ∧ decodeWord 0x00000130 = .error .reservedBits ∧ decodeWord 0x00001120 = .error .encfReservedBits
    ∧ decodeWord 0x00120120 = .error .autoWithFmt ∧ decodeWord 0x00000220 = .error .alphaWithoutAuto := by decide
theorem test_decode_table_word : decodeTableWord 32 0x00140020 = some (.encfFmt 0x14)
    ∧ decodeTableWord 16 0x00140020 = some (.encfFmt 0) := by decide

/-! ### One step per command, from the vectors of 95 -/

/-- X1. -/
theorem test_nop : (ran .nop State.reset).map (·.status.word) = some 0x04000002 := by decide
/-- X2: the counters that persist. -/
theorem test_nop_keeps_cursor :
    (ran .nop { State.reset with cursor := 52, framesDone := 1, evtOffset := 28 }).map
      (fun t => (t.cursor, t.framesDone, t.evtOffset)) = some (52, 0, 0) := by decide
/-- X3. -/
theorem test_srst : (ran .srst { State.reset with cursor := 55, frameCount := 3, secNum := 2 }).map
    (fun t => (t.status.word, t.cursor, t.frameCount, t.secNum)) = some (0, 0, 0, 0) := by decide
/-- V1, V2. -/
theorem test_cvt565 : (ran .cvt565 { State.reset with cvtIn := 0xFF563412 }).map
    (fun t => (t.cvtOut, t.status.word)) = some (0x000011AA, 0x04000002) := by decide
/-- V3. -/
theorem test_cvt565a8 : (ran .cvt565a8 { State.reset with cvtIn := 0x78563412 }).map (·.cvtOut)
    = some 0x007811AA := by decide
/-- E1: F1 is what the sink gets. -/
theorem test_encf_fmt : (ran (.encfFmt 0x12) (withPicture 2 1 [0xFF0000FF, 0xFF00FF00])).map
    (fun t => (t.sink, t.outCount, t.expCount, t.status.word)) = some (bytes1, 28, 28, 0x04000002) := by decide
/-- E14: the sink rejects byte 5. -/
theorem test_encf_fmt_rejected :
    (ran (.encfFmt 0x12) { withPicture 2 1 [0xFF0000FF, 0xFF00FF00] with
        sinkAnswers := List.replicate 5 .accept ++ [.reject 0xDEAD] }).map
      (fun t => (t.status.word, [t.evtOffset, t.outCount, t.expCount], t.sinkErr, t.sink, t.pixIndex))
      = some (0x05002106, [5, 5, 28], 0xDEAD, [0x4C, 0x47, 0x56, 0x4C, 0x12], 0) := by decide
/-- E3: F2 is what the sink gets. -/
theorem test_encf_auto : (ran (.encfAuto true) (withPicture 1 1 [0x80FF0000])).map
    (fun t => (t.sink, t.outCount, t.hdr.stride)) = some (bytes2, 27, 3) := by decide
/-- E7. -/
theorem test_encf_auto_bad_dim : (ran (.encfAuto true) (withPicture 1 0 [])).map (·.status.word)
    = some 0x05001206 := by decide
/-- K1. -/
theorem test_cencb : (ran .cencb { State.reset with outCount := 30, expCount := 55 }).map
    (fun t => (t.outCount, t.expCount, t.status.word)) = some (0, 0, 0x04000002) := by decide
/-- P7. -/
theorem test_cence_mismatch : (ran .cence { State.reset with outCount := 30, expCount := 55 }).map
    (fun t => (t.outCount, t.evtOffset, t.status.word)) = some (30, 30, 0x05001306) := by decide
/-- K3. -/
theorem test_cence : (ran .cence State.reset).map (·.status.word) = some 0x04000002 := by decide
/-- DF1. -/
theorem test_decf : (ran .decf (withBytes bytes1)).map (fun t => (t.records, t.cursor, t.status.word))
    = some ([{ sectionIdx := 0, index := 0, offset := 0, header := header1, payload := [0x00, 0xF8, 0xE0, 0x07] }],
        28, 0x04000002) := by decide
/-- DF4. -/
theorem test_decf_short : (ran .decf (withBytes (bytes1.take 10))).map (fun t => (t.cursor, t.status.word))
    = some (10, 0x050A0106) := by decide
/-- DN3. -/
theorem test_decn_trailing :
    (ran .decn { withBytes (bytes1 ++ bytes2 ++ bytes1) with frameCount := 2 }).map
      (fun t => (t.status.word, [t.evtOffset, t.cursor, t.trailCount], t.framesDone, t.records.map (·.offset)))
      = some (0x0400000A, [55, 83, 28], 2, [0, 28]) := by decide
/-- DN2. -/
theorem test_decn_too_few :
    (ran .decn { withBytes (bytes1 ++ bytes2) with frameCount := 3 }).map
      (fun t => (t.status.word, t.evtOffset, t.framesDone)) = some (0x05000406, 55, 2) := by decide
/-- S2. -/
theorem test_decs : (ran .decs (withBytes (bytes1 ++ bytes2 ++ bytes1 ++ [0xAA]))).map
    (fun t => (t.status.word, t.evtOffset, t.cursor, t.trailCount, t.framesDone))
      = some (0x0400000A, 83, 84, 1, 3) := by decide
/-- S4: a tail of 24 bytes is read as a header. -/
theorem test_decs_zero_tail : (ran .decs (withBytes (bytes1 ++ List.replicate 24 0))).map
    (fun t => (t.status.word, t.evtOffset, t.cursor, t.hdr)) = some (0x05000206, 28, 52, Header.zero) := by decide
/-- M2: a section of no frames between two others. -/
theorem test_decsec :
    (ran .decsec { withBytes (bytes1 ++ bytes2 ++ bytes1) with
        secNum := 3, secCount := [2, 0, 1] ++ List.replicate 13 0 }).map
      (fun t => (t.status.word, t.curSection, t.records.map fun r => (r.sectionIdx, r.index, r.offset)))
      = some (0x04000002, 2, [(0, 0, 0), (0, 1, 28), (2, 2, 55)]) := by decide
/-- M5: no section at all. -/
theorem test_decsec_none : (ran .decsec (withBytes (bytes1 ++ bytes2 ++ bytes1))).map
    (fun t => (t.status.word, t.trailCount, t.records)) = some (0x0400000A, 83, []) := by decide

/-! ### Steps of the host -/

/-- X4: an illegal word resets nothing. -/
theorem test_illegal_word : (stepped { withHost [.write 0 4 0x00000101] with outCount := 30 }).map
    (fun t => (t.status.word, t.outCount)) = some (0x05001006, 30) := by decide
/-- M6: SEC_NUM is write-any-read-legal. -/
theorem test_sec_num : (stepped (withHost [.write 0x68 4 40])).map (fun t => readWindow t 0x68) = some 16 := by
  decide
/-- P1: a command runs as the first step after reset. -/
theorem test_fetch : (stepped (State.withFetchWord { State.reset with cvtIn := 0x78563412 } 32 0x00000011)).map
    (·.cvtOut) = some 0x007811AA := by decide
/-- X9: a write while an ENCF waits is dropped. -/
theorem test_write_while_busy : (stepped { waiting with host := [.write 0x30 4 9] }).map
    (fun t => (t.inWidth, t.status.busy, t.status.wrWhileBusy)) = some (2, true, true) := by decide
/-- X9: once a word is ready the ENCF ends, with the flag. -/
theorem test_waiting_goes_on :
    (stepped { waiting with pix := [0xFF00FF00], status := { waiting.status with wrWhileBusy := true } }).map
      (fun t => (t.status.word, t.outCount)) = some (0x04000012, 28) := by decide
/-- R277: SRST starts the staged streams from the beginning. -/
theorem test_srst_streams :
    (ran .srst { State.reset with cursor := 7, staged := { src := { bytes := [1, 2], ending := .eos }, pix := [3] } }).map
      (fun t => (t.cursor, t.src.bytes, t.pix)) = some (0, [1, 2], [3]) := by decide

/-! ### Witnesses: for each statement with hypotheses, values that meet all of them together -/

theorem witness_DecodeInvertsEncode : Instr.wf (.encfFmt 0xFF) = true
    ∧ decodeWord 0x00FF0020 = .ok (.encfFmt 0xFF) := by decide

theorem witness_LegalWordMatchesOneRow :
    (0x00FF0020 : Word) &&& (tableRow (.encfFmt 0)).2 = (tableRow (.encfFmt 0)).1
    ∧ (0x00FF0020 : Word) &&& (tableRow (.encfFmt 0x12)).2 = (tableRow (.encfFmt 0x12)).1 := by decide

theorem witness_StepRunsTheCommandWritten :
    let s := withHost [.write 0 4 0x00000033]
    s.host = .write 0 4 0x00000033 :: [] ∧ s.status.busy = false ∧ s.running = none ∧ s.cut = none
    ∧ decodeWord 0x00000033 = .ok .decsec ∧ Instr.wf .decsec = true := by decide

theorem witness_IllegalWordRaisesIllegalCmd :
    let s := withHost [.write 0 4 0x00000101]
    s.host = .write 0 4 0x00000101 :: [] ∧ s.status.busy = false ∧ s.running = none ∧ s.cut = none
    ∧ decodeWord 0x00000101 = .error .reservedBits := by decide

/-- The offsets where the clauses meet: a read-only register, a read-write one, SEC_NUM, the last SEC_COUNT, the first
reserved offset after it, the last offset of the window. -/
theorem witness_HostWriteStoresOneRegister :
    ∀ off ∈ [0x04, 0x30, 0x68, 0xBC, 0xC0, 0xFC],
      let s := withHost [.write off 4 40]
      s.host = .write off 4 40 :: [] ∧ s.status.busy = false ∧ s.running = none
      ∧ off % 4 = 0 ∧ off < 0x100 ∧ off ≠ 0 := by decide

/-- What is read back at those offsets: R22, R38, R61. -/
theorem test_write_boundaries :
    ([0x04, 0x30, 0x68, 0xBC, 0xC0, 0xFC].map fun off =>
      (stepped (withHost [.write off 4 40])).map fun t => readWindow t off)
      = [some 0, some 40, some 16, some 40, some 0, some 0] := by decide

theorem witness_HostReadHasNoSideEffect :
    let s := withHost [.read 0xFC 4]
    s.host = .read 0xFC 4 :: [] ∧ s.status.busy = false ∧ s.running = none ∧ 0xFC % 4 = 0 ∧ 0xFC < 0x100 := by decide

/-- The clauses of the register map at the ends of their ranges, for 16 sections. -/
theorem witness_RegisterMap :
    let s := { State.reset with secCount := List.replicate 15 0 ++ [7] }
    readWindow s 0x70 = 0 ∧ readWindow s 0x7C = 0 ∧ s.secCount.length = 16 ∧ readWindow s (0x80 + 4 * 15) = 7
    ∧ readWindow s (0x80 + 4 * 16) = 0 ∧ readWindow s 0xFC = 0 := by decide

theorem witness_WriteWhileBusyIsDropped :
    let s := { waiting with host := [.write 0 4 1] }
    s.host = .write 0 4 1 :: [] ∧ s.status.busy = true ∧ s.pix = [] ∧ 0 % 4 = 0 ∧ 0 < 0x100 := by decide

theorem witness_ReadWhileBusyShowsBusy :
    let s := { waiting with host := [.read 4 4] }
    s.host = .read 4 4 :: [] ∧ s.status.busy = true ∧ s.pix = [] ∧ 4 % 4 = 0 ∧ 4 < 0x100 := by decide

theorem witness_MisshapenAccessIsRefused :
    (State.reset.pix = [] ∨ State.reset.running = none)
    ∧ ∀ a ∈ [(0x30, 2), (0x32, 4), (0x100, 4)], a.2 ≠ 4 ∨ a.1 % 4 ≠ 0 ∨ 0x100 ≤ a.1 := by decide

theorem witness_NoEventLeftIdleOrStuck :
    (State.reset.host = [] ∧ State.reset.status.busy = false ∧ State.reset.running = none)
    ∧ waiting.host = [] ∧ waiting.status.busy = true ∧ waiting.pix = [] := by decide

theorem witness_PowerOnResetEqualsSrst :
    let s := { waiting with host := [.powerOn] }
    s.host = .powerOn :: [] ∧ (s.pix = [] ∨ s.running = none) ∧ s.overlap = [] := by decide

theorem witness_PowerOnInsideCommandResets :
    let s := { withPicture 2 1 [0xFF0000FF, 0xFF00FF00] with cut := some 5, host := [.write 0 4 0x00120020] }
    s.host = .write 0 4 0x00120020 :: [] ∧ s.status.busy = false ∧ s.running = none ∧ s.cut = some 5
    ∧ decodeWord 0x00120020 = .ok (.encfFmt 0x12)
    ∧ (ran (.encfFmt 0x12) { s with host := [] }).isSome = true := by decide

/-- R46, R250, R270: the five bytes that were out stay. -/
theorem test_power_on_within :
    (stepped { withPicture 2 1 [0xFF0000FF, 0xFF00FF00] with cut := some 5, host := [.write 0 4 0x00120020] }).map
      (fun t => (t.sink, t.outCount, t.inWidth, t.status.word)) = some ([0x4C, 0x47, 0x56, 0x4C, 0x12], 0, 0, 0) := by
  decide

theorem witness_Rgb565PacksTopBits :
    (0xFF : Byte).extractLsb' 3 5 = (0xF8 : Byte).extractLsb' 3 5
    ∧ (0xFF : Byte).extractLsb' 2 6 = (0xFC : Byte).extractLsb' 2 6 := by decide

/-- The first byte of a header and its last. -/
theorem witness_HeaderMarshalInverse :
    (bytes1.take 24).length = 24 ∧ header1.magic = frameMagic ∧ (0 < 6 ∧ 0 < 4) ∧ 5 < 6 ∧ 3 < 4 := by decide

theorem witness_EncfSucceeds :
    let s := withPicture 2 1 [0xFF0000FF, 0xFF00FF00]
    encodesIn (.encfAuto false) .rgb565 ∧ goodDimensions .rgb565 s
    ∧ s.inWidth.toNat * s.inHeight.toNat ≤ s.pix.length ∧ sinkAccepts s (24 + 1 * 4)
    ∧ s.outCount.toNat + 28 < 2 ^ 64 ∧ s.expCount.toNat + 28 < 2 ^ 64 := by
  unfold encodesIn goodDimensions sinkAccepts
  decide

/-- The other three words of R93. -/
theorem witness_EncfSucceeds_forms :
    encodesIn (.encfAuto true) .rgb565a8 ∧ encodesIn (.encfFmt 0x12) .rgb565
    ∧ encodesIn (.encfFmt 0x14) .rgb565a8 := by
  unfold encodesIn
  decide

theorem witness_PixelStandsAtItsPlace :
    1 * 2 + 1 < [0x00000000, 0xFFFFFFFF, 0x7F0000FF, (0x01FC00F8 : Word)].length ∧ 1 < 2
    ∧ 2 < PixelFormat.bpp .rgb565a8 := by decide

theorem witness_EncfFmtUnsupported : (0x0F : BitVec 8) ≠ 0x12 ∧ (0x0F : BitVec 8) ≠ 0x14 := by decide

/-- E6, E7, E11: one picture for each clause. -/
theorem witness_EncfBadDimensions :
    encodesIn (.encfFmt 0x12) .rgb565 ∧ (withPicture 0 1 []).inWidth = 0 ∧ (withPicture 1 0 []).inHeight = 0
    ∧ (withPicture 0x80000000 1 []).inWidth.toNat * 2 > 0xFFFFFFFF := by
  unfold encodesIn
  decide

/-- The first byte, E14, E15 and the last byte of a frame. -/
theorem witness_EncfSinkRejects :
    encodesIn (.encfFmt 0x12) .rgb565 ∧
    ∀ k ∈ [0, 5, 24, 27],
      let s := { withPicture 2 1 [0xFF0000FF, 0xFF00FF00] with
        sinkAnswers := List.replicate k .accept ++ [.reject 7] }
      goodDimensions .rgb565 s ∧ (if k < 24 then 0 else (k - 24) / PixelFormat.bpp .rgb565 + 1) ≤ s.pix.length
      ∧ k < encodedLength .rgb565 s ∧ sinkAccepts s k ∧ sinkAnswerAt s k = .reject 7
      ∧ s.outCount.toNat + k < 2 ^ 64 ∧ s.expCount.toNat + encodedLength .rgb565 s < 2 ^ 64 := by
  unfold encodesIn goodDimensions sinkAccepts
  decide

/-- ENCF with no word ready, and with one of two. -/
theorem witness_EncfWaitsAndGoesOn_waits :
    encodesIn (.encfFmt 0x12) .rgb565 ∧
    ∀ pix ∈ [[], [0xFF0000FF]],
      let s := withPicture 2 1 pix
      goodDimensions .rgb565 s ∧ s.pix.length < s.inWidth.toNat * s.inHeight.toNat
      ∧ sinkAccepts s (24 + s.pix.length * PixelFormat.bpp .rgb565)
      ∧ s.outCount.toNat + (24 + s.pix.length * PixelFormat.bpp .rgb565) < 2 ^ 64
      ∧ s.expCount.toNat + encodedLength .rgb565 s < 2 ^ 64 := by
  unfold encodesIn goodDimensions sinkAccepts
  decide

theorem witness_EncfWaitsAndGoesOn :
    isEncode (.encfFmt 0x12)
    ∧ (ran (.encfFmt 0x12) (withPicture 2 1 [0xFF0000FF])).map (·.running)
      = some (some { fmt := .rgb565, remaining := 1 }) :=
  ⟨Or.inr ⟨_, rfl⟩, by decide⟩

theorem witness_StepResumesWaitingEncode :
    let s := { waiting with host := [.pixels [0xFF00FF00]] }
    s.running = some { fmt := .rgb565, remaining := 1 } ∧ s.pix = [] ∧ s.cut = none
    ∧ s.host = .pixels [0xFF00FF00] :: []
    ∧ ([0xFF00FF00] : List Word) ≠ [] := by decide

theorem witness_EncfFrame : isEncode (.encfAuto true)
    ∧ (ran (.encfAuto true) (withPicture 1 1 [0x80FF0000])).isSome = true :=
  ⟨Or.inl ⟨_, rfl⟩, by decide⟩

theorem witness_CountsAgreeUnlessSinkRejects : isEncode (.encfAuto true)
    ∧ (ran (.encfAuto true) (withPicture 1 1 [0x80FF0000])).map
        (fun t => decide (t.status.code ≠ .sinkIo ∧ t.running = none)) = some true :=
  ⟨Or.inl ⟨_, rfl⟩, by decide⟩

theorem witness_DecfDecodesFrame :
    let s := withBytes (bytes1 ++ bytes2)
    s.src.bytes = frameBytes header1 frame1.2 ++ bytes2 ∧ header1.magic = frameMagic
    ∧ frame1.2.length = payloadLength header1 ∧ s.cursor.toNat + (24 + frame1.2.length) < 2 ^ 64 := by decide

theorem witness_DecfTruncatedHeader :
    ∀ n ∈ [0, 23], let s := withBytes (bytes1.take n)
      s.src.bytes.length < 24 ∧ s.src.ending = .eos ∧ s.cursor.toNat + s.src.bytes.length < 2 ^ 64 := by decide

theorem witness_DecfInvalidMagic :
    let s := withBytes (packHeader badHeader)
    s.src.bytes = packHeader badHeader ++ [] ∧ badHeader.magic ≠ frameMagic ∧ s.cursor.toNat + 24 < 2 ^ 64 := by
  decide

theorem witness_DecfTruncatedPayload :
    ∀ got ∈ [[], [0x00, 0xF8, 0xE0]], let s := withBytes (packHeader header1 ++ got)
      s.src.bytes = packHeader header1 ++ got ∧ s.src.ending = .eos ∧ header1.magic = frameMagic
      ∧ got.length < payloadLength header1 ∧ s.cursor.toNat + (24 + got.length) < 2 ^ 64 := by decide

/-- DF12 and DF13: one source for each clause, and the longest short header. -/
theorem witness_DecfSourceFails :
    (∀ n ∈ [0, 10, 23], let s := withFailingBytes (bytes1.take n) 0x55
      s.src.ending = .err 0x55 ∧ s.cursor.toNat + s.src.bytes.length < 2 ^ 64 ∧ s.src.bytes.length < 24)
    ∧ (let s := withFailingBytes (bytes1.take 26) 0x66
      s.src.ending = .err 0x66 ∧ s.cursor.toNat + s.src.bytes.length < 2 ^ 64
      ∧ s.src.bytes = packHeader header1 ++ [0x00, 0xF8] ∧ header1.magic = frameMagic
      ∧ ([0x00, 0xF8] : List Byte).length < payloadLength header1) := by decide

theorem witness_EncodeThenDecodeRoundTrip :
    encodesIn (.encfFmt 0x12) .rgb565
    ∧ (ran (.encfFmt 0x12) (withPicture 2 1 [0xFF0000FF, 0xFF00FF00])).map
        (fun t => decide (t.status.code = .ok ∧ t.running = none
          ∧ (withBytes (bytes1 ++ [0xAA])).src.bytes = t.sink.drop 0 ++ [0xAA]
          ∧ (withBytes (bytes1 ++ [0xAA])).cursor.toNat + (24 + payloadLength t.hdr) < 2 ^ 64)) = some true := by
  unfold encodesIn
  decide

theorem witness_DecodeFrame : ∀ i ∈ [Instr.decf, .decn, .decs, .decsec],
    (ran i (withBytes bytes1)).isSome = true := by decide

theorem witness_DecnDecodesContainer :
    (∀ f ∈ [frame1, frame2], FrameData.ok f) ∧
    ∀ tail ∈ [[], [0xAA]],
      let s := { withBytes (bytes1 ++ bytes2 ++ tail) with frameCount := 2 }
      s.frameCount.toNat = [frame1, frame2].length ∧ s.src.bytes = containerBytes [frame1, frame2] ++ tail
      ∧ s.src.ending = .eos ∧ s.cursor.toNat + s.src.bytes.length < 2 ^ 64 := by
  unfold FrameData.ok
  decide

/-- F1 and then these bytes, where a second frame is wanted: by FRAME_COUNT, and in section 1 of two. -/
def afterFrame1 (tail : List Byte) (ending : SourceEnd) : State :=
  { State.reset with
    src := { bytes := bytes1 ++ tail, ending := ending }
    frameCount := 2, secNum := 2, secCount := [1, 1] ++ List.replicate 14 0 }

/-- The three commands stand before a second frame there. -/
theorem witness_wantsFrameAfter (tail : List Byte) (ending : SourceEnd) :
    wantsFrameAfter .decn (afterFrame1 tail ending) [[frame1]]
    ∧ wantsFrameAfter .decs (afterFrame1 tail ending) [[frame1]]
    ∧ wantsFrameAfter .decsec (afterFrame1 tail ending) [[frame1], []] :=
  ⟨Or.inl ⟨rfl, _, rfl, show 1 < 2 by decide⟩, Or.inr (Or.inl ⟨rfl, _, rfl⟩),
    Or.inr (Or.inr ⟨rfl, [[frame1]], [], 1, [], rfl, by decide, by simp [afterFrame1]⟩)⟩

/-- For DECN and DECSEC: no byte after the first frame, and 23 of them. -/
theorem witness_CountedDecodeFindsTooFewFrames :
    Instr.decn ≠ .decs ∧ Instr.decsec ≠ .decs ∧ (∀ f ∈ [[frame1], []].flatten, FrameData.ok f)
    ∧ [[frame1], []].flatten.length < 2 ^ 32 ∧
    ∀ tail ∈ [[], bytes2.take 23],
      let s := afterFrame1 tail .eos
      s.src.bytes = containerBytes [[frame1]].flatten ++ tail
      ∧ s.src.bytes = containerBytes [[frame1], []].flatten ++ tail ∧ tail.length < 24
      ∧ s.src.ending = .eos ∧ s.cursor.toNat + s.src.bytes.length < 2 ^ 64 := by
  unfold FrameData.ok
  decide

/-- W6 of 95 for another magic; a payload cut short and one that fails at its first byte and at its last; a source that
fails at the boundary and at the last byte of a header. -/
theorem witness_ContainerFrameErrorAborts :
    (∀ f ∈ [[frame1], []].flatten, FrameData.ok f) ∧ [[frame1], []].flatten.length < 2 ^ 32
    ∧ containerBytes [[frame1], []].flatten = bytes1 ∧ containerBytes [[frame1]].flatten = bytes1
    ∧ (let s := afterFrame1 (packHeader badHeader ++ [1]) .eos
       badHeader.magic ≠ frameMagic ∧ s.src.bytes = bytes1 ++ (packHeader badHeader ++ [1])
       ∧ s.cursor.toNat + s.src.bytes.length < 2 ^ 64)
    ∧ (∀ got ∈ [[], [0x00, 0xF8, 0xE0]], ∀ ending ∈ [.eos, .err 9],
       let s := afterFrame1 (packHeader header1 ++ got) ending
       header1.magic = frameMagic ∧ got.length < payloadLength header1 ∧ s.src.ending = ending
       ∧ s.src.bytes = bytes1 ++ (packHeader header1 ++ got) ∧ s.cursor.toNat + s.src.bytes.length < 2 ^ 64)
    ∧ (∀ tail ∈ [[], bytes1.take 23],
       let s := afterFrame1 tail (.err 9)
       tail.length < 24 ∧ s.src.ending = .err 9 ∧ s.src.bytes = bytes1 ++ tail
       ∧ s.cursor.toNat + s.src.bytes.length < 2 ^ 64) := by
  unfold FrameData.ok
  decide

/-- DN10, and the same in two sections. -/
theorem witness_CountedDecodeSourceFailsInDrain :
    let s := { withFailingBytes (bytes1 ++ [0xAA]) 9 with
      frameCount := 1, secNum := 2, secCount := [1, 0] ++ List.replicate 14 0 }
    wantsExactly .decn s [[frame1]] ∧ wantsExactly .decsec s [[frame1], []]
    ∧ (∀ f ∈ [[frame1], []].flatten, FrameData.ok f) ∧ [[frame1], []].flatten.length < 2 ^ 32
    ∧ s.src.bytes = containerBytes [[frame1]].flatten ++ [0xAA]
    ∧ s.src.bytes = containerBytes [[frame1], []].flatten ++ [0xAA] ∧ s.src.ending = .err 9
    ∧ s.cursor.toNat + s.src.bytes.length < 2 ^ 64 := by
  refine ⟨Or.inl ⟨rfl, _, rfl, by decide⟩, Or.inr ⟨rfl, by decide⟩, ?_⟩
  unfold FrameData.ok
  decide

/-- S1, S3: no byte after the frames, and 23 of them. -/
theorem witness_DecsDecodesContainer :
    (∀ f ∈ [frame1, frame2], FrameData.ok f) ∧ [frame1, frame2] ≠ [] ∧ [frame1, frame2].length < 2 ^ 32 ∧
    ∀ tail ∈ [[], List.replicate 23 0],
      let s := withBytes (bytes1 ++ bytes2 ++ tail)
      tail.length < 24 ∧ s.src.bytes = containerBytes [frame1, frame2] ++ tail ∧ s.src.ending = .eos
      ∧ s.cursor.toNat + s.src.bytes.length < 2 ^ 64 := by
  unfold FrameData.ok
  decide

/-- S5, S6 and the longest short header. -/
theorem witness_DecsNeedsAFirstFrame :
    ∀ n ∈ [0, 5, 23], let s := withBytes (bytes1.take n)
      s.src.bytes.length < 24 ∧ s.src.ending = .eos ∧ s.cursor.toNat + s.src.bytes.length < 2 ^ 64 := by decide

/-- M2, and the full table: 16 sections. -/
theorem witness_DecsecDecodesSections :
    (∀ fs ∈ [[frame1, frame2], [], [frame1]], ∀ f ∈ fs, FrameData.ok f) ∧
    (let s := { withBytes (bytes1 ++ bytes2 ++ bytes1) with
        secNum := 3, secCount := [2, 0, 1] ++ List.replicate 13 0 }
     s.secNum.toNat = [[frame1, frame2], [], [frame1]].length ∧ 3 ≤ s.secCount.length
     ∧ (s.secCount.take 3).map BitVec.toNat = [[frame1, frame2], [], [frame1]].map List.length
     ∧ ([[frame1, frame2], [], [frame1]].map List.length).sum < 2 ^ 32
     ∧ s.src.bytes = containerBytes [[frame1, frame2], [], [frame1]].flatten ++ [] ∧ s.src.ending = .eos
     ∧ s.cursor.toNat + s.src.bytes.length < 2 ^ 64) := by
  unfold FrameData.ok
  decide

/-- A waiting ENCF, and a step that it takes. -/
theorem witness_StepKeepsInvariant :
    let s := { waiting with host := [.stage State.reset.staged] }
    s.Inv ∧ step s = .next waiting := by
  refine ⟨⟨?_, ?_, ⟨?_, ?_, ?_⟩, ?_, ?_, ?_⟩, rfl⟩
  · unfold statusInv
    decide
  · unfold resultInv
    decide
  · decide
  · rintro _ ⟨⟩
    decide
  · decide
  · unfold historyInv
    decide
  · intro r h
    cases h
  · unfold rangeInv
    decide

theorem witness_HistoriesOnlyGrow :
    (stepped { withBytes bytes1 with host := [.write 0 4 0x00000030] }).isSome = true := by decide

theorem witness_CursorCountsBytesConsumed :
    let s := { withBytes bytes1 with host := [.write 0 4 0x00000030] }
    (stepped s).isSome = true ∧ s.cut = none ∧ (∀ rest, s.host ≠ .powerOn :: rest)
    ∧ ∀ rest off width w, s.host = .write off width w :: rest → decodeWord w ≠ .ok .srst := by
  refine ⟨by decide, rfl, by rintro rest ⟨⟩, ?_⟩
  rintro rest off width w ⟨⟩
  decide

theorem witness_CommandsKeepHostSettings : Instr.decsec ≠ .srst ∧ (ran .decsec (withBytes bytes1)).isSome = true := by
  decide

/-- Each clause: a command that succeeds, one that fails, one that waits. -/
theorem witness_CommandsCompleteOrWait :
    Instr.nop ≠ .srst ∧ (ran .nop State.reset).isSome = true
    ∧ Instr.decf ≠ .srst ∧ (ran .decf State.reset).isSome = true
    ∧ Instr.encfFmt 0x12 ≠ .srst ∧ (ran (.encfFmt 0x12) (withPicture 2 1 [])).isSome = true := by decide

theorem witness_StatusIsNoInput : State.reset.overlap = [] := by decide

/-- With a read of STATUS (register 1) among the accesses, for SRST and another command. -/
theorem witness_AccessesWhileBusyOnlyFlag :
    (ran .decn { withBytes bytes1 with overlap := [] }).isSome = true
    ∧ (ran .srst { withBytes bytes1 with overlap := [] }).isSome = true
    ∧ (ran .decn { withBytes bytes1 with overlap := [.write 12 1, .read 1] }).map (fun t => t.readLog.map Prod.fst)
      = some [4] := by decide

/-- One counter just past its width for each clause. -/
theorem witness_CounterOverflowIsRefused :
    (let s := { withBytes bytes1 with cursor := 0xFFFFFFFFFFFFFFE8 }
     24 ≤ s.src.bytes.length ∧ 2 ^ 64 ≤ s.cursor.toNat + 24)
    ∧ encodesIn (.encfFmt 0x12) .rgb565
    ∧ (let s := { withPicture 2 1 [] with expCount := 0xFFFFFFFFFFFFFFE4 }
       goodDimensions .rgb565 s ∧ 2 ^ 64 ≤ s.expCount.toNat + encodedLength .rgb565 s)
    ∧ (let s := { withPicture 2 1 [] with outCount := 0xFFFFFFFFFFFFFFFF }
       goodDimensions .rgb565 s ∧ s.expCount.toNat + encodedLength .rgb565 s < 2 ^ 64
       ∧ s.outCount.toNat = 2 ^ 64 - 1 ∧ sinkAnswerAt s 0 = .accept)
    ∧ ({ State.reset with framesDone := 0xFFFFFFFF } : State).framesDone.toNat = 2 ^ 32 - 1 := by
  unfold encodesIn goodDimensions
  decide

end Sys2Proof.Tests
end

section
/-! Proofs of 10_state: which register stands at each offset, where the fields of STATUS stand, and what a reset leaves
in the window (O9, O10, O15). -/
namespace Sys2Proof.Machine

/-- The halves of a 64-bit register, put together again (R41). -/
@[simp] theorem highHalf_append_lowHalf (v : Count) : highHalf v ++ lowHalf v = v :=
  BitVec.extractLsb'_append_extractLsb'_eq_extractLsb' rfl |>.trans (BitVec.extractLsb'_eq_self)

/-- Between CUR_SECTION and the section table the window is reserved (R22). -/
theorem regAt_gap {n off : Nat} (hlo : 0x70 ≤ off) (hhi : off ≤ 0x7C) : regAt n off = .reserved := by
  rw [regAt_low 0 (by omega)]
  interval_cases off <;> rfl

/-- Every register of the window reads 0 after a reset (R44, R221). -/
theorem regValue_resetBlock (s : State) (r : Reg) : regValue (resetBlock s) r = 0 := by
  cases r with
  | status =>
    change Status.reset.word = 0
    decide
  | secCount i => simp [regValue]
  | evtOffsetLo | evtOffsetHi | cursorLo | cursorHi | outCountLo | outCountHi | expCountLo | expCountHi | trailCountLo
  | trailCountHi =>
    change BitVec.extractLsb' _ 32 (0 : Count) = 0
    decide
  | _ => rfl

/-- The state after power-on is one that a reset leaves. -/
theorem resetBlock_reset : resetBlock State.reset = State.reset := rfl

/-- The flags of STATUS (R24). -/
theorem word_flags (st : Status) :
    st.word.getLsbD 0 = st.busy ∧ st.word.getLsbD 1 = st.done ∧ st.word.getLsbD 2 = st.err
    ∧ st.word.getLsbD 3 = st.warnTrail ∧ st.word.getLsbD 4 = st.wrWhileBusy := by
  simp only [Status.word, BitVec.getLsbD_append]
  simp

/-- The fields of STATUS and the reserved bits between them (R24). -/
theorem word_fields (st : Status) :
    st.word.extractLsb' 5 3 = 0 ∧ st.word.extractLsb' 8 8 = st.code.num ∧ st.word.extractLsb' 16 5 = st.hdrAvail
    ∧ st.word.extractLsb' 21 3 = 0 ∧ st.word.extractLsb' 24 4 = st.state.num ∧ st.word.extractLsb' 28 4 = 0 := by
  refine ⟨?_, ?_, ?_, ?_, ?_, ?_⟩ <;>
  · apply BitVec.eq_of_getLsbD_eq
    intro i hi
    simp only [Status.word, BitVec.getLsbD_extractLsb', BitVec.getLsbD_append]
    interval_cases i <;> simp

/-- Settles O9: each offset by the register map, the 64-bit registers as the halves they are read in. -/
theorem registerMap : Obligations.RegisterMap := by
  intro s
  refine ⟨rfl, rfl, highHalf_append_lowHalf _, highHalf_append_lowHalf _, highHalf_append_lowHalf _,
    highHalf_append_lowHalf _, highHalf_append_lowHalf _, rfl, rfl, rfl, rfl, rfl, rfl, rfl, rfl, rfl, rfl, rfl, rfl, rfl,
    rfl, rfl, rfl, ?reservedGap, ?sections, ?reservedTail⟩
  case reservedGap =>
    intro off hlo hhi
    rw [readWindow, regAt_gap hlo hhi, regValue]
  case sections =>
    intro i hi
    rw [readWindow, regAt_secCount hi, regValue, List.getD_eq_getElem _ _ hi]
  case reservedTail =>
    intro off hlo _
    rw [readWindow, regAt_reserved hlo, regValue]

/-- Settles O10: the fields as `Status.word` puts them together, and the numbers one by one. -/
theorem statusFieldsStandWhereR24Says : Obligations.StatusFieldsStandWhereR24Says := by
  intro st
  obtain ⟨hbusy, hdone, herr, hwarn, hwr⟩ := word_flags st
  obtain ⟨hlow, hcode, havail, hmid, hstate, hhigh⟩ := word_fields st
  refine ⟨hbusy, hdone, herr, hwarn, hwr, hlow, hcode, havail, hmid, hstate, hhigh, ?codes, ?states⟩
  case codes =>
    rw [hcode]
    cases st.code <;> decide
  case states =>
    rw [hstate]
    cases st.state <;> decide

/-- Settles O15: the state after power-on is one that a reset leaves, and there every register reads 0. -/
theorem resetRegistersAreZero : Obligations.ResetRegistersAreZero :=
  ⟨fun off => resetBlock_reset ▸ regValue_resetBlock State.reset (regAt _ off), rfl, rfl, rfl⟩

end Sys2Proof.Machine
end

section
/-! Proofs of 10_state: what ENCF refuses, and the refusal of a counter past its width at the primitive that moves it
(O52). -/
namespace Sys2Proof.Machine

theorem supportedFormat_eq_some {code : Word} {fmt : PixelFormat} (h : supportedFormat code = some fmt) :
    code = fmt.code := by
  unfold supportedFormat at h
  split at h
  · cases h; assumption
  · split at h
    · cases h; assumption
    · cases h

/-- ENCF with a code that has no conversion (R152). -/
theorem encodeCommand_unsupported {code : Word} (h : supportedFormat code = none) (s : State) :
    encodeCommand code s = .stopped (raiseError .unsupportedFmt s.outCount s) := by
  simp only [encodeCommand, h]

/-- ENCF with dimensions it refuses (R151). -/
theorem encodeCommand_badDimensions {fmt : PixelFormat} {s : State} (hg : ¬ goodDimensions fmt s) :
    encodeCommand fmt.code s = .stopped (raiseError .badDim s.outCount s) := by
  rw [← badDimensions_eq_false_iff, Bool.not_eq_false] at hg
  simp only [encodeCommand, supportedFormat_code, hg, if_true]

/-- R33, D24: a record past the width of FRAMES_DONE. -/
theorem recEmit_overflows {s : State} (rec : Record) (h : s.framesDone.toNat = 2 ^ 32 - 1) :
    recEmit rec s = .refused (.counterOverflow .framesDone) :=
  if_neg (by omega)

/-- R27, D24: a read past the width of CURSOR. -/
theorem srcRead_overflows {k : Nat} {s : State} (hk : k ≤ s.src.bytes.length) (hc : 2 ^ 64 ≤ s.cursor.toNat + k) :
    srcRead k s = .refused (.counterOverflow .cursor) :=
  if_neg (by rw [List.length_take, Nat.min_eq_left hk]; omega)

/-- D24: an accepted byte past the width of OUT_COUNT. -/
theorem sinkByte_overflows {s : State} (b : Byte) (ha : sinkAnswerAt s 0 = .accept) (hc : s.outCount.toNat = 2 ^ 64 - 1) :
    sinkByte b s = .refused (.counterOverflow .outCount) := by
  have h : ¬ s.outCount.toNat + 1 < 2 ^ 64 := by omega
  simp [sinkByte, sinkAnswerAt_zero, ha, h, -Nat.reducePow]

/-- D24: a frame whose length would move EXP_COUNT past its width. -/
theorem encodeCommand_overflows {fmt : PixelFormat} {s : State} (hg : goodDimensions fmt s)
    (hc : 2 ^ 64 ≤ s.expCount.toNat + frameLength (encodedHeader fmt s.inWidth s.inHeight)) :
    encodeCommand fmt.code s = .refused (.counterOverflow .expCount) := by
  have hb := (badDimensions_eq_false_iff fmt s).mpr hg
  simp only [encodeCommand, supportedFormat_code, hb, encodeFrame, addExpected]
  rw [if_neg (Nat.not_lt.mpr hc)]
  rfl

/-- The length of the frame that ENCF writes, as its dimensions give it (R108, R150). -/
theorem frameLength_eq_encodedLength {fmt : PixelFormat} {s : State} (hg : goodDimensions fmt s) :
    frameLength (encodedHeader fmt s.inWidth s.inHeight) = encodedLength fmt s := by
  rw [frameLength_encodedHeader hg, encodedLength]
  ring

/-- Settles O52: each counter at the primitive that moves it. -/
theorem counterOverflowIsRefused : Obligations.CounterOverflowIsRefused := by
  refine ⟨?cursor, ?expCount, ?outCount, ?framesDone⟩
  case cursor =>
    intro s hl hc
    have h := srcRead_overflows (s := setBlockState .rdHdr (startCommand [.rdHdr, .valMagic, .rdPay] false s)) hl hc
    change (decodeOne _).outcome = _
    rw [decodeOne, decodeAt, show headerLength = 24 from rfl, h]
    rfl
  case expCount =>
    intro s i fmt hi hg hc
    rw [← frameLength_eq_encodedLength hg] at hc
    rw [exec_of_encodesIn hi, encodeCommand_overflows (s := encodeStart s) hg hc]
    rfl
  case outCount =>
    intro s i fmt hi hg hc ho ha
    rw [← frameLength_eq_encodedLength hg] at hc
    rw [exec_of_encodesIn hi, encodeCommand_eq (s := encodeStart s) hg hc]
    have h : ∀ b bs, sinkWrite (b :: bs) (headerStart fmt (encodeStart s)) = .refused (.counterOverflow .outCount) := by
      intro b bs
      rw [sinkWrite, sinkByte_overflows (s := headerStart fmt (encodeStart s)) b ha ho, Run.bind_refused]
    exact congrArg (fun x => Run.outcome (Run.bind x _)) (h _ _)
  case framesDone =>
    intro s rec h
    rw [recEmit_overflows rec h]

end Sys2Proof.Machine
end

section
/-! Proofs of 10_state: no command reads STATUS (O59). -/
namespace Sys2Proof.Machine

/-- Without host accesses, only STATE of the STATUS before a command survives its start (R42). -/
theorem startCommand_of_status (seen : List BlockState) (mayWarn : Bool) {s : State} (st : Status) (h : s.overlap = []) :
    startCommand seen mayWarn { s with status := st } = setBlockState st.state (startCommand seen mayWarn s) := by
  simp only [startCommand, setBlockState, h, busyReads, afterAccesses_eq]
  rfl

/-- ENCF sets STATE before it can wait in it, and an error sets its own (R150, R235). -/
theorem encodeCommand_setBlockState (code : Word) (b : BlockState) (s : State) :
    encodeCommand code (setBlockState b s) = encodeCommand code s := by
  cases h : supportedFormat code with
  | none =>
    rw [encodeCommand_unsupported h, encodeCommand_unsupported h]
    rfl
  | some fmt =>
    obtain rfl := supportedFormat_eq_some h
    by_cases hg : goodDimensions fmt s
    · by_cases hc : s.expCount.toNat + frameLength (encodedHeader fmt s.inWidth s.inHeight) < 2 ^ 64
      · rw [encodeCommand_eq hg hc, encodeCommand_eq (s := setBlockState b s) hg hc]
        rfl
      · rw [encodeCommand_overflows hg (Nat.not_lt.mp hc),
          encodeCommand_overflows (s := setBlockState b s) hg (Nat.not_lt.mp hc)]
    · rw [encodeCommand_badDimensions hg, encodeCommand_badDimensions (s := setBlockState b s) hg]
      rfl

/-- DecodeCounted sets STATE before it ends, in its drain at the latest (R184, R188). -/
theorem decodeCounted_setBlockState (counts : List Word) (b : BlockState) (s : State) :
    decodeCounted counts (setBlockState b s) = decodeCounted counts s := by
  suffices h : ∀ i, (decodeSections i counts (setBlockState b s)).bind (fun _ t => drainTrailing t)
      = (decodeSections i counts s).bind fun _ t => drainTrailing t from h 0
  induction counts generalizing s with
  | nil => exact fun _ => rfl
  | cons c cs ih =>
    intro i
    rw [decodeSections, decodeSections]
    cases c.toNat with
    | zero => exact ih { s with curSection := BitVec.ofNat 32 i } (i + 1)
    | succ n => rfl

/-- A command is its start and then a body that does not read STATE: every body sets STATE, or ends, first. -/
theorem exec_eq_body (i : Instr) : ∃ seen mayWarn, ∃ body : State → Host.Outcome State Fault Refusal,
    (∀ s, exec i s = body (startCommand seen mayWarn s)) ∧ ∀ b s, body (setBlockState b s) = body s := by
  cases i with
  | nop => exact ⟨_, _, fun u => .next (finish u), fun _ => rfl, fun _ _ => rfl⟩
  | srst => exact ⟨_, _, fun u => .next (resetBlock u), fun _ => rfl, fun _ _ => rfl⟩
  | cvt565 =>
    exact ⟨_, _, fun u => .next (finish { setBlockState .cvt u with
      cvtOut := (rgb565 (pixelR u.cvtIn) (pixelG u.cvtIn) (pixelB u.cvtIn)).setWidth 32 }), fun _ => rfl, fun _ _ => rfl⟩
  | cvt565a8 =>
    exact ⟨_, _, fun u => .next (finish { setBlockState .cvt u with
      cvtOut := (rgb565 (pixelR u.cvtIn) (pixelG u.cvtIn) (pixelB u.cvtIn)).setWidth 32
        ||| ((pixelA u.cvtIn).setWidth 32 <<< 16) }), fun _ => rfl, fun _ _ => rfl⟩
  | encfAuto a =>
    exact ⟨_, _, fun u => (encodeCommand _ u).outcome, fun _ => rfl,
      fun b s => congrArg Run.outcome (encodeCommand_setBlockState _ b s)⟩
  | encfFmt f =>
    exact ⟨_, _, fun u => (encodeCommand _ u).outcome, fun _ => rfl,
      fun b s => congrArg Run.outcome (encodeCommand_setBlockState _ b s)⟩
  | cencb => exact ⟨_, _, fun u => .next (finish { u with outCount := 0, expCount := 0 }), fun _ => rfl, fun _ _ => rfl⟩
  | cence =>
    exact ⟨_, _, fun u => if u.outCount ≠ u.expCount
      then .next (raiseError .lenMismatch u.outCount (setBlockState .cCheck u))
      else .next (finish (setBlockState .cCheck u)), fun _ => rfl, fun _ _ => rfl⟩
  | decf => exact ⟨_, _, fun u => (decodeOne u).outcome, fun _ => rfl, fun _ _ => rfl⟩
  | decn =>
    exact ⟨_, _, fun u => (decodeCounted [u.frameCount] u).outcome, fun _ => rfl,
      fun b s => congrArg Run.outcome (decodeCounted_setBlockState [s.frameCount] b s)⟩
  | decs => exact ⟨_, _, fun u => (decodeScan (u.src.bytes.length + 1) u).outcome, fun _ => rfl, fun _ _ => rfl⟩
  | decsec =>
    exact ⟨_, _, fun u => (decodeCounted (u.secCount.take u.secNum.toNat) u).outcome, fun _ => rfl,
      fun b s => congrArg Run.outcome (decodeCounted_setBlockState (s.secCount.take s.secNum.toNat) b s)⟩

/-- Settles O59: of STATUS only STATE survives a command's start, and no command's body reads it. -/
theorem statusIsNoInput : Obligations.StatusIsNoInput := by
  intro s i st h
  obtain ⟨seen, mayWarn, body, hexec, hbody⟩ := exec_eq_body i
  rw [hexec, hexec, startCommand_of_status seen mayWarn st h, hbody]

end Sys2Proof.Machine
end

section
/-! What every command but SRST does, said once: the relation between the state it began in and the one it ends in
(10_state, R42, R43, R46, R235, R236). -/
namespace Sys2Proof.Machine

/-! ### Inside a command, and its end -/

/-- STATUS of a command that runs and has reported no event (R42): WR_WHILE_BUSY and STATE alone are free. -/
def runningStatus (flag : Bool) (b : BlockState) : Status :=
  { busy := true, done := false, err := false, warnTrail := false, wrWhileBusy := flag, code := .ok, hdrAvail := 0
    state := b }

/-- A command runs and has reported no event: every result register that tells of one is 0 (R42). -/
structure Active (s : State) : Prop where
  status : ∃ flag b, s.status = runningStatus flag b
  evtOffset : s.evtOffset = 0
  trailCount : s.trailCount = 0
  sinkErr : s.sinkErr = 0
  srcErr : s.srcErr = 0

/-- A command that ran on to `u` completes in `t`: with or without the warning, or by an error (R42, R235, R236). -/
inductive Completes (u : State) : State → Prop
  | finished : Completes u (finish u)
  | warned (off : Count) (n : Nat) (hpos : 0 < n) (hn : n < 2 ^ 64) : Completes u (finish (warnTrailing off n u))
  | failed (c : Code) (off : Count) (srcErr sinkErr : Word) (answers : List SinkAnswer) (hok : c ≠ .ok)
      (htrunc : c ≠ .truncHdr) (hsrc : c ≠ .srcIo → srcErr = u.srcErr) (hsink : c ≠ .sinkIo → sinkErr = u.sinkErr) :
      Completes u (raiseError c off { u with srcErr := srcErr, sinkErr := sinkErr, sinkAnswers := answers })
  | truncated (off : Count) (n : Nat) (hn : n < 24) : Completes u (raiseTruncHdr off n u)

/-- An error that comes from neither the source nor the sink. -/
theorem Completes.raised {u : State} (c : Code) (off : Count) (hok : c ≠ .ok) (htrunc : c ≠ .truncHdr) :
    Completes u (raiseError c off u) :=
  .failed c off u.srcErr u.sinkErr u.sinkAnswers hok htrunc (fun _ => rfl) (fun _ => rfl)

/-- A completed command: DONE, a final STATE, and result registers that agree with the event reported (R42). -/
structure Ended (t : State) : Prop where
  status : statusInv t.status
  result : resultInv t
  running : t.running = none
  busy : t.status.busy = false
  done : t.status.done = true
  state : t.status.state ≠ .idle

/-- An ENCF that waits for a pixel word (R67). -/
structure Waiting (t : State) : Prop where
  status : statusInv t.status
  result : resultInv t
  running : ∃ job, t.running = some job ∧ 0 < job.remaining
  busy : t.status.busy = true
  done : t.status.done = false
  state : t.status.state = .ePay

theorem statusInv_finished (flag : Bool) (b : BlockState) : statusInv (runningStatus flag b).finished := by
  simp [statusInv, runningStatus, Status.finished]

theorem statusInv_warned (flag : Bool) (b : BlockState) : statusInv (runningStatus flag b).warned.finished := by
  simp [statusInv, runningStatus, Status.finished, Status.warned]

theorem statusInv_failed (flag : Bool) (b : BlockState) {c : Code} {avail : BitVec 5} (hok : c ≠ .ok)
    (hz : c ≠ .truncHdr → avail = 0) (hle : avail.toNat ≤ 23) : statusInv ((runningStatus flag b).failed c avail) := by
  simp only [statusInv, runningStatus, Status.failed]
  simpa [hok] using ⟨hz, hle⟩

theorem statusInv_waiting (flag : Bool) : statusInv (runningStatus flag .ePay) := by
  simp [statusInv, runningStatus]

/-- However a command completes, STATUS and the result registers agree (R235, R236). -/
theorem Completes.ended {u t : State} (hu : Active u) (h : Completes u t) : Ended t := by
  obtain ⟨⟨flag, b, hst⟩, hevt, htrail, hsinkErr, hsrcErr⟩ := hu
  cases h with
  | finished =>
    refine ⟨?_, ?_, rfl, rfl, rfl, nofun⟩
    · rw [finish_status, hst]
      exact statusInv_finished flag b
    · simp [resultInv, hevt, htrail, hsinkErr, hsrcErr, hst, runningStatus, Status.finished]
  | warned off n hpos hn =>
    have hne : BitVec.ofNat 64 n ≠ 0 := by
      intro h
      have : n % 2 ^ 64 = 0 := congrArg BitVec.toNat h
      omega
    refine ⟨?_, ?_, rfl, rfl, rfl, nofun⟩
    · rw [finish_status, warnTrailing_status, hst]
      exact statusInv_warned flag b
    · simpa [resultInv, hsinkErr, hsrcErr, Status.finished, Status.warned] using hne
  | failed c off e e' answers hok htrunc hsrc hsink =>
    refine ⟨?_, ⟨fun _ => Or.inl rfl, ?_, ?_, ?_⟩, rfl, rfl, rfl, nofun⟩
    · rw [raiseError_status, hst]
      exact statusInv_failed flag b hok (fun _ => rfl) (by decide)
    · simp [htrail, hst, runningStatus, Status.failed]
    · exact fun hne => not_not.mp fun hc => hne ((hsink hc).trans hsinkErr)
    · exact fun hne => not_not.mp fun hc => hne ((hsrc hc).trans hsrcErr)
  | truncated off n hn =>
    refine ⟨?_, ⟨fun _ => Or.inl rfl, ?_, ?_, ?_⟩, rfl, rfl, rfl, nofun⟩
    · rw [raiseTruncHdr_status, hst]
      exact statusInv_failed flag b nofun (fun h => absurd rfl h) (by rw [BitVec.toNat_ofNat]; omega)
    · simp [htrail, hst, runningStatus, Status.failed]
    · exact fun hne => absurd hsinkErr hne
    · exact fun hne => absurd hsrcErr hne

/-- An ENCF that stops for want of a word waits (R67). -/
theorem Active.waiting {u : State} {job : EncodeJob} (hu : Active u) (hb : u.status.state = .ePay)
    (hj : 0 < job.remaining) : Waiting { u with running := some job } := by
  obtain ⟨⟨flag, b, hst⟩, hevt, htrail, hsinkErr, hsrcErr⟩ := hu
  obtain rfl : b = .ePay := by simpa [hst, runningStatus] using hb
  refine ⟨?_, ?_, ⟨job, rfl, hj⟩, ?_, ?_, hb⟩
  · exact hst ▸ statusInv_waiting flag
  · simp [resultInv, hevt, htrail, hsinkErr, hsrcErr, hst, runningStatus]
  · simp [hst, runningStatus]
  · simp [hst, runningStatus]

theorem Active.start (seen : List BlockState) (mayWarn : Bool) (s : State) : Active (startCommand seen mayWarn s) :=
  ⟨⟨_, _, startCommand_status_eq seen mayWarn s⟩, rfl, rfl, rfl, rfl⟩

/-! ### What a command may change -/

/-- What a command that began in `s`, other than SRST, has done by `t`: it keeps the settings (R43), appends to the
histories (R46), consumes the source from the front (R27, R45), and keeps the registers of a restricted range in it. -/
structure CommandEffect (s t : State) : Prop where
  settings : keepsSettings s t
  sink : ∃ bs, t.sink = s.sink ++ bs ∧ t.outCount.toNat ≤ s.outCount.toNat + bs.length
  records : ∃ rs, t.records = s.records ++ rs ∧ (∀ r ∈ rs, Record.ok r)
    ∧ t.framesDone.toNat ≤ s.framesDone.toNat + rs.length
  source : ∃ k, k ≤ s.src.bytes.length ∧ t.src = { s.src with bytes := s.src.bytes.drop k }
    ∧ t.cursor.toNat = s.cursor.toNat + k
  sectionIdx : t.curSection = s.curSection ∨ t.curSection.toNat < max 1 s.secCount.length
  cvtOut : t.cvtOut = s.cvtOut ∨ t.cvtOut.toNat < 2 ^ 24

theorem CommandEffect.refl (s : State) : CommandEffect s s where
  settings := ⟨rfl, rfl, rfl, rfl, rfl, rfl⟩
  sink := ⟨[], by simp, Nat.le_refl _⟩
  records := ⟨[], by simp, by simp, Nat.le_refl _⟩
  source := ⟨0, Nat.zero_le _, rfl, rfl⟩
  sectionIdx := Or.inl rfl
  cvtOut := Or.inl rfl

/-- The registers and inputs that `CommandEffect` does not speak of may change besides. -/
theorem CommandEffect.of_eq {s u t : State} (h : CommandEffect s u)
    (ht : t = { u with status := t.status, evtOffset := t.evtOffset, expCount := t.expCount, trailCount := t.trailCount
                       hdr := t.hdr, sinkErr := t.sinkErr, srcErr := t.srcErr, running := t.running, pix := t.pix
                       pixIndex := t.pixIndex, sinkAnswers := t.sinkAnswers, overlap := t.overlap
                       readLog := t.readLog, draws := t.draws }) : CommandEffect s t := by
  rw [ht]
  exact ⟨h.settings, h.sink, h.records, h.source, h.sectionIdx, h.cvtOut⟩

theorem CommandEffect.start (seen : List BlockState) (mayWarn : Bool) (s : State) :
    CommandEffect s (startCommand seen mayWarn s) :=
  { CommandEffect.refl s with
    records := ⟨[], by simp, by simp, Nat.zero_le _⟩
    sectionIdx := Or.inr (Nat.lt_of_lt_of_le Nat.zero_lt_one (Nat.le_max_left _ _)) }

theorem CommandEffect.completes {s u t : State} (hu : CommandEffect s u) (h : Completes u t) : CommandEffect s t := by
  cases h <;> exact hu.of_eq rfl

/-- OUT_COUNT with what a waiting ENCF has still to write does not pass EXP_COUNT (R29). -/
def Balanced (s : State) : Prop := s.outCount.toNat + pendingBytes s ≤ s.expCount.toNat

theorem Balanced.outCount_le {s : State} (h : Balanced s) : s.outCount.toNat ≤ s.expCount.toNat :=
  Nat.le_of_add_right_le h

theorem Balanced.completes {u t : State} (hu : u.outCount.toNat ≤ u.expCount.toNat) (h : Completes u t) :
    Balanced t := by
  cases h <;> exact hu

/-- What every command but SRST does. -/
structure CommandResult (s t : State) : Prop where
  effect : CommandEffect s t
  ended : Ended t ∨ Waiting t
  balanced : Balanced s → Balanced t

theorem Completes.result {s u t : State} (h : Completes u t) (hu : Active u) (he : CommandEffect s u)
    (hb : Balanced s → u.outCount.toNat ≤ u.expCount.toNat) : CommandResult s t ∧ Ended t :=
  ⟨⟨he.completes h, Or.inl (h.ended hu), fun hs => Balanced.completes (hb hs) h⟩, h.ended hu⟩

/-! ### The decode commands -/

/-- A decode command that began in `s` ends in `t` (R160 to R166, R184 to R188). -/
def DecodeEnds (m : Nat) (s t : State) : Prop := ∃ u, Decoded m s u ∧ Completes u t

theorem DecodeError.ends {m : Nat} {s t : State} (h : DecodeError m s t) : DecodeEnds m s t := by
  obtain ⟨u, hu, ⟨c, off, e, hc, he, rfl⟩ | ⟨off, n, hn, rfl⟩⟩ := h
  · refine ⟨u, hu, .failed c off e u.sinkErr u.sinkAnswers ?_ ?_ ?_ (fun _ => rfl)⟩
    · rcases hc with rfl | rfl | rfl | rfl <;> nofun
    · rcases hc with rfl | rfl | rfl | rfl <;> nofun
    · obtain ⟨k, rs, h, b, cur, -, -, -, -, -, rfl⟩ := hu
      exact he
  · exact ⟨u, hu, .truncated off n hn⟩

theorem decodeOne_ends {m : Nat} {s t : State} (h : (decodeOne s).outcome = .next t) : DecodeEnds m s t :=
  ((decodeOne_decoded m s).mono (fun _ _ hu => hu) fun _ => DecodeError.ends).next (fun _ u hu => ⟨u, hu, .finished⟩) h

theorem decodeScan_ends {m fuel : Nat} {s t : State} (h : (decodeScan fuel s).outcome = .next t) :
    DecodeEnds m s t := by
  refine ((decodeScan_decoded m fuel s s (Decoded.refl m s)).mono (fun _ _ hu => hu) fun _ => DecodeError.ends).next
    ?_ h
  rintro _ _ ⟨v, hv, ⟨off, n, hpos, hn, rfl⟩ | rfl⟩
  · exact ⟨v, hv, .warned off n hpos hn⟩
  · exact ⟨_, hv, .finished⟩

theorem decodeCounted_ends {m : Nat} {counts : List Word} {s t : State} (hm : counts.length ≤ m)
    (hs : s.trailCount = 0) (h : (decodeCounted counts s).outcome = .next t) : DecodeEnds m s t := by
  have hsections := (decodeSections_decoded m 0 counts s s (Decoded.refl m s) (by omega)).bind
    fun _ u hu => drainTrailing_decoded m s u hu
  refine (hsections.mono (fun _ _ hu => hu) fun _ => DecodeError.ends).next ?_ h
  rintro _ _ ⟨v, hv, ⟨off, n, hpos, hn, rfl⟩ | rfl⟩
  · exact ⟨v, hv, .warned off n hpos hn⟩
  · have hz : ({ v with trailCount := 0 } : State) = v := by
      obtain ⟨k, rs, h, b, cur, -, -, -, -, -, rfl⟩ := hv
      rw [← hs]
      rfl
    exact ⟨v, hv, hz ▸ .finished⟩

theorem Decoded.active {m : Nat} {s u : State} (h : Decoded m s u) (hs : Active s) : Active u := by
  obtain ⟨k, rs, hd, b, cur, -, -, -, -, -, rfl⟩ := h
  obtain ⟨⟨flag, b', hst⟩, hevt, htrail, hsinkErr, hsrcErr⟩ := hs
  exact ⟨⟨flag, b, by simp [hst, runningStatus]⟩, hevt, htrail, hsinkErr, hsrcErr⟩

theorem Decoded.effect {m : Nat} {seen : List BlockState} {mayWarn : Bool} {s u : State}
    (h : Decoded m (startCommand seen mayWarn s) u) (hm : m ≤ max 1 s.secCount.length) : CommandEffect s u := by
  obtain ⟨k, rs, hd, b, cur, hk, hc, hrs, hf, hcur, rfl⟩ := h
  refine { CommandEffect.start seen mayWarn s with
           records := ⟨rs, rfl, hrs, ?_⟩, source := ⟨k, hk, rfl, ofNat_add_toNat hc⟩, sectionIdx := Or.inr ?_ }
  · exact (ofNat_add_toNat hf).le.trans (by simp)
  · rcases hcur with rfl | hlt
    · exact Nat.lt_of_lt_of_le Nat.zero_lt_one (Nat.le_max_left _ _)
    · exact Nat.lt_of_lt_of_le hlt hm

theorem DecodeEnds.result {m : Nat} {seen : List BlockState} {mayWarn : Bool} {s t : State}
    (h : DecodeEnds m (startCommand seen mayWarn s) t) (hm : m ≤ max 1 s.secCount.length) :
    CommandResult s t ∧ Ended t := by
  obtain ⟨u, hu, ht⟩ := h
  refine ht.result (hu.active (.start seen mayWarn s)) (hu.effect hm) fun hs => ?_
  obtain ⟨k, rs, hd, b, cur, -, -, -, -, -, rfl⟩ := hu
  exact hs.outCount_le

/-! ### ENCF -/

/-- `u` is `s` after pixel words were taken and at most `m` bytes written (R150). -/
def Encoded (m : Nat) (s u : State) : Prop :=
  ∃ bs k, bs.length ≤ m ∧ s.outCount.toNat + bs.length < 2 ^ 64 ∧ u = accepted bs (pixelsTaken k s)

/-- An ENCF that has still `m` bytes to write in `s` stops in `t`: it completes, or it waits for a word with no more
bytes to write than are left of the `m` (R67, R155). -/
def EncodeEnds (m : Nat) (s t : State) : Prop :=
  ∃ n u, Encoded n s u ∧ ((n ≤ m ∧ Completes u t)
    ∨ ∃ job, 0 < job.remaining ∧ n + job.remaining * job.fmt.bpp ≤ m ∧ t = { u with running := some job })

theorem Encoded.trans {m n : Nat} {s u v : State} (h : Encoded m s u) (h' : Encoded n u v) : Encoded (m + n) s v := by
  obtain ⟨bs, k, hm, hbs, rfl⟩ := h
  obtain ⟨cs, l, hn, hcs, rfl⟩ := h'
  have ho : (accepted bs (pixelsTaken k s)).outCount.toNat = s.outCount.toNat + bs.length := accepted_outCount_toNat hbs
  refine ⟨bs ++ cs, k + l, by simp only [List.length_append]; omega, by simp only [List.length_append]; omega, ?_⟩
  simp [accepted, pixelsTaken, BitVec.ofNat_add, BitVec.add_assoc, Nat.add_assoc]

/-- A rejected byte ends ENCF with SINK_IO (R155, R242). -/
theorem Completes.sinkRejected {u : State} (off : Count) (e : Word) (answers : List SinkAnswer) :
    Completes u (raiseError .sinkIo off { u with sinkAnswers := answers, sinkErr := e }) :=
  .failed .sinkIo off u.srcErr e answers nofun nofun (fun _ => rfl) (fun h => absurd rfl h)

/-- The pixel loop of ENCF, as the end of the command (R150, R155, R67). -/
theorem encodePixels_ends {fmt : PixelFormat} {n : Nat} {s t : State} (h : (encodePixels fmt n s).outcome = .next t) :
    EncodeEnds (n * fmt.bpp) s t := by
  refine ((encodePixels_holds fmt n s).mono (fun _ _ hu => hu) ?_).next ?_ h
  · rintro _ (⟨hlt, hc, rfl⟩ | ⟨k, j, e, u, hk, hkp, hj, hc, rfl, rfl⟩)
    · refine ⟨s.pix.length * fmt.bpp, _, ⟨_, _, by simp, by simpa using hc, rfl⟩,
        Or.inr ⟨⟨fmt, n - s.pix.length⟩, by simpa using hlt, ?_, rfl⟩⟩
      rw [← Nat.add_mul, Nat.add_sub_cancel' hlt.le]
    · have hlen : k * fmt.bpp + j ≤ n * fmt.bpp := by
        calc k * fmt.bpp + j ≤ (k + 1) * fmt.bpp := by rw [Nat.succ_mul]; omega
          _ ≤ n * fmt.bpp := Nat.mul_le_mul_right _ hk
      refine ⟨k * fmt.bpp + j, _, ⟨_, k + 1, List.length_take_le _ _, ?_, rfl⟩, Or.inl ⟨hlen, .sinkRejected _ _ _⟩⟩
      exact Nat.lt_of_le_of_lt (Nat.add_le_add_left (List.length_take_le _ _) _) hc
  · rintro _ _ ⟨hn, hc, rfl⟩
    have hlen : ((s.pix.take n).flatMap (pixbytes fmt)).length = n * fmt.bpp := by simp [hn]
    exact ⟨n * fmt.bpp, _, ⟨_, n, hlen.le, by omega, rfl⟩, Or.inl ⟨Nat.le_refl _, .finished⟩⟩


theorem EncodeEnds.after {m n : Nat} {s u t : State} (h : Encoded m s u) (h' : EncodeEnds n u t) :
    EncodeEnds (m + n) s t := by
  obtain ⟨l, v, hv, hend⟩ := h'
  refine ⟨m + l, v, h.trans hv, hend.imp ?_ ?_⟩
  · exact fun ⟨hl, ht⟩ => ⟨Nat.add_le_add_left hl m, ht⟩
  · exact fun ⟨job, hj, hl, ht⟩ => ⟨job, hj, (Nat.add_assoc _ _ _).trans_le (Nat.add_le_add_left hl m), ht⟩

/-- The body of ENCF adds `m` to EXP_COUNT and has then `m` bytes to write, 0 where it refuses the format or the
dimensions (R150 to R152). It can wait in E_PAY only. -/
theorem encodeCommand_ends {code : Word} {s t : State} (h : (encodeCommand code s).outcome = .next t) :
    ∃ m v, EncodeEnds m v t ∧ v.expCount.toNat = s.expCount.toNat + m
      ∧ (t.running ≠ none → v.status.state = .ePay)
      ∧ v = { s with hdr := v.hdr, expCount := v.expCount, status := { s.status with state := v.status.state } } := by
  have refused : ∀ c, c ≠ .ok → c ≠ .truncHdr →
      EncodeEnds 0 s (raiseError c s.outCount s) := fun c hok htrunc =>
    ⟨0, s, ⟨[], 0, Nat.le_refl _, s.outCount.isLt, by simp⟩, Or.inl ⟨Nat.le_refl _, .raised c _ hok htrunc⟩⟩
  cases hf : supportedFormat code with
  | none =>
    rw [encodeCommand_unsupported hf] at h
    cases h
    exact ⟨0, s, refused _ nofun nofun, rfl, fun hne => absurd rfl hne, rfl⟩
  | some fmt =>
    obtain rfl := supportedFormat_eq_some hf
    by_cases hg : goodDimensions fmt s
    · by_cases hc : s.expCount.toNat + frameLength (encodedHeader fmt s.inWidth s.inHeight) < 2 ^ 64
      · have hexp : (headerStart fmt s).expCount.toNat
            = s.expCount.toNat + (24 + s.inWidth.toNat * s.inHeight.toNat * fmt.bpp) :=
          (add_ofNat_toNat hc).trans (by rw [frameLength_encodedHeader hg])
        rw [encodeCommand_eq hg hc] at h
        have hw := sinkWrite_holds (packHeader (encodedHeader fmt s.inWidth s.inHeight)) (headerStart fmt s)
        cases hrun : sinkWrite (packHeader (encodedHeader fmt s.inWidth s.inHeight)) (headerStart fmt s) with
        | ok a u =>
          rw [hrun] at h hw
          obtain ⟨rfl, ho⟩ := hw
          exact ⟨_, setBlockState .ePay (headerStart fmt s),
            (encodePixels_ends h).after ⟨packHeader _, 0, Nat.le_refl _, ho, rfl⟩, hexp, fun _ => rfl, rfl⟩
        | stopped u =>
          rw [hrun] at h hw
          cases h
          obtain ⟨k, e, hk, ho, rfl⟩ := hw
          have hlen : ((packHeader (encodedHeader fmt s.inWidth s.inHeight)).take k).length = k := by
            rw [List.length_take, Nat.min_eq_left hk.le]
          rw [packHeader_length] at hk
          exact ⟨_, headerStart fmt s, ⟨k, _, ⟨_, 0, hlen.le, by omega, rfl⟩,
            Or.inl ⟨by omega, .sinkRejected _ _ _⟩⟩, hexp, fun hne => absurd rfl hne, rfl⟩
        | refused r =>
          rw [hrun] at h
          cases h
      · rw [encodeCommand_overflows hg (Nat.not_lt.mp hc)] at h
        cases h
    · rw [encodeCommand_badDimensions hg] at h
      cases h
      exact ⟨0, s, refused _ nofun nofun, rfl, fun hne => absurd rfl hne, rfl⟩

theorem Encoded.effect {m : Nat} {s v u : State} (h : Encoded m v u) (hv : CommandEffect s v) : CommandEffect s u := by
  obtain ⟨cs, k, -, hcs, rfl⟩ := h
  obtain ⟨bs, hsink, ho⟩ := hv.sink
  have ho' : (accepted cs (pixelsTaken k v)).outCount.toNat = v.outCount.toNat + cs.length := accepted_outCount_toNat hcs
  refine ⟨hv.settings, ⟨bs ++ cs, ?_, ?_⟩, hv.records, hv.source, hv.sectionIdx, hv.cvtOut⟩
  · simp [accepted, pixelsTaken, hsink]
  · simp only [List.length_append]
    omega

theorem EncodeEnds.effect {m : Nat} {s v t : State} (h : EncodeEnds m v t) (hv : CommandEffect s v) :
    CommandEffect s t := by
  obtain ⟨n, u, hu, ⟨-, ht⟩ | ⟨job, -, -, rfl⟩⟩ := h
  · exact (hu.effect hv).completes ht
  · exact (hu.effect hv).of_eq rfl

theorem Encoded.active {m : Nat} {v u : State} (h : Encoded m v u) (hv : Active v) : Active u := by
  obtain ⟨cs, k, -, -, rfl⟩ := h
  exact ⟨hv.status, hv.evtOffset, hv.trailCount, hv.sinkErr, hv.srcErr⟩

theorem Encoded.counts {m : Nat} {v u : State} (h : Encoded m v u) :
    u.outCount.toNat ≤ v.outCount.toNat + m ∧ u.expCount = v.expCount ∧ u.status = v.status := by
  obtain ⟨cs, k, hm, hcs, rfl⟩ := h
  have ho' : (accepted cs (pixelsTaken k v)).outCount.toNat = v.outCount.toNat + cs.length := accepted_outCount_toNat hcs
  exact ⟨by omega, rfl, rfl⟩

/-- What an ENCF does that began in `s` and stands in `v` with `m` bytes to write. -/
theorem EncodeEnds.result {m : Nat} {s v t : State} (h : EncodeEnds m v t) (ha : Active v) (he : CommandEffect s v)
    (hst : t.running ≠ none → v.status.state = .ePay)
    (hb : Balanced s → v.outCount.toNat + m ≤ v.expCount.toNat) : CommandResult s t := by
  have heff := h.effect he
  obtain ⟨n, u, hu, ⟨hn, ht⟩ | ⟨job, hj, hn, rfl⟩⟩ := h <;> obtain ⟨ho, hexp, hstatus⟩ := hu.counts
  · refine ⟨heff, Or.inl (ht.ended (hu.active ha)), fun hs => Balanced.completes ?_ ht⟩
    have := hb hs
    rw [hexp]
    omega
  · refine ⟨heff, Or.inr ((hu.active ha).waiting (hstatus ▸ hst nofun) hj), fun hs => ?_⟩
    have := hb hs
    change u.outCount.toNat + job.remaining * job.fmt.bpp ≤ u.expCount.toNat
    rw [hexp]
    omega

theorem encodeCommand_result {code : Word} {s t : State}
    (h : (encodeCommand code (encodeStart s)).outcome = .next t) : CommandResult s t := by
  obtain ⟨m, v, hend, hexp, hst, hv⟩ := encodeCommand_ends h
  have ha : Active v := by
    obtain ⟨⟨flag, b, hs⟩, hevt, htrail, hsinkErr, hsrcErr⟩ := Active.start [.eHdr, .ePay] false s
    rw [hv]
    exact ⟨⟨flag, v.status.state, by rw [hs]; rfl⟩, hevt, htrail, hsinkErr, hsrcErr⟩
  refine hend.result ha ?_ hst fun hs => ?_
  · rw [hv]
    exact (CommandEffect.start [.eHdr, .ePay] false s).of_eq rfl
  · have hout : v.outCount = s.outCount := by rw [hv]; rfl
    have hs' : s.outCount.toNat ≤ (encodeStart s).expCount.toNat := hs.outCount_le
    rw [hexp, hout]
    omega

/-! ### Every command -/

theorem rgb565_toNat_lt (r g b : Byte) : ((rgb565 r g b).setWidth 32).toNat < 2 ^ 24 := by
  have := (rgb565 r g b).isLt
  rw [BitVec.toNat_setWidth_of_le (by decide)]
  omega

theorem rgb565a8_toNat_lt (r g b a : Byte) :
    ((rgb565 r g b).setWidth 32 ||| (a.setWidth 32 <<< 16)).toNat < 2 ^ 24 := by
  rw [BitVec.toNat_or]
  refine Nat.or_lt_two_pow (rgb565_toNat_lt r g b) ?_
  have := a.isLt
  rw [BitVec.toNat_shiftLeft, BitVec.toNat_setWidth_of_le (by decide), Nat.shiftLeft_eq]
  omega

/-- A command that is neither SRST nor ENCF completes (R42). -/
theorem exec_ends {i : Instr} {s t : State} (hi : i ≠ .srst) (hn : ¬ isEncode i) (h : exec i s = .next t) :
    CommandResult s t ∧ Ended t := by
  have conversion : ∀ v : Word, v.toNat < 2 ^ 24 →
      CommandResult s (finish { setBlockState .cvt (startCommand [.cvt] false s) with cvtOut := v })
      ∧ Ended (finish { setBlockState .cvt (startCommand [.cvt] false s) with cvtOut := v }) := fun v hv =>
    Completes.finished.result ⟨⟨_, .cvt, by rw [setBlockState_status, startCommand_status_eq]; rfl⟩, rfl, rfl, rfl, rfl⟩
      { CommandEffect.start [.cvt] false s with cvtOut := Or.inr hv } fun hs => hs.outCount_le
  cases i with
  | srst => exact absurd rfl hi
  | encfAuto a => exact absurd (Or.inl ⟨a, rfl⟩) hn
  | encfFmt f => exact absurd (Or.inr ⟨f, rfl⟩) hn
  | nop =>
    cases h
    exact Completes.finished.result (.start [] false s) (.start [] false s) fun hs => hs.outCount_le
  | cvt565 =>
    cases h
    exact conversion _ (rgb565_toNat_lt _ _ _)
  | cvt565a8 =>
    cases h
    exact conversion _ (rgb565a8_toNat_lt _ _ _ _)
  | cencb =>
    cases h
    exact Completes.finished.result ⟨(Active.start [] false s).status, rfl, rfl, rfl, rfl⟩
      { CommandEffect.start [] false s with sink := ⟨[], by simp, Nat.zero_le _⟩ } fun _ => Nat.le_refl _
  | cence =>
    have ha : Active (setBlockState .cCheck (startCommand [.cCheck] false s)) :=
      ⟨⟨_, .cCheck, by rw [setBlockState_status, startCommand_status_eq]; rfl⟩, rfl, rfl, rfl, rfl⟩
    have he : CommandEffect s (setBlockState .cCheck (startCommand [.cCheck] false s)) :=
      (CommandEffect.start [.cCheck] false s).of_eq rfl
    change (if s.outCount ≠ s.expCount then _ else _) = _ at h
    split at h <;> cases h
    · exact (Completes.raised .lenMismatch _ nofun nofun).result ha he fun hs => hs.outCount_le
    · exact Completes.finished.result ha he fun hs => hs.outCount_le
  | decf => exact (decodeOne_ends (m := 1) h).result (Nat.le_max_left _ _)
  | decn => exact (decodeCounted_ends (m := 1) (Nat.le_refl _) rfl h).result (Nat.le_max_left _ _)
  | decs => exact (decodeScan_ends (m := 1) h).result (Nat.le_max_left _ _)
  | decsec =>
    exact (decodeCounted_ends (m := s.secCount.length) (List.length_take_le' _ _) rfl h).result (Nat.le_max_right _ _)

/-- Every command but SRST (R42, R43, R46). -/
theorem exec_result {i : Instr} {s t : State} (hi : i ≠ .srst) (h : exec i s = .next t) : CommandResult s t := by
  by_cases hn : isEncode i
  · obtain ⟨code, hcode⟩ := exec_of_isEncode hn
    exact encodeCommand_result ((hcode s).symm.trans h)
  · exact (exec_ends hi hn h).1

theorem illegalCommand_result (s : State) : CommandResult s (illegalCommand s) :=
  ((Completes.raised .illegalCmd 0 nofun nofun).result (.start [] false s) (.start [] false s)
    fun hs => hs.outCount_le).1

/-- What a word written to CMD does (R75, R94). -/
theorem runWord_result {w : Word} {s t : State} (h : runWord w s = .next t) :
    (decodeWord w = .ok .srst ∧ t = resetBlock (startCommand [] false s))
    ∨ (decodeWord w ≠ .ok .srst ∧ CommandResult s t) := by
  unfold runWord at h
  split at h
  · rename_i i hw
    by_cases hi : i = .srst
    · subst hi
      cases h
      exact Or.inl ⟨hw, rfl⟩
    · exact Or.inr ⟨fun hs => hi (Except.ok.inj (hw.symm.trans hs)), exec_result hi h⟩
  · rename_i r hw
    cases h
    exact Or.inr ⟨fun hs => by simp [hw] at hs, illegalCommand_result s⟩

/-! ### A waiting ENCF that goes on -/

theorem resumeEncode_effect {job : EncodeJob} {s t : State} (h : resumeEncode job s = .next t) : CommandEffect s t :=
  (encodePixels_ends h).effect ((CommandEffect.refl s).of_eq rfl)

/-- A busy STATUS that meets the invariant is that of a command that has reported no event (R24, R67). -/
theorem statusInv.eq_runningStatus {st : Status} (h : statusInv st) (hb : st.busy = true) :
    ∃ flag, st = runningStatus flag .ePay := by
  obtain ⟨-, -, hdone, -, hbusy, -, hcode, havail, -⟩ := h
  obtain ⟨hstate, herr, hwarn⟩ := hbusy hb
  have hd : st.done = false := by
    cases hd : st.done with
    | false => rfl
    | true => exact absurd (hdone hd) (by simp [hb])
  have hok := hcode herr
  have hz := havail (by simp [hok])
  refine ⟨st.wrWhileBusy, ?_⟩
  cases st
  simp_all [runningStatus]

theorem runningStatus_afterAccesses (flag : Bool) (b : BlockState) (as : List BusyAccess) :
    (runningStatus flag b).afterAccesses as = runningStatus (flag || as.any BusyAccess.isWrite) b := by
  unfold Status.afterAccesses
  split <;> simp_all [Status.writeDropped, runningStatus]

/-- A waiting ENCF is a command that has reported no event, in E_PAY (R67). -/
theorem Active.goesOn {s : State} (hs : s.Inv) (hb : s.status.busy = true) (seen : List BlockState) :
    Active (continueCommand seen s) ∧ (continueCommand seen s).status.state = .ePay := by
  obtain ⟨hstatus, ⟨hevt, htrail, hsink, hsrc⟩, -⟩ := hs
  obtain ⟨flag, hst⟩ := hstatus.eq_runningStatus hb
  have hst' : (continueCommand seen s).status = runningStatus (flag || s.overlap.any BusyAccess.isWrite) .ePay := by
    rw [continueCommand_status, hst, runningStatus_afterAccesses]
  refine ⟨⟨⟨_, _, hst'⟩, ?_, ?_, ?_, ?_⟩, by rw [hst']; rfl⟩
  · simpa [hst, runningStatus] using hevt
  · simpa [hst, runningStatus] using htrail
  · simpa [hst, runningStatus] using hsink
  · simpa [hst, runningStatus] using hsrc

theorem resumeEncode_result {job : EncodeJob} {s t : State} (hs : s.Inv) (hj : s.running = some job)
    (h : resumeEncode job s = .next t) : CommandResult s t := by
  have hb : s.status.busy = true := by
    obtain ⟨-, -, ⟨hrun, -, -⟩, -⟩ := hs
    exact hrun.mpr (by simp [hj])
  obtain ⟨ha, hst⟩ := Active.goesOn hs hb waitingStates
  refine (encodePixels_ends h).result ha ((CommandEffect.refl s).of_eq rfl) (fun _ => hst) fun hbal => ?_
  simpa [Balanced, pendingBytes, hj] using hbal

end Sys2Proof.Machine
end

section
/-! What a step can do, said once, and the claims about every step (10_state: O16, O54 to O58). -/
namespace Sys2Proof.Machine

/-- Everything a step can do: the host's event changes inputs, what has been read and the flag of R248 only, or it
writes a register or resets the block; or a waiting ENCF goes on; or the word written to CMD runs. -/
inductive StepCase (s : State) : State → Prop
  | quiet (host : List HostEvent) (overlap : List BusyAccess) (pix : List Word) (staged : Streams) (cut : Option Nat)
      (readLog : List (Nat × Word)) (draws : Nat) (flag : Bool) :
      StepCase s { s with host := host, overlap := overlap, pix := pix, staged := staged, cut := cut, readLog := readLog
                          draws := draws, status := { s.status with wrWhileBusy := flag } }
  | written (rest : List HostEvent) (off : Nat) (v : Word) (hh : s.host = .write off 4 v :: rest)
      (hb : s.status.busy = false) (hoff : off ≠ 0) :
      StepCase s (writeReg (regAt s.secCount.length off) v { s with host := rest })
  | powerOn (rest : List HostEvent) (hh : s.host = .powerOn :: rest) : StepCase s (resetBlock { s with host := rest })
  | resumed (job : EncodeJob) (t : State) (hj : s.running = some job)
      (h : unlessCut s (resumeEncode job s) = .next t) : StepCase s t
  | commanded (rest : List HostEvent) (w : Word) (t : State) (hh : s.host = .write 0 4 w :: rest)
      (hb : s.status.busy = false)
      (h : unlessCut { s with host := rest } (runWord w { s with host := rest }) = .next t) : StepCase s t

/-- What a turn leads to, as `step` continues it. -/
theorem step_eq_of_ended {s : State} {o : Host.Outcome State Fault Refusal} (h : nextTurn s = .ended o) : step s = o := by
  rw [step, h]

theorem step_eq_of_command {s u : State} {w : Word} (h : nextTurn s = .command w u) :
    step s = unlessCut u (runWord w u) := by
  rw [step, h]

theorem StepCase.of_ended {s t u : State} (hturn : nextTurn s = .ended (.next u)) (h : step s = .next t)
    (hu : StepCase s u) : StepCase s t := by
  rw [step_eq_of_ended hturn] at h
  cases h
  exact hu

/-- Either a waiting ENCF goes on or it is the host's turn (R67). -/
theorem nextTurn_cases (s : State) :
    (∃ job, s.running = some job ∧ nextTurn s = .ended (unlessCut s (resumeEncode job s))) ∨ nextTurn s = hostTurn s := by
  unfold nextTurn
  split
  · exact Or.inl ⟨_, by assumption, rfl⟩
  · exact Or.inr rfl

/-- What a host write turns out to be (R61, R75, R248). -/
theorem hostWrite_cases (off : Nat) (v : Word) (s : State) :
    hostWrite off v s = .ended (.next { s with status := s.status.writeDropped })
    ∨ (s.status.busy = false ∧ off = 0 ∧ hostWrite off v s = .command v s)
    ∨ (s.status.busy = false ∧ off ≠ 0
      ∧ hostWrite off v s = .ended (.next (writeReg (regAt s.secCount.length off) v s))) := by
  unfold hostWrite
  cases hb : s.status.busy with
  | true => exact Or.inl rfl
  | false =>
    by_cases ho : off = 0
    · exact Or.inr (Or.inl ⟨rfl, ho, if_pos ho⟩)
    · exact Or.inr (Or.inr ⟨rfl, ho, if_neg ho⟩)

/-- A step answers a state in one of these ways only. -/
theorem step_cases {s t : State} (h : step s = .next t) : StepCase s t := by
  rcases nextTurn_cases s with ⟨job, hj, hturn⟩ | hturn
  · rw [step_eq_of_ended hturn] at h
    exact .resumed job t hj h
  · cases hh : s.host with
    | nil =>
      have hturn' : nextTurn s = .ended (if s.status.busy then .fault .pixelStarved else .next s) := by
        rw [hturn, hostTurn, hh]
      rw [step_eq_of_ended hturn'] at h
      split at h
      · cases h
      · cases h
        exact .quiet s.host s.overlap s.pix s.staged s.cut s.readLog s.draws s.status.wrWhileBusy
    | cons e rest =>
      have hturn' : nextTurn s = hostEvent e { s with host := rest } := by rw [hturn, hostTurn, hh]
      cases e with
      | write off width v =>
        by_cases hwf : accessWf off width = true
        · obtain rfl : width = 4 := (of_decide_eq_true hwf).1
          have hwrite : nextTurn s = hostWrite off v { s with host := rest } := hturn'.trans (if_pos hwf)
          rcases hostWrite_cases off v { s with host := rest } with hw | ⟨hb, rfl, hw⟩ | ⟨hb, ho, hw⟩
          · exact .of_ended (hwrite.trans hw) h (.quiet rest s.overlap s.pix s.staged s.cut s.readLog s.draws true)
          · rw [step_eq_of_command (hwrite.trans hw)] at h
            exact .commanded rest v t hh hb h
          · exact .of_ended (hwrite.trans hw) h (.written rest off v hh hb ho)
        · rw [step_eq_of_ended (hturn'.trans (if_neg hwf))] at h
          cases h
      | read off width =>
        by_cases hwf : accessWf off width = true
        · rw [step_eq_of_ended (hturn'.trans (if_pos hwf))] at h
          cases h
          unfold hostRead
          split
          · exact .quiet rest s.overlap s.pix s.staged s.cut _ _ s.status.wrWhileBusy
          · exact .quiet rest s.overlap s.pix s.staged s.cut _ _ s.status.wrWhileBusy
        · rw [step_eq_of_ended (hturn'.trans (if_neg hwf))] at h
          cases h
      | overlap as =>
        exact .of_ended hturn' h (.quiet rest as s.pix s.staged s.cut s.readLog s.draws s.status.wrWhileBusy)
      | pixels ws =>
        exact .of_ended hturn' h (.quiet rest s.overlap (s.pix ++ ws) s.staged s.cut s.readLog s.draws s.status.wrWhileBusy)
      | stage st =>
        exact .of_ended hturn' h (.quiet rest s.overlap s.pix st s.cut s.readLog s.draws s.status.wrWhileBusy)
      | powerOn =>
        exact .of_ended hturn' h (.powerOn rest hh)
      | powerOnWithin k =>
        exact .of_ended hturn' h (.quiet rest s.overlap s.pix s.staged (some k) s.readLog s.draws s.status.wrWhileBusy)

/-! ### The end of a command -/

/-- A completed command has succeeded or failed, and CODE says so (R42, R230). -/
theorem Ended.completed {t : State} (h : Ended t) :
    t.running = none ∧ t.status.busy = false ∧ t.status.done = true
      ∧ ((t.status.state = .done ∧ t.status.err = false ∧ t.status.code = .ok)
        ∨ (t.status.state = .fail ∧ t.status.err = true ∧ t.status.code ≠ .ok ∧ t.status.warnTrail = false)) := by
  obtain ⟨herr, -, -, hidle, -, hfail, hok, -, -⟩ := h.status
  refine ⟨h.running, h.busy, h.done, ?_⟩
  rcases hidle h.busy with hst | hst | hst
  · exact absurd hst h.state
  · have hne : t.status.err = false := Bool.eq_false_iff.mpr fun he => by simp [hfail.mp he] at hst
    exact Or.inl ⟨hst, hne, hok hne⟩
  · have he := hfail.mpr hst
    exact Or.inr ⟨hst, he, herr he⟩

/-! ### The invariant -/

/-- A reset meets the invariant over whatever records were delivered before it (R44). -/
theorem resetBlock_inv {s : State} (hrecords : ∀ r ∈ s.records, r.ok) (hlo : 1 ≤ s.secCount.length)
    (hhi : s.secCount.length ≤ 32) : (resetBlock s).Inv := by
  refine ⟨?_, ?_, ⟨?_, nofun, ?_⟩, ⟨Nat.zero_le _, Nat.zero_le _⟩, hrecords, ?_⟩
  · simp [statusInv, Status.reset]
  · simp [resultInv, Status.reset]
  · simp [Status.reset]
  · simp [pendingBytes]
  · simpa [rangeInv] using ⟨hlo, hhi, hlo⟩

/-- Power-on reset inside a command is a reset over the histories it cuts (R250). -/
theorem abandonCommand_eq (k : Nat) (s t : State) :
    abandonCommand k s t = resetBlock { t with
      sink := t.sink.take (s.sink.length + k)
      records := t.records.take (s.records.length + k)
      sinkAnswers := if s.sink.length + k ≤ t.sink.length then s.sinkAnswers.drop k else t.sinkAnswers } := rfl

theorem writeReg_inv {s : State} (hs : s.Inv) (r : Reg) (v : Word) : (writeReg r v s).Inv := by
  cases r with
  | secNum =>
    obtain ⟨hstatus, hresult, hrun, hhist, hrec, hlo, hhi, -, hcur, hcvt⟩ := hs
    refine ⟨hstatus, hresult, hrun, hhist, hrec, hlo, hhi, ?_, hcur, hcvt⟩
    change (legalSecNum s.secCount.length v).toNat ≤ s.secCount.length
    rw [legalSecNum, BitVec.toNat_ofNat]
    exact (Nat.mod_le _ _).trans (Nat.min_le_right _ _)
  | secCount i =>
    obtain ⟨hstatus, hresult, hrun, hhist, hrec, hrange⟩ := hs
    exact ⟨hstatus, hresult, hrun, hhist, hrec, by simpa [rangeInv, writeReg] using hrange⟩
  | _ => exact hs

/-- The invariant holds where a command ends, or waits. -/
theorem CommandResult.inv {s t : State} (h : CommandResult s t) (hs : s.Inv) : t.Inv := by
  obtain ⟨-, -, ⟨-, -, hbal⟩, ⟨hsink, hdone⟩, hrec, hlo, hhi, hsec, hcur, hcvt⟩ := hs
  obtain ⟨⟨-, -, -, -, hsecNum, hsecCount⟩, ⟨bs, hbs, hout⟩, ⟨rs, hrs, hok, hframes⟩, -, hcur', hcvt'⟩ := h.effect
  have hhist : historyInv t := by
    refine ⟨?_, ?_⟩
    · rw [hbs, List.length_append]
      omega
    · rw [hrs, List.length_append]
      omega
  have hrec' : ∀ r ∈ t.records, r.ok := by
    rw [hrs]
    exact fun r hr => (List.mem_append.mp hr).elim (hrec r) (hok r)
  have hrange : rangeInv t := by
    refine ⟨?_, ?_, ?_, ?_, ?_⟩
    · rwa [hsecCount]
    · rwa [hsecCount]
    · rwa [hsecCount, hsecNum]
    · rw [hsecCount]
      rcases hcur' with he | hlt
      · rwa [he]
      · exact hlt.trans_eq (Nat.max_eq_right hlo)
    · rcases hcvt' with he | hlt
      · rwa [he]
      · exact hlt
  have hbal' := h.balanced hbal
  rcases h.ended with he | hw
  · exact ⟨he.status, he.result, ⟨by simp [he.busy, he.running], by simp [he.running], hbal'⟩, hhist, hrec', hrange⟩
  · obtain ⟨job, hj, hpos⟩ := hw.running
    refine ⟨hw.status, hw.result, ⟨by simp [hw.busy, hj], ?_, hbal'⟩, hhist, hrec', hrange⟩
    intro job' hj'
    rw [hj] at hj'
    cases hj'
    exact hpos

/-- A command keeps the invariant, cut by power-on reset or not (R250). -/
theorem inv_of_unlessCut {s t : State} {o : Host.Outcome State Fault Refusal} (ho : ∀ u, o = .next u → u.Inv)
    (h : unlessCut s o = .next t) : t.Inv := by
  rcases unlessCut_next h with ⟨-, hu⟩ | ⟨k, u, -, hu, rfl⟩
  · exact ho t hu
  · obtain ⟨-, -, -, -, hrec, hlo, hhi, -⟩ := ho u hu
    rw [abandonCommand_eq]
    exact resetBlock_inv (fun r hr => hrec r (List.mem_of_mem_take hr)) hlo hhi

theorem runWord_inv {w : Word} {s t : State} (hs : s.Inv) (h : runWord w s = .next t) : t.Inv := by
  rcases runWord_result h with ⟨-, rfl⟩ | ⟨-, hr⟩
  · obtain ⟨-, -, -, -, hrec, hlo, hhi, -⟩ := hs
    exact resetBlock_inv hrec hlo hhi
  · exact hr.inv hs

/-! ### The histories -/

theorem CommandEffect.histories {s t : State} (h : CommandEffect s t) : s.sink <+: t.sink ∧ s.records <+: t.records := by
  obtain ⟨bs, hbs, -⟩ := h.sink
  obtain ⟨rs, hrs, -⟩ := h.records
  exact ⟨⟨bs, hbs.symm⟩, ⟨rs, hrs.symm⟩⟩

/-- What is out before power-on reset cuts a command stays out (R46, R250). -/
theorem histories_of_unlessCut {s t : State} {o : Host.Outcome State Fault Refusal}
    (ho : ∀ u, o = .next u → s.sink <+: u.sink ∧ s.records <+: u.records) (h : unlessCut s o = .next t) :
    s.sink <+: t.sink ∧ s.records <+: t.records := by
  rcases unlessCut_next h with ⟨-, hu⟩ | ⟨k, u, -, hu, rfl⟩
  · exact ho t hu
  · obtain ⟨hsink, hrec⟩ := ho u hu
    exact ⟨List.prefix_take_iff.mpr ⟨hsink, Nat.le_add_right _ _⟩, List.prefix_take_iff.mpr ⟨hrec, Nat.le_add_right _ _⟩⟩

theorem runWord_histories {w : Word} {s t : State} (h : runWord w s = .next t) :
    s.sink <+: t.sink ∧ s.records <+: t.records := by
  rcases runWord_result h with ⟨-, rfl⟩ | ⟨-, hr⟩
  · exact ⟨List.prefix_refl _, List.prefix_refl _⟩
  · exact hr.effect.histories

/-- A register write leaves the ports and their histories (R61). -/
theorem writeReg_ports (r : Reg) (v : Word) (s : State) :
    (writeReg r v s).sink = s.sink ∧ (writeReg r v s).records = s.records ∧ keepsSource s (writeReg r v s) := by
  cases r <;> exact ⟨rfl, rfl, rfl, rfl⟩

/-- Settles O54: the invariant by the cases of a step; a command's by what every command does. -/
theorem stepKeepsInvariant : Obligations.StepKeepsInvariant := by
  intro s t hs h
  cases step_cases h with
  | quiet => exact hs
  | written rest off v => exact writeReg_inv (s := { s with host := rest }) hs (regAt s.secCount.length off) v
  | powerOn rest hh =>
    obtain ⟨-, -, -, -, hrec, hlo, hhi, -⟩ := hs
    exact resetBlock_inv hrec hlo hhi
  | resumed job _ hj ht => exact inv_of_unlessCut (fun u hu => (resumeEncode_result hs hj hu).inv hs) ht
  | commanded rest w _ hh hb ht =>
    exact inv_of_unlessCut (fun u hu => runWord_inv (s := { s with host := rest }) hs hu) ht

/-- Settles O16: the state after power-on is one that a reset leaves. -/
theorem resetMeetsInvariant : Obligations.ResetMeetsInvariant :=
  resetBlock_inv (s := State.reset) nofun (by decide) (by decide)

/-- Settles O55: by the cases of a step; a cut command keeps what is out. -/
theorem historiesOnlyGrow : Obligations.HistoriesOnlyGrow := by
  intro s t h
  cases step_cases h with
  | quiet => exact ⟨List.prefix_refl _, List.prefix_refl _⟩
  | written rest off v =>
    obtain ⟨hsink, hrec, -⟩ := writeReg_ports (regAt s.secCount.length off) v { s with host := rest }
    rw [hsink, hrec]
    exact ⟨List.prefix_refl _, List.prefix_refl _⟩
  | powerOn rest hh => exact ⟨List.prefix_refl _, List.prefix_refl _⟩
  | resumed job _ hj ht => exact histories_of_unlessCut (fun u hu => (resumeEncode_effect hu).histories) ht
  | commanded rest w _ hh hb ht =>
    exact histories_of_unlessCut (s := { s with host := rest }) (fun u hu => runWord_histories hu) ht

/-- Settles O56: by the cases of a step that is no reset; what a command consumes is part of its effect. -/
theorem cursorCountsBytesConsumed : Obligations.CursorCountsBytesConsumed := by
  intro s t h hcut hpower hsrst
  cases step_cases h with
  | quiet => exact (CommandEffect.refl s).source
  | written rest off v =>
    obtain ⟨-, -, hsrc, hcursor⟩ := writeReg_ports (regAt s.secCount.length off) v { s with host := rest }
    rw [hsrc, hcursor]
    exact (CommandEffect.refl s).source
  | powerOn rest hh => exact absurd hh (hpower rest)
  | resumed job _ hj ht =>
    rw [unlessCut_none hcut] at ht
    exact (resumeEncode_effect ht).source
  | commanded rest w _ hh hb ht =>
    rw [unlessCut_none (s := { s with host := rest }) hcut] at ht
    rcases runWord_result ht with ⟨hw, -⟩ | ⟨-, hr⟩
    · exact absurd hw (hsrst rest 0 4 w hh)
    · exact hr.effect.source

/-- Settles O57: a part of what every command does. -/
theorem commandsKeepHostSettings : Obligations.CommandsKeepHostSettings :=
  fun _ _ _ hi h => (exec_result hi h).effect.settings

/-- Settles O58: every command completes or waits, and only ENCF waits. -/
theorem commandsCompleteOrWait : Obligations.CommandsCompleteOrWait := by
  intro s t i hi h
  by_cases hn : isEncode i
  · rcases (exec_result hi h).ended with he | hw
    · exact Or.inl he.completed
    · obtain ⟨job, hj, -⟩ := hw.running
      exact Or.inr ⟨by simp [hj], hw.busy, hw.done, hw.state, hn⟩
  · exact Or.inl (exec_ends hi hn h).2.completed

end Sys2Proof.Machine
end

section
/-! Proofs of 20_memory: the host's accesses while no ENCF can go on, and the one that makes a waiting ENCF go on
(O5, O7, O8, O13, O33). -/
namespace Sys2Proof.Machine

/-! ### The host's turn -/

/-- Where no ENCF can go on, the host's write at an aligned offset is the turn (R60). -/
theorem nextTurn_of_write {s : State} {rest : List HostEvent} {off : Nat} {v : Word}
    (h : s.host = .write off 4 v :: rest) (hr : s.pix = [] ∨ s.running = none) (ha : off % 4 = 0) (hl : off < 0x100) :
    nextTurn s = hostWrite off v { s with host := rest } := by
  rw [nextTurn_of_event h hr]
  exact if_pos (decide_eq_true ⟨rfl, ha, hl⟩)

/-- Where no ENCF can go on, the host's read at an aligned offset is the turn (R60). -/
theorem nextTurn_of_read {s : State} {rest : List HostEvent} {off : Nat}
    (h : s.host = .read off 4 :: rest) (hr : s.pix = [] ∨ s.running = none) (ha : off % 4 = 0) (hl : off < 0x100) :
    nextTurn s = .ended (.next (hostRead off { s with host := rest })) := by
  rw [nextTurn_of_event h hr]
  exact if_pos (decide_eq_true ⟨rfl, ha, hl⟩)

/-- A waiting ENCF with a word ready is the turn, before any event of the host (R67). -/
theorem nextTurn_of_ready {s : State} {job : EncodeJob} (hj : s.running = some job) (hp : s.pix ≠ []) :
    nextTurn s = .ended (unlessCut s (resumeEncode job s)) := by
  obtain ⟨w, ws, hp⟩ := List.exists_cons_of_ne_nil hp
  rw [nextTurn, hj, hp]

/-- A write of CMD while idle is a command (R75). -/
theorem hostWrite_cmd {s : State} (v : Word) (hb : s.status.busy = false) : hostWrite 0 v s = .command v s := by
  simp [hostWrite, hb]

/-- A write of another offset while idle stores a register (R61). -/
theorem hostWrite_reg {s : State} {off : Nat} (v : Word) (hb : s.status.busy = false) (ho : off ≠ 0) :
    hostWrite off v s = .ended (.next (writeReg (regAt s.secCount.length off) v s)) := by
  simp [hostWrite, hb, ho]

/-- A read while idle returns what the window reads, and only that is logged (R61). -/
theorem hostRead_idle {s : State} (off : Nat) (hb : s.status.busy = false) :
    hostRead off s = { s with readLog := s.readLog ++ [(off, readWindow s off)] } := by
  simp [hostRead, hb]

/-- The accesses that R60 does not allow. -/
theorem accessWf_eq_false {off width : Nat} (h : width ≠ 4 ∨ off % 4 ≠ 0 ∨ 0x100 ≤ off) :
    ¬ accessWf off width = true := by
  intro hw
  obtain ⟨h4, ha, hl⟩ := of_decide_eq_true hw
  omega

/-- Settles O5: the turn is the host's, its write is a command, and nothing cuts it. -/
theorem stepRunsTheCommandWritten : Obligations.StepRunsTheCommandWritten := by
  intro s rest w i hh hb hr hcut hw _
  have hturn := (nextTurn_of_write hh (.inr hr) rfl (by decide)).trans (hostWrite_cmd w hb)
  rw [step_eq_of_command hturn, unlessCut_none (s := { s with host := rest }) hcut, runWord, hw]

/-- Settles O8: the turn is the host's, and its read of an idle block is only logged. -/
theorem hostReadHasNoSideEffect : Obligations.HostReadHasNoSideEffect := by
  intro s rest off hh hb hr ha hl
  rw [step_eq_of_ended (nextTurn_of_read hh (.inr hr) ha hl), hostRead_idle (s := { s with host := rest }) off hb]
  rfl

/-- Settles O13: the turn is the host's, and R60 does not allow the access. -/
theorem misshapenAccessIsRefused : Obligations.MisshapenAccessIsRefused := by
  intro s rest off width v hr hbad
  have refused : ∀ e, (∀ u, hostEvent e u = .ended (.refused (.badHostAccess off width))) →
      step { s with host := e :: rest } = .refused (.badHostAccess off width) := fun e he =>
    step_eq_of_ended ((nextTurn_of_event (s := { s with host := e :: rest }) rfl hr).trans (he _))
  exact ⟨refused _ fun u => if_neg (accessWf_eq_false hbad), refused _ fun u => if_neg (accessWf_eq_false hbad)⟩

/-- Settles O33: the host's event adds words to a port that has none, and with them the ENCF goes on. -/
theorem stepResumesWaitingEncode : Obligations.StepResumesWaitingEncode := by
  intro s job rest more hj hp hcut hh hmore
  have hturn : nextTurn s = .ended (.next { s with host := rest, pix := s.pix ++ more }) :=
    nextTurn_of_event hh (.inl hp)
  rw [hp, List.nil_append] at hturn
  refine ⟨_, step_eq_of_ended hturn, rfl, ?_⟩
  rw [step_eq_of_ended (nextTurn_of_ready (s := { s with host := rest, pix := more }) hj hmore),
    unlessCut_none (s := { s with host := rest, pix := more }) hcut]

/-! ### A register write -/

/-- The offset at which a register stands (R22); the reserved offsets have none of their own. -/
def Reg.offset : Reg → Nat
  | .cmd => 0x00 | .status => 0x04 | .evtOffsetLo => 0x08 | .evtOffsetHi => 0x0C | .cursorLo => 0x10 | .cursorHi => 0x14
  | .outCountLo => 0x18 | .outCountHi => 0x1C | .expCountLo => 0x20 | .expCountHi => 0x24 | .trailCountLo => 0x28
  | .trailCountHi => 0x2C | .inWidth => 0x30 | .inHeight => 0x34 | .frameCount => 0x38 | .framesDone => 0x3C
  | .hdrMagic => 0x40 | .hdrFormat => 0x44 | .hdrFlags => 0x48 | .hdrWidth => 0x4C | .hdrHeight => 0x50
  | .hdrStride => 0x54 | .cvtIn => 0x58 | .cvtOut => 0x5C | .sinkErr => 0x60 | .srcErr => 0x64 | .secNum => 0x68
  | .curSection => 0x6C | .secCount i => 0x80 + 4 * i | .reserved => 0

/-- A register stands at its own offset (R22). -/
theorem regAt_offset {n off : Nat} (ha : off % 4 = 0) (hr : regAt n off ≠ .reserved) : (regAt n off).offset = off := by
  revert hr
  unfold regAt
  split
  case h_29 =>
    split
    · intro _
      simp only [Reg.offset]
      omega
    · exact fun h => absurd rfl h
  all_goals exact fun _ => rfl

/-- What a write of `v` leaves in a register, where it stores anything: `n` is MAX_SECTIONS (R61). -/
def Reg.stored (n : Nat) (v : Word) : Reg → Option Word
  | .inWidth | .inHeight | .frameCount | .cvtIn | .secCount _ => some v
  | .secNum => some (legalSecNum n v)
  | _ => none

/-- The writable registers stand where R31, R32, R35, R38 and R40 put them. -/
theorem stored_regAt (n : Nat) (v : Word) {off : Nat} (ha : off % 4 = 0) :
    (regAt n off).stored n v =
      if off ∈ [0x30, 0x34, 0x38, 0x58] ∨ (0x80 ≤ off ∧ off < 0x80 + 4 * n) then some v
      else if off = 0x68 then some (legalSecNum n v) else none := by
  rcases Nat.lt_or_ge off 0x80 with hlt | hge
  · rw [regAt_low 0 hlt]
    have : ¬ 0x80 ≤ off := by omega
    simp only [this, false_and, or_false]
    obtain ⟨k, rfl⟩ : ∃ k, off = 4 * k := ⟨off / 4, by omega⟩
    have hk : k < 32 := by omega
    clear hlt ha this
    interval_cases k <;> rfl
  · have h68 : off ≠ 0x68 := by omega
    have hlow : off ∉ [0x30, 0x34, 0x38, 0x58] := by simp; omega
    obtain ⟨i, rfl⟩ : ∃ i, off = 0x80 + 4 * i := ⟨(off - 0x80) / 4, by omega⟩
    rcases Nat.lt_or_ge i n with hi | hi
    · rw [regAt_secCount hi, if_pos (.inr ⟨hge, by omega⟩), Reg.stored]
    · have htable : ¬ (0x80 ≤ 0x80 + 4 * i ∧ 0x80 + 4 * i < 0x80 + 4 * n) := by omega
      rw [regAt_reserved (by omega), if_neg (not_or.mpr ⟨hlow, htable⟩), if_neg h68]
      rfl

/-- A register reads what was stored in it. -/
theorem regValue_writeReg_same {s : State} {r : Reg} (v : Word) (hr : ∀ i, r = .secCount i → i < s.secCount.length) :
    regValue (writeReg r v s) r = (r.stored s.secCount.length v).getD (regValue s r) := by
  cases r with
  | secCount i =>
    have hi := hr i rfl
    simp [writeReg, regValue, Reg.stored, hi]
  | _ => rfl

/-- Every other register reads as before. -/
theorem regValue_writeReg_other {s : State} {r r' : Reg} (v : Word) (h : r' ≠ r) :
    regValue (writeReg r v s) r' = regValue s r' := by
  cases r with
  | secCount i =>
    cases r' with
    | secCount j =>
      have hij : i ≠ j := fun hij => h (by rw [hij])
      simp [writeReg, regValue, List.getElem?_set_ne hij]
    | _ => rfl
  | inWidth => cases r' with | inWidth => exact absurd rfl h | _ => rfl
  | inHeight => cases r' with | inHeight => exact absurd rfl h | _ => rfl
  | frameCount => cases r' with | frameCount => exact absurd rfl h | _ => rfl
  | cvtIn => cases r' with | cvtIn => exact absurd rfl h | _ => rfl
  | secNum => cases r' with | secNum => exact absurd rfl h | _ => rfl
  | _ => rfl

/-- What a write of a register leaves alone beside the other registers: STATUS, the ports, and what lies outside the
block (R61). -/
theorem writeReg_frame (r : Reg) (v : Word) (s : State) :
    (writeReg r v s).status = s.status ∧ keepsPixels s (writeReg r v s) ∧ keepsSink s (writeReg r v s)
      ∧ (writeReg r v s).running = s.running ∧ keepsWorld s (writeReg r v s) := by
  cases r <;> exact ⟨rfl, ⟨rfl, rfl⟩, ⟨rfl, rfl, rfl, rfl⟩, rfl, rfl, rfl, rfl⟩

/-- What the window reads after a write: at the offset written, the value stored there; elsewhere, as before (R61). -/
theorem readWindow_writeReg {s : State} {off o : Nat} (v : Word) (ha : off % 4 = 0) (ho : o % 4 = 0) :
    readWindow (writeReg (regAt s.secCount.length off) v s) o =
      if o = off then ((regAt s.secCount.length off).stored s.secCount.length v).getD (readWindow s o)
      else readWindow s o := by
  rw [readWindow, writeReg_secCount_length]
  by_cases heq : o = off
  · subst heq
    rw [if_pos rfl, regValue_writeReg_same v fun i hi => regAt_secCount_lt hi]
    rfl
  · rw [if_neg heq]
    by_cases hres : regAt s.secCount.length o = .reserved
    · rw [readWindow, hres]
      rfl
    · refine regValue_writeReg_other v fun hreg => heq ?_
      rw [← regAt_offset ho hres, hreg, regAt_offset ha (hreg ▸ hres)]

/-- Settles O7: the step is the write of the register at the offset, which reads what it stores; the other offsets read
as before. -/
theorem hostWriteStoresOneRegister : Obligations.HostWriteStoresOneRegister := by
  intro s rest off v hh hb hr ha hl hoff
  have hturn := (nextTurn_of_write hh (.inr hr) ha hl).trans (hostWrite_reg (s := { s with host := rest }) v hb hoff)
  obtain ⟨hstatus, hpix, hsink, hrun, hworld⟩ :=
    writeReg_frame (regAt s.secCount.length off) v { s with host := rest }
  obtain ⟨-, hrec, hsrc⟩ := writeReg_ports (regAt s.secCount.length off) v { s with host := rest }
  refine ⟨_, step_eq_of_ended hturn, fun o ho _ => ?_, hstatus, hsrc, hpix, hsink, hrec, hrun.trans hr, hworld⟩
  rw [readWindow_writeReg (s := { s with host := rest }) v ha ho, stored_regAt _ v ha]
  by_cases heq : o = off
  · subst heq
    simp only [if_true, true_and]
    split
    · rfl
    · split <;> rfl
  · simp only [heq, if_false, false_and]
    rfl

end Sys2Proof.Machine
end

section
/-! Proofs of 20_memory: a source that fails while a decode command reads or drains it (O40, O48). -/
namespace Sys2Proof.Machine

/-- Unmarshalling inverts marshalling, field by field (R69, R140, R141). -/
theorem unpackHeader_packHeader : UnpackPacks := by
  rintro ⟨magic, fmt, flags, width, height, stride⟩
  rw [unpackHeader, Header.mk.injEq]
  exact ⟨or_bytes_eq magic, or_bytes_eq fmt, or_bytes_eq flags, or_bytes_eq width, or_bytes_eq height,
    or_bytes_eq stride⟩

/-- STATUS where an error ends a command: of what its start left, only WR_WHILE_BUSY survives (R42, R235). -/
theorem startCommand_status_failed (seen : List BlockState) (mayWarn : Bool) (s : State) (c : Code) (avail : BitVec 5) :
    (startCommand seen mayWarn s).status.failed c avail = errorStatus s c avail := by
  rw [startCommand_status_eq]
  rfl

/-- What a source that fails with `e` makes of a command with the header `h` latched: every byte there was is consumed,
and SRC_IO is raised at CURSOR (R64, R65, R241). -/
def sourceFailed (e : Word) (h : Header) (s : State) : State :=
  raiseError .srcIo (s.cursor + BitVec.ofNat 64 s.src.bytes.length)
    { consume s.src.bytes.length s with hdr := h, srcErr := e }

@[simp] theorem sourceFailed_src (e : Word) (h : Header) (s : State) :
    (sourceFailed e h s).src = { s.src with bytes := [] } := by
  simp [sourceFailed, raiseError, consume]

theorem sourceFailed_cursor_toNat {e : Word} {h : Header} {s : State}
    (hc : s.cursor.toNat + s.src.bytes.length < 2 ^ 64) :
    (sourceFailed e h s).cursor.toNat = s.cursor.toNat + s.src.bytes.length :=
  add_ofNat_toNat hc

/-- DecodeAt where the source fails inside the header: the header held before stays latched (R64, R241). -/
theorem decodeAt_failsInHeader {s : State} {e : Word} (hl : s.src.bytes.length < 24) (he : s.src.ending = .err e)
    (hc : s.cursor.toNat + s.src.bytes.length < 2 ^ 64) : decodeAt s = .stopped (sourceFailed e s.hdr s) :=
  decodeAt_headerFails hl he hc

/-- DecodeAt where the source fails inside the payload: the header read is latched (R64, R241). -/
theorem decodeAt_failsInPayload {s : State} {h : Header} {got : List Byte} {e : Word}
    (hs : s.src.bytes = packHeader h ++ got) (hm : h.magic = frameMagic) (hp : got.length < payloadLength h)
    (he : s.src.ending = .err e) (hc : s.cursor.toNat + s.src.bytes.length < 2 ^ 64) :
    decodeAt s = .stopped (sourceFailed e h s) := by
  have hu := unpackHeader_packHeader h
  have hl : s.src.bytes.length = 24 + got.length := by rw [hs, List.length_append, packHeader_length]
  rw [decodeAt_payloadFails hs rfl (by rw [hu]; exact hm) (by rw [hu]; exact hp) he (hl ▸ hc), sourceFailed, hl]
  simp [headerRead, consume, setBlockState, raiseError, Status.failed, hu, BitVec.ofNat_add, BitVec.add_assoc]

/-- The drain of a source that fails (R65, R241). -/
theorem drainTrailing_sourceFails {s : State} {e : Word} (he : s.src.ending = .err e)
    (hc : s.cursor.toNat + s.src.bytes.length < 2 ^ 64) : drainTrailing s = .stopped (sourceFailed e s.hdr s) :=
  drainTrailing_fails he hc

/-- A header that DECF cannot read to its end, or whose payload it cannot (R241). -/
theorem decodeOne_sourceFails {s : State} {e : Word} (he : s.src.ending = .err e)
    (hc : s.cursor.toNat + s.src.bytes.length < 2 ^ 64)
    (hshort : s.src.bytes.length < 24
      ∨ ∃ h got, s.src.bytes = packHeader h ++ got ∧ h.magic = frameMagic ∧ got.length < payloadLength h) :
    ∃ h, (s.src.bytes.length < 24 → h = s.hdr) ∧ decodeOne s = .stopped (sourceFailed e h s) := by
  rcases hshort with hl | ⟨h, got, hs, hm, hp⟩
  · exact ⟨s.hdr, fun _ => rfl, by rw [decodeOne, decodeAt_failsInHeader hl he hc, Run.bind_stopped]⟩
  · refine ⟨h, fun hl => ?_, by rw [decodeOne, decodeAt_failsInPayload hs hm hp he hc, Run.bind_stopped]⟩
    rw [hs, List.length_append, packHeader_length] at hl
    omega

/-- Settles O40: DECF stops where the source failed, in the header or in the payload. -/
theorem decfSourceFails : Obligations.DecfSourceFails := by
  intro s e he hc hshort
  obtain ⟨h, hhdr, hrun⟩ := decodeOne_sourceFails (s := startCommand [.rdHdr, .valMagic, .rdPay] false s) he hc hshort
  exact ⟨_, congrArg Run.outcome hrun, startCommand_status_failed [.rdHdr, .valMagic, .rdPay] false s .srcIo 0,
    ⟨rfl, rfl, rfl, rfl, rfl, rfl⟩, rfl, sourceFailed_cursor_toNat hc, sourceFailed_src e h _, hhdr, rfl,
    ⟨rfl, rfl, rfl, rfl, rfl, rfl⟩, ⟨rfl, rfl⟩, ⟨rfl, rfl, rfl, rfl⟩, rfl, ⟨rfl, rfl, rfl⟩⟩

/-- Settles O48: the frames wanted are all there, so the drain is what finds the source to fail. -/
theorem countedDecodeSourceFailsInDrain : Obligations.CountedDecodeSourceFailsInDrain := by
  intro s i secs tail e hw hf hd hs he hc
  have hl : s.src.bytes.length = (containerBytes secs.flatten).length + tail.length := by rw [hs, List.length_append]
  obtain ⟨seen, mayWarn, b, hexec⟩ := exec_wantsExactly unpackHeader_packHeader hw hf hs (by omega) hd
  let u := sectionsRead 0 secs b (startCommand seen mayWarn s)
  have hub : u.src.bytes = tail := sectionsRead_bytes hs
  have huc : u.cursor.toNat = s.cursor.toNat + (containerBytes secs.flatten).length :=
    sectionsRead_cursor_toNat (s := startCommand seen mayWarn s) (by simp only [startCommand_cursor]; omega)
  have huc' : u.cursor.toNat + u.src.bytes.length < 2 ^ 64 := by rw [huc, hub]; omega
  refine ⟨sourceFailed e u.hdr u, ?_, rfl, startCommand_status_failed seen mayWarn s .srcIo 0,
    ⟨rfl, rfl, ?frames, ?sectionIdx, rfl, rfl⟩, ?cursor, sourceFailed_src e u.hdr u, rfl⟩
  · rw [hexec, drainTrailing_sourceFails (s := u) he huc', Run.outcome_stopped]
  case frames => exact BitVec.zero_add _
  case sectionIdx =>
    change (if secs.isEmpty then 0 else BitVec.ofNat 32 (0 + secs.length - 1)) = _
    cases secs <;> simp
  case cursor => rw [sourceFailed_cursor_toNat huc', huc, hub, hl, Nat.add_assoc]

end Sys2Proof.Machine
end

section
/-! Proofs of 20_memory: an ENCF that waits for pixel words and goes on when they are ready (O32). -/
namespace Sys2Proof.Machine

/-- An ENCF that has not waited before and stops to wait goes on, when `more` words are ready, as it would have with
them behind the ready ones from the start (R67). -/
theorem encodeCommand_more {code : Word} {s t : State} {job : EncodeJob} (more : List Word) (hr : s.running = none)
    (h : encodeCommand code s = .stopped t) (hj : t.running = some job) :
    encodeCommand code (withPixels (s.pix ++ more) s)
      = encodePixels job.fmt job.remaining (withPixels more { t with running := none }) := by
  cases hf : supportedFormat code with
  | none =>
    rw [encodeCommand_unsupported hf] at h
    cases h
    cases hj
  | some fmt =>
    obtain rfl := supportedFormat_eq_some hf
    by_cases hg : goodDimensions fmt s
    · by_cases hc : s.expCount.toNat + frameLength (encodedHeader fmt s.inWidth s.inHeight) < 2 ^ 64
      · have hmap := sinkWrite_withPixels (s.pix ++ more) (packHeader (encodedHeader fmt s.inWidth s.inHeight))
          (headerStart fmt s)
        rw [encodeCommand_eq hg hc] at h
        rw [encodeCommand_eq (s := withPixels (s.pix ++ more) s) hg hc]
        refine (Run.bind_congr _ hmap).trans ?_
        have hw := sinkWrite_holds (packHeader (encodedHeader fmt s.inWidth s.inHeight)) (headerStart fmt s)
        cases hrun : sinkWrite (packHeader (encodedHeader fmt s.inWidth s.inHeight)) (headerStart fmt s) with
        | ok a u =>
          rw [hrun] at h hw
          obtain ⟨rfl, -⟩ := hw
          exact encodePixels_more (s := payloadStart fmt s) more hr h hj
        | stopped u =>
          rw [hrun] at h hw
          cases h
          obtain ⟨k, e, -, -, rfl⟩ := hw
          cases hj
        | refused r =>
          rw [hrun] at h
          cases h
      · rw [encodeCommand_overflows hg (Nat.not_lt.mp hc)] at h
        cases h
    · rw [encodeCommand_badDimensions hg] at h
      cases h
      cases hj

/-- The state of an ENCF that began in `s` and waits, its header and every ready word's bytes written (R67). -/
def starved (fmt : PixelFormat) (s : State) : State :=
  { accepted (s.pix.flatMap (pixbytes fmt)) (pixelsTaken s.pix.length (payloadStart fmt s)) with
    running := some { fmt := fmt, remaining := s.inWidth.toNat * s.inHeight.toNat - s.pix.length } }

/-- An ENCF that ends with a job waits for the words it has not got (R67). -/
theorem encodeCommand_waits {code : Word} {s t : State} {job : EncodeJob}
    (h : (encodeCommand code s).outcome = .next t) (hj : t.running = some job) :
    encodeCommand code s = .stopped t
      ∧ ∃ fmt, s.pix.length < s.inWidth.toNat * s.inHeight.toNat ∧ t = starved fmt s := by
  have hall := encodeCommand_holds code s
  cases hrun : encodeCommand code s with
  | ok a u =>
    rw [hrun] at h
    cases h
    cases hj
  | refused r =>
    rw [hrun] at h
    cases h
  | stopped u =>
    rw [hrun] at h hall
    cases h
    refine ⟨rfl, ?_⟩
    rcases hall with ⟨-, rfl⟩ | ⟨fmt, -, ⟨-, rfl⟩ | ⟨-, -, ⟨k, e, v, -, -, -, rfl⟩ | ⟨hn, -, rfl⟩ |
      ⟨k, j, e, v, -, -, -, -, -, rfl⟩⟩⟩
    case inr.inr.inr.inl => exact ⟨fmt, hn, rfl⟩
    all_goals cases hj

/-- A waiting ENCF is busy in E_PAY and has reported no event (R42, R67). -/
theorem starved_status (fmt : PixelFormat) (s : State) :
    (starved fmt (encodeStart s)).status
      = { successStatus s false with busy := true, done := false, state := .ePay } := by
  change ({ (encodeStart s).status with state := .ePay } : Status) = _
  rw [startCommand_status_eq]
  rfl

/-- A waiting ENCF has read every word that was ready (R67). -/
theorem starved_pix (fmt : PixelFormat) (s : State) : (starved fmt s).pix = [] :=
  List.drop_length

/-- OUT_COUNT of a waiting ENCF counts its header and the pixels written (R28, R150). -/
theorem starved_outCount {fmt : PixelFormat} {s : State}
    (ho : s.outCount.toNat + (24 + s.pix.length * fmt.bpp) < 2 ^ 64) :
    (starved fmt s).outCount.toNat = s.outCount.toNat + (24 + s.pix.length * fmt.bpp) := by
  have hhead : (payloadStart fmt s).outCount.toNat = s.outCount.toNat + 24 := payloadStart_outCount (by omega)
  have hpix : (accepted (s.pix.flatMap (pixbytes fmt)) (payloadStart fmt s)).outCount.toNat
      = (payloadStart fmt s).outCount.toNat + s.pix.length * fmt.bpp := by
    have hlen := flatMap_pixbytes_length fmt s.pix
    rw [accepted_outCount_toNat (by omega), hlen]
  exact hpix.trans (by omega)

/-- A waiting ENCF has used one answer of the sink for each byte it wrote (R66). -/
theorem starved_sinkAnswers (fmt : PixelFormat) (s : State) :
    (starved fmt s).sinkAnswers = s.sinkAnswers.drop (24 + s.pix.length * fmt.bpp) := by
  simp [starved, accepted, pixelsTaken, payloadStart, headerStart, setBlockState]

/-- Settles O32: where the words are too few the command stops in `starved`; from there it takes further words as it
would have taken them behind the ready ones. -/
theorem encfWaitsAndGoesOn : Obligations.EncfWaitsAndGoesOn := by
  refine ⟨?waits, ?goesOn⟩
  case waits =>
    intro s i fmt hi n h out hg hn ha ho hc
    have hlen := frameLength_eq_encodedLength hg
    have hrun : encodeCommand fmt.code (encodeStart s) = .stopped (starved fmt (encodeStart s)) :=
      encodeCommand_starves (s := encodeStart s) hg hn ha ho (frameLength_encodedHeader hg ▸ hlen ▸ hc)
    refine ⟨starved fmt (encodeStart s), ?_, rfl, starved_status fmt s, rfl, ?out, ?exp, rfl, starved_pix fmt _, rfl,
      ?answers, ⟨rfl, rfl, rfl, rfl, rfl, rfl⟩, rfl, ⟨rfl, rfl, rfl, rfl, rfl, rfl⟩, ⟨rfl, rfl⟩, rfl, rfl, rfl, rfl⟩
    · rw [exec_of_encodesIn hi, hrun, Run.outcome_stopped]
    case out => exact starved_outCount (s := encodeStart s) ho
    case exp => exact (add_ofNat_toNat (hlen ▸ hc)).trans (congrArg (s.expCount.toNat + ·) hlen)
    case answers => exact starved_sinkAnswers fmt (encodeStart s)
  case goesOn =>
    intro s t i job hi h hj
    obtain ⟨code, hcode⟩ := exec_of_isEncode hi
    obtain ⟨hrun, fmt, hn, ht⟩ := encodeCommand_waits (s := encodeStart s) ((hcode s).symm.trans h) hj
    have hmore : ∀ more, resumeEncode job { t with pix := more } = exec i { s with pix := s.pix ++ more } := by
      intro more
      rw [hcode, resumeEncode, continueCommand_of_no_access waitingStates (by rw [ht]; rfl)]
      exact congrArg Run.outcome (encodeCommand_more (s := encodeStart s) more rfl hrun hj).symm
    subst ht
    cases hj
    have hst := starved_status fmt s
    exact ⟨congrArg Status.busy hst, congrArg Status.done hst, congrArg Status.state hst, starved_pix fmt _,
      Nat.sub_pos_of_lt hn, Nat.add_sub_cancel' hn.le, hmore⟩

end Sys2Proof.Machine
end

section
/-! Proofs of 20_memory: the host's accesses while a command is busy (O60). -/
namespace Sys2Proof.Machine

/-! ### What the accesses are answered -/

/-- The reads are answered in order, each under the offset of its register (R248). -/
theorem busyReads_offsets (seen : List BlockState) (mayWarn : Bool) (st : Status) (n : Nat) (as : List BusyAccess) :
    (busyReads seen mayWarn st n as).map Prod.fst = as.filterMap fun a => match a with
      | .read r => some (4 * r.val)
      | .write _ _ => none := by
  induction as generalizing st n with
  | nil => rfl
  | cons a as ih =>
    cases a with
    | write r v => exact ih st.writeDropped n
    | read r => exact congrArg (4 * r.val :: ·) (ih st (n + 1))

/-- Each read is answered once (R248). -/
theorem busyReads_length (seen : List BlockState) (mayWarn : Bool) (st : Status) (n : Nat) (as : List BusyAccess) :
    (busyReads seen mayWarn st n as).length = as.countP fun a => !a.isWrite := by
  induction as generalizing st n with
  | nil => rfl
  | cons a as ih =>
    cases a with
    | write r v => simpa [busyReads, BusyAccess.isWrite] using ih st.writeDropped n
    | read r => simpa [busyReads, BusyAccess.isWrite] using ih st (n + 1)

/-- The state drawn for a busy STATUS read is one of those given (R248, 93 U7). -/
theorem drawnState_mem {seen : List BlockState} (hne : seen ≠ []) (n : Nat) (st : Status) :
    drawnState seen n st ∈ seen := by
  have hlt : Config.busyState n % seen.length < seen.length := Nat.mod_lt _ (List.length_pos_iff.mpr hne)
  rw [drawnState, List.getD_eq_getElem _ _ hlt]
  exact List.getElem_mem hlt

/-- What a STATUS read shows while a command is busy: BUSY, and one of the states given (R248). -/
theorem busyReads_status {seen : List BlockState} (hne : seen ≠ []) (mayWarn : Bool) {st : Status}
    (hb : st.busy = true) (n : Nat) (as : List BusyAccess) {v : Word} (hv : (4, v) ∈ busyReads seen mayWarn st n as) :
    v.getLsbD 0 = true ∧ v.extractLsb' 24 4 ∈ seen.map BlockState.num := by
  induction as generalizing st n with
  | nil => cases hv
  | cons a as ih =>
    cases a with
    | write r w => exact ih (st := st.writeDropped) hb n hv
    | read r =>
      rcases List.mem_cons.mp hv with heq | hrest
      · obtain ⟨hoff, rfl⟩ := Prod.mk.inj heq
        rw [if_pos (by omega), busyStatusWord]
        obtain ⟨hbusy, -⟩ := word_flags
          { st with state := drawnState seen n st, warnTrail := mayWarn && Config.busyWarn n }
        obtain ⟨-, -, -, -, hstate, -⟩ := word_fields
          { st with state := drawnState seen n st, warnTrail := mayWarn && Config.busyWarn n }
        rw [hbusy, hstate]
        exact ⟨hb, List.mem_map_of_mem (drawnState_mem hne n st)⟩
      · exact ih hb (n + 1) hrest

/-! ### What they leave of a command -/

/-- The accesses that fall while a command is busy show in its start only as `traced` says (R73, R248). -/
theorem startCommand_accesses (seen : List BlockState) (mayWarn : Bool) (s : State) (as : List BusyAccess) :
    startCommand seen mayWarn { s with overlap := as }
      = traced (as.any BusyAccess.isWrite) (busyReads (s.status.state :: seen) mayWarn s.status.started s.draws as)
          (s.draws + as.countP fun a => !a.isWrite) (startCommand seen mayWarn { s with overlap := [] }) := by
  simp [startCommand, traced, busyReads]

/-- A part whose run commutes with `traced` commutes with it as a whole command. -/
theorem outcome_traced {flag : Bool} {log : List (Nat × Word)} {n : Nat} {x y : Run Unit} {t : State}
    (hxy : y = x.map (traced flag log n)) (h : x.outcome = .next t) : y.outcome = .next (traced flag log n t) := by
  subst hxy
  cases x with
  | ok a s =>
    cases h
    rfl
  | stopped s =>
    cases h
    rfl
  | refused r => cases h

theorem Completes.readLog {u t : State} (h : Completes u t) : t.readLog = u.readLog := by
  cases h <;> rfl

theorem DecodeEnds.readLog {m : Nat} {s t : State} (h : DecodeEnds m s t) : t.readLog = s.readLog := by
  obtain ⟨u, ⟨k, rs, hd, b, cur, -, -, -, -, -, rfl⟩, ht⟩ := h
  exact ht.readLog

theorem encodeCommand_readLog {code : Word} {s t : State} (h : (encodeCommand code s).outcome = .next t) :
    t.readLog = s.readLog := by
  obtain ⟨m, v, ⟨n, u, ⟨bs, k, -, -, rfl⟩, hend⟩, -, -, hv⟩ := encodeCommand_ends h
  have hlog : v.readLog = s.readLog := by rw [hv]
  rcases hend with ⟨-, ht⟩ | ⟨job, -, -, rfl⟩
  · exact ht.readLog.trans hlog
  · exact hlog

/-- A command's body neither reads nor changes what the host has read and drawn, and it does not read the flag of R248,
which it leaves as `keep` says. It begins with TRAIL_COUNT = 0, as every start leaves it (R42). -/
def KeepsTrace (keep : Bool → Bool) (body : State → Host.Outcome State Fault Refusal) : Prop :=
  ∀ s t, s.trailCount = 0 → body s = .next t →
    t.readLog = s.readLog ∧ ∀ flag log n, body (traced flag log n s) = .next (traced (keep flag) log n t)

theorem encodeCommand_keepsTrace (code : Word) : KeepsTrace id fun u => (encodeCommand code u).outcome :=
  fun s _ _ h =>
    ⟨encodeCommand_readLog h, fun flag log n => outcome_traced (encodeCommand_traced flag log n code s) h⟩

/-- The counts are those that the settings give (R185, R186), which `traced` leaves. -/
theorem decodeCounted_keepsTrace (counts : State → List Word)
    (hcounts : ∀ flag log n s, counts (traced flag log n s) = counts s) :
    KeepsTrace id fun u => (decodeCounted (counts u) u).outcome := by
  intro s t hz h
  refine ⟨(decodeCounted_ends (Nat.le_refl _) hz h).readLog, fun flag log n => ?_⟩
  simp only [hcounts]
  exact outcome_traced (decodeCounted_traced flag log n (counts s) s) h

theorem decodeScan_keepsTrace :
    KeepsTrace id fun u => (decodeScan (u.src.bytes.length + 1) u).outcome :=
  fun s _ _ h => ⟨(decodeScan_ends (m := 0) h).readLog, fun flag log n =>
    outcome_traced (decodeScan_traced flag log n (s.src.bytes.length + 1) s) h⟩

theorem decodeOne_keepsTrace : KeepsTrace id fun u => (decodeOne u).outcome :=
  fun s _ _ h =>
    ⟨(decodeOne_ends (m := 0) h).readLog, fun flag log n => outcome_traced (decodeOne_traced flag log n s) h⟩

/-- A body that always completes, in a state that `traced` does not touch. -/
theorem KeepsTrace.of_next {keep : Bool → Bool} {f : State → State} (hlog : ∀ s, (f s).readLog = s.readLog)
    (hf : ∀ flag log n s, f (traced flag log n s) = traced (keep flag) log n (f s)) :
    KeepsTrace keep fun u => .next (f u) := by
  intro s t _ h
  cases h
  exact ⟨hlog s, fun flag log n => congrArg _ (hf flag log n s)⟩

/-- A body that goes one of two ways, by a condition on what `traced` leaves. -/
theorem KeepsTrace.ite {keep : Bool → Bool} {c : State → Prop} [DecidablePred c]
    {f g : State → Host.Outcome State Fault Refusal} (hc : ∀ flag log n s, c (traced flag log n s) ↔ c s)
    (hf : KeepsTrace keep f) (hg : KeepsTrace keep g) : KeepsTrace keep fun u => if c u then f u else g u := by
  intro s t hz h
  simp only [hc]
  by_cases hs : c s
  · simp only [hs, if_true] at h ⊢
    exact hf s t hz h
  · simp only [hs, if_false] at h ⊢
    exact hg s t hz h

/-- A command is its start and then a body that keeps the trace, except that SRST clears the flag with the other
registers (R221); a STATUS read may show the states that its start lists (R25). -/
theorem exec_eq_tracedBody (i : Instr) : ∃ seen mayWarn, ∃ body : State → Host.Outcome State Fault Refusal,
    (∀ s, exec i s = body (startCommand seen mayWarn s)) ∧ seen ⊆ passesThrough i
      ∧ KeepsTrace (decide (i ≠ .srst) && ·) body := by
  cases i with
  | nop => exact ⟨_, _, _, fun _ => rfl, List.Subset.refl _, .of_next (f := finish) (fun _ => rfl) fun _ _ _ _ => rfl⟩
  | srst =>
    exact ⟨_, _, _, fun _ => rfl, List.Subset.refl _, .of_next (f := resetBlock) (fun _ => rfl) fun _ _ _ _ => rfl⟩
  | cvt565 =>
    exact ⟨_, _, _, fun _ => rfl, List.Subset.refl _, .of_next (f := fun u => finish { setBlockState .cvt u with
      cvtOut := (rgb565 (pixelR u.cvtIn) (pixelG u.cvtIn) (pixelB u.cvtIn)).setWidth 32 }) (fun _ => rfl)
      fun _ _ _ _ => rfl⟩
  | cvt565a8 =>
    exact ⟨_, _, _, fun _ => rfl, List.Subset.refl _, .of_next (f := fun u => finish { setBlockState .cvt u with
      cvtOut := (rgb565 (pixelR u.cvtIn) (pixelG u.cvtIn) (pixelB u.cvtIn)).setWidth 32
        ||| ((pixelA u.cvtIn).setWidth 32 <<< 16) }) (fun _ => rfl) fun _ _ _ _ => rfl⟩
  | encfAuto a => exact ⟨_, _, _, fun _ => rfl, List.Subset.refl _, encodeCommand_keepsTrace _⟩
  | encfFmt f => exact ⟨_, _, _, fun _ => rfl, List.Subset.refl _, encodeCommand_keepsTrace _⟩
  | cencb =>
    exact ⟨_, _, _, fun _ => rfl, List.Subset.refl _,
      .of_next (f := fun u => finish { u with outCount := 0, expCount := 0 }) (fun _ => rfl) fun _ _ _ _ => rfl⟩
  | cence =>
    exact ⟨_, _, _, fun _ => rfl, List.Subset.refl _,
      .ite (c := fun u => u.outCount ≠ u.expCount) (fun _ _ _ _ => Iff.rfl)
        (.of_next (f := fun u => raiseError .lenMismatch u.outCount (setBlockState .cCheck u)) (fun _ => rfl)
          fun _ _ _ _ => rfl)
        (.of_next (f := fun u => finish (setBlockState .cCheck u)) (fun _ => rfl) fun _ _ _ _ => rfl)⟩
  | decf => exact ⟨_, _, _, fun _ => rfl, List.Subset.refl _, decodeOne_keepsTrace⟩
  | decn =>
    exact ⟨_, _, _, fun _ => rfl, by decide, decodeCounted_keepsTrace (fun u => [u.frameCount]) fun _ _ _ _ => rfl⟩
  | decs => exact ⟨_, _, _, fun _ => rfl, List.Subset.refl _, decodeScan_keepsTrace⟩
  | decsec =>
    exact ⟨_, _, _, fun _ => rfl, by decide,
      decodeCounted_keepsTrace (fun u => u.secCount.take u.secNum.toNat) fun _ _ _ _ => rfl⟩

/-- Settles O60: the accesses show in the command's start only, as `traced` says, and its body keeps that. -/
theorem accessesWhileBusyOnlyFlag : Obligations.AccessesWhileBusyOnlyFlag := by
  intro s t i as h
  obtain ⟨seen, mayWarn, body, hexec, hseen, hbody⟩ := exec_eq_tracedBody i
  rw [hexec] at h
  obtain ⟨hlog, htraced⟩ := hbody _ t rfl h
  refine ⟨busyReads (s.status.state :: seen) mayWarn s.status.started s.draws as, ?outcome, busyReads_offsets _ _ _ _ _,
    ?status⟩
  case outcome =>
    rw [hexec, startCommand_accesses, htraced, busyReads_length, traced, hlog]
    simp [busyReads]
  case status =>
    intro v hv
    obtain ⟨hbusy, hstate⟩ := busyReads_status (by simp) mayWarn (by rfl) s.draws as hv
    exact ⟨hbusy, List.map_subset _ (List.cons_subset_cons _ hseen) hstate⟩

end Sys2Proof.Machine
end

section
/-! Proofs of 30_encoding: the fields of a command word, what the decoder accepts and rejects, and the rows of the
opcode table (O1 to O4). -/
namespace Sys2Proof

/-! ### The fields of a word (R90) -/

/-- The six fields of a word, from the highest to the lowest: reserved, FMT, reserved, HAS_ALPHA, AUTO and OP. -/
def wordFields (w : Word) : BitVec 8 × BitVec 8 × BitVec 6 × Bool × Bool × BitVec 8 :=
  (reservedHigh w, fmtField w, reservedLow w, alphaField w, autoField w, opField w)

/-- A bit that lies in a field is read from the field. -/
theorem getLsbD_eq_of_extractLsb'_eq {v w : Word} {start len k : Nat}
    (h : v.extractLsb' start len = w.extractLsb' start len) (hstart : start ≤ k) (hk : k < start + len) :
    v.getLsbD k = w.getLsbD k := by
  have hbit := congrArg (·.getLsbD (k - start)) h
  simpa [BitVec.getLsbD_extractLsb', show k - start < len by omega, show start + (k - start) = k by omega] using hbit

/-- No bit of a word lies outside its fields. -/
theorem wordFields_injective : Function.Injective wordFields := by
  intro v w h
  simp only [wordFields, Prod.mk.injEq] at h
  obtain ⟨hhigh, hfmt, hlow, halpha, hauto, hop⟩ := h
  refine BitVec.eq_of_getLsbD_eq fun k hk => ?_
  obtain h | rfl | rfl | h | h | h :
      k < 8 ∨ k = 8 ∨ k = 9 ∨ (10 ≤ k ∧ k < 16) ∨ (16 ≤ k ∧ k < 24) ∨ 24 ≤ k := by omega
  · exact getLsbD_eq_of_extractLsb'_eq hop (by omega) h
  · exact hauto
  · exact halpha
  · exact getLsbD_eq_of_extractLsb'_eq hlow h.1 h.2
  · exact getLsbD_eq_of_extractLsb'_eq hfmt h.1 h.2
  · exact getLsbD_eq_of_extractLsb'_eq hhigh h hk

/-- A mask cuts every field on its own. -/
theorem wordFields_and {m : Word} {high fmt op : BitVec 8} {low : BitVec 6} {alpha auto : Bool}
    (hm : wordFields m = (high, fmt, low, alpha, auto, op)) (w : Word) :
    wordFields (w &&& m) = (reservedHigh w &&& high, fmtField w &&& fmt, reservedLow w &&& low, alphaField w && alpha,
      autoField w && auto, opField w &&& op) := by
  cases hm
  simp only [wordFields, reservedHigh, fmtField, reservedLow, alphaField, autoField, opField, BitVec.extractLsb'_and,
    BitVec.getLsbD_and]

/-! ### The words of the commands (R92, R93) -/

/-- The row of ENCF.AUTO fixes every field but HAS_ALPHA. -/
theorem wordFields_of_matches_encfAuto {w : Word} (h : w &&& 0xFFFFFDFF = 0x00000120) :
    wordFields w = (0, 0, 0, alphaField w, true, encfOp) := by
  have hmask : wordFields 0xFFFFFDFF = (.allOnes 8, .allOnes 8, .allOnes 6, false, true, .allOnes 8) := by decide
  have hmatch : wordFields 0x00000120 = (0, 0, 0, false, true, encfOp) := by decide
  have hfields := (wordFields_and hmask w).symm.trans ((congrArg wordFields h).trans hmatch)
  simpa only [wordFields, BitVec.and_allOnes, Bool.and_true, Bool.and_false, Prod.mk.injEq] using hfields

/-- The row of ENCF.FMT fixes every field but FMT. -/
theorem wordFields_of_matches_encfFmt {w : Word} (h : w &&& 0xFF00FFFF = 0x00000020) :
    wordFields w = (0, fmtField w, 0, false, false, encfOp) := by
  have hmask : wordFields 0xFF00FFFF = (.allOnes 8, 0, .allOnes 6, true, true, .allOnes 8) := by decide
  have hmatch : wordFields 0x00000020 = (0, 0, 0, false, false, encfOp) := by decide
  have hfields := (wordFields_and hmask w).symm.trans ((congrArg wordFields h).trans hmatch)
  simpa only [wordFields, BitVec.and_allOnes, BitVec.and_zero, BitVec.ofNat_eq_ofNat, Bool.and_true, Prod.mk.injEq]
    using hfields

theorem alphaField_encode_encfAuto (hasAlpha : Bool) : alphaField (encode (.encfAuto hasAlpha)) = hasAlpha := by
  cases hasAlpha <;> decide

theorem fmtField_encode_encfFmt (fmt : BitVec 8) : fmtField (encode (.encfFmt fmt)) = fmt := by
  ext k hk
  simp only [fmtField, encode, BitVec.getElem_extractLsb', BitVec.getLsbD_or, BitVec.getLsbD_shiftLeft]
  interval_cases k <;> simp

theorem wordFields_encode_encfAuto (hasAlpha : Bool) :
    wordFields (encode (.encfAuto hasAlpha)) = (0, 0, 0, hasAlpha, true, encfOp) := by
  rw [wordFields_of_matches_encfAuto (Laws.TableRow.encfAuto hasAlpha), alphaField_encode_encfAuto]

theorem wordFields_encode_encfFmt (fmt : BitVec 8) :
    wordFields (encode (.encfFmt fmt)) = (0, fmt, 0, false, false, encfOp) := by
  rw [wordFields_of_matches_encfFmt (Laws.TableRow.encfFmt fmt), fmtField_encode_encfFmt]

/-- The word of a command other than ENCF is its OP alone (R92). -/
theorem encode_plainOps : ∀ p ∈ plainOps, opField (encode p.2) = p.1 ∧ (encode p.2).extractLsb' 8 24 = 0 := by decide

theorem eq_of_opField_eq {v w : Word} (hop : opField v = opField w)
    (hrest : v.extractLsb' 8 24 = w.extractLsb' 8 24) : v = w := by
  refine BitVec.eq_of_getLsbD_eq fun k hk => ?_
  obtain h | h := Nat.lt_or_ge k 8
  · exact getLsbD_eq_of_extractLsb'_eq hop (Nat.zero_le k) (by omega)
  · exact getLsbD_eq_of_extractLsb'_eq hrest h hk

/-! ### What the decoder accepts -/

theorem decodeEncf_eq_ok {w : Word} {i : Instr} (hop : opField w = encfOp) (h : decodeEncf w = .ok i) :
    (∃ a, i = .encfAuto a ∧ wordFields w = (0, 0, 0, a, true, encfOp))
    ∨ ∃ f, i = .encfFmt f ∧ wordFields w = (0, f, 0, false, false, encfOp) := by
  unfold decodeEncf at h
  split_ifs at h with hreserved hauto hfmt halpha
  · cases h
    exact .inl ⟨_, rfl, by simp_all [wordFields]⟩
  · cases h
    exact .inr ⟨_, rfl, by simp_all [wordFields]⟩

theorem decodeWord_encf {w : Word} (hop : opField w = encfOp) : decodeWord w = decodeEncf w := if_pos hop

theorem mem_plainOps_of_lookup {op : BitVec 8} {i : Instr} (h : plainOps.lookup op = some i) : (op, i) ∈ plainOps := by
  obtain ⟨before, after, heq, -⟩ := List.lookup_eq_some_iff.mp h
  rw [heq]
  exact List.mem_append_right before List.mem_cons_self

theorem decodeWord_plain_eq_ok {w : Word} {i : Instr} (hop : opField w ≠ encfOp) (h : decodeWord w = .ok i) :
    (opField w, i) ∈ plainOps ∧ w.extractLsb' 8 24 = 0 := by
  rw [decodeWord, if_neg hop] at h
  split at h
  · cases h
  next j hlookup =>
    split_ifs at h with hrest
    cases h
    exact ⟨mem_plainOps_of_lookup hlookup, hrest⟩

/-- A word that decodes is the word of its command: by its fields for ENCF, else by OP and the 0 above it. -/
theorem encode_of_decodeWord {w : Word} {i : Instr} (h : decodeWord w = .ok i) : encode i = w := by
  by_cases hop : opField w = encfOp
  · rw [decodeWord_encf hop] at h
    obtain ⟨a, rfl, hfields⟩ | ⟨f, rfl, hfields⟩ := decodeEncf_eq_ok hop h
    · exact wordFields_injective ((wordFields_encode_encfAuto a).trans hfields.symm)
    · exact wordFields_injective ((wordFields_encode_encfFmt f).trans hfields.symm)
  · obtain ⟨hmem, hrest⟩ := decodeWord_plain_eq_ok hop h
    obtain ⟨hopi, hresti⟩ := encode_plainOps _ hmem
    exact eq_of_opField_eq hopi (hresti.trans hrest.symm)

theorem decodeWord_encode (i : Instr) : decodeWord (encode i) = .ok i := by
  cases i with
  | encfAuto a => cases a <;> decide
  | encfFmt f =>
    have hfields := wordFields_encode_encfFmt f
    simp only [wordFields, Prod.mk.injEq] at hfields
    obtain ⟨hhigh, hfmt, hlow, halpha, hauto, hop⟩ := hfields
    simp [decodeWord_encf hop, decodeEncf, hhigh, hfmt, hlow, halpha, hauto]
  | _ => decide

theorem decodeWord_eq_ok_iff {w : Word} {i : Instr} : decodeWord w = .ok i ↔ encode i = w :=
  ⟨encode_of_decodeWord, fun h => h ▸ decodeWord_encode i⟩

theorem encode_injective : Function.Injective encode := fun i j h =>
  Except.ok.inj ((decodeWord_encode i).symm.trans (h ▸ decodeWord_encode j))

/-- Settles O1: a word decodes to a command exactly if it is the command's word, and every command is well-formed. -/
theorem decodeInvertsEncode : Obligations.DecodeInvertsEncode :=
  ⟨fun i _ => decodeWord_encode i, fun _ _ h => ⟨rfl, encode_of_decodeWord h⟩⟩

/-- Settles O2: each word is the word of its command, which decodes to it. -/
theorem tabledWordsDecode : Obligations.TabledWordsDecode :=
  ⟨decodeWord_encode .nop, decodeWord_encode .srst, decodeWord_encode .cvt565, decodeWord_encode .cvt565a8,
    decodeWord_encode (.encfAuto false), decodeWord_encode (.encfAuto true), decodeWord_encode (.encfFmt 0x12),
    decodeWord_encode (.encfFmt 0x14), decodeWord_encode .cencb, decodeWord_encode .cence, decodeWord_encode .decf,
    decodeWord_encode .decn, decodeWord_encode .decs, decodeWord_encode .decsec⟩

/-! ### What the decoder rejects (R94) -/

theorem decodeEncf_rejects_iff {w : Word} :
    (∃ r, decodeEncf w = .error r) ↔
      (reservedHigh w ≠ 0 ∨ reservedLow w ≠ 0) ∨ (autoField w = true ∧ fmtField w ≠ 0)
      ∨ (autoField w = false ∧ alphaField w = true) := by
  unfold decodeEncf
  split_ifs with hreserved hauto hfmt halpha <;> simp_all

theorem lookup_plainOps_eq_none_iff {op : BitVec 8} :
    plainOps.lookup op = none ↔ op ∉ plainOps.map Prod.fst := by
  simp only [List.lookup_eq_none_iff, List.mem_map, bne_iff_ne, not_exists, not_and, ne_comm (a := op), ne_eq]

theorem decodeWord_plain_rejects_iff {w : Word} (hop : opField w ≠ encfOp) :
    (∃ r, decodeWord w = .error r) ↔ opField w ∉ plainOps.map Prod.fst ∨ w.extractLsb' 8 24 ≠ 0 := by
  rw [decodeWord, if_neg hop, ← lookup_plainOps_eq_none_iff]
  split
  next hlookup => exact iff_of_true ⟨_, rfl⟩ (.inl hlookup)
  next hlookup =>
    split_ifs with hrest
    · exact iff_of_false (by simp) (by simp [hlookup, hrest])
    · exact iff_of_true ⟨_, rfl⟩ (.inr hrest)

/-- The assigned opcodes of R91 are ENCF's and those of the other commands. -/
theorem mem_assigned_iff (op : BitVec 8) :
    op ∈ ([0x00, 0x01, 0x10, 0x11, 0x20, 0x21, 0x22, 0x30, 0x31, 0x32, 0x33] : List (BitVec 8)) ↔
      op = encfOp ∨ op ∈ plainOps.map Prod.fst := by
  have hperm : List.Perm [0x00, 0x01, 0x10, 0x11, 0x20, 0x21, 0x22, 0x30, 0x31, 0x32, 0x33]
      (encfOp :: plainOps.map Prod.fst) := by decide
  exact hperm.mem_iff.trans List.mem_cons

/-- Settles O3: OP = 0x20 leaves the last three cases, any other OP the first two. -/
theorem illegalWordsAreTheFiveCases : Obligations.IllegalWordsAreTheFiveCases := by
  intro w op assigned
  have hassigned : op ∈ assigned ↔ op = encfOp ∨ op ∈ plainOps.map Prod.fst := mem_assigned_iff op
  by_cases hop : op = encfOp
  · have hin : op ∈ assigned := hassigned.mpr (.inl hop)
    have h20 : op = 0x20 := hop
    rw [decodeWord_encf hop, decodeEncf_rejects_iff]
    simp only [hin, not_true_eq_false, false_or, true_and]
    simp only [h20, ne_eq, not_true_eq_false, false_and, false_or, true_and]
    -- The fields the decoder reads are the bit ranges of R94.
    exact Iff.rfl
  · have h20 : op ≠ 0x20 := hop
    have hplain : op ∈ assigned ↔ opField w ∈ plainOps.map Prod.fst := hassigned.trans (or_iff_right hop)
    rw [decodeWord_plain_rejects_iff hop, hplain]
    simp only [h20, ne_eq, not_false_eq_true, false_and, or_false, true_and]
    tauto

/-! ### The rows of the opcode table -/

open Laws.TableRow in
/-- The word of a command matches the command's row. -/
theorem encode_matches : ∀ i : Instr, Statement i
  | .nop => nop
  | .srst => srst
  | .cvt565 => cvt565
  | .cvt565a8 => cvt565a8
  | .encfAuto hasAlpha => encfAuto hasAlpha
  | .encfFmt fmt => encfFmt fmt
  | .cencb => cencb
  | .cence => cence
  | .decf => decf
  | .decn => decn
  | .decs => decs
  | .decsec => decsec

/-- A word that matches a row is the word of a command of the row. -/
theorem exists_encode_of_matches {w : Word} {i : Instr} (h : w &&& (tableRow i).2 = (tableRow i).1) :
    ∃ j, tableRow j = tableRow i ∧ encode j = w := by
  cases i with
  | encfAuto a =>
    exact ⟨.encfAuto (alphaField w), rfl,
      wordFields_injective ((wordFields_encode_encfAuto _).trans (wordFields_of_matches_encfAuto h).symm)⟩
  | encfFmt f =>
    exact ⟨.encfFmt (fmtField w), rfl,
      wordFields_injective ((wordFields_encode_encfFmt _).trans (wordFields_of_matches_encfFmt h).symm)⟩
  | _ => exact ⟨_, rfl, (BitVec.and_allOnes.symm.trans h).symm⟩

/-- Settles O4: a word that matches rows is the word of one command, and its row is the only one. -/
theorem legalWordMatchesOneRow : Obligations.LegalWordMatchesOneRow := by
  refine ⟨fun w => ⟨?legal, ?matching⟩, fun w i j hi hj => ?unique⟩
  case legal =>
    rintro ⟨i, h⟩
    exact ⟨i, encode_of_decodeWord h ▸ encode_matches i⟩
  case matching =>
    rintro ⟨i, h⟩
    obtain ⟨j, -, hj⟩ := exists_encode_of_matches h
    exact ⟨j, decodeWord_eq_ok_iff.mpr hj⟩
  case unique =>
    obtain ⟨i', hrow, hi'⟩ := exists_encode_of_matches hi
    obtain ⟨j', hrow', hj'⟩ := exists_encode_of_matches hj
    rw [← hrow, ← hrow', encode_injective (hi'.trans hj'.symm)]

end Sys2Proof
end

section
/-! Proofs of 40_color_convert: the colour as three fields side by side, the bytes of a pixel, and the two conversion
commands (O20 to O24). -/
namespace Sys2Proof.Machine

/-! ### The colour (R120 to R122) -/

/-- The masks and shifts of R120 put the top bits of the channels side by side, red highest (R121). -/
theorem rgb565_eq_append (r g b : Byte) :
    rgb565 r g b = r.extractLsb' 3 5 ++ g.extractLsb' 2 6 ++ b.extractLsb' 3 5 := by
  refine BitVec.eq_of_getLsbD_eq fun k hk => ?_
  simp only [rgb565, BitVec.getLsbD_or, BitVec.getLsbD_shiftLeft, BitVec.getLsbD_ushiftRight, BitVec.getLsbD_and,
    BitVec.getLsbD_setWidth, BitVec.getLsbD_append, BitVec.getLsbD_extractLsb']
  interval_cases k <;> simp

/-- Fields side by side are a sum: the upper one counts by the size of the lower. -/
theorem toNat_append_eq_add {m n : Nat} (x : BitVec m) (y : BitVec n) : (x ++ y).toNat = x.toNat * 2 ^ n + y.toNat := by
  rw [BitVec.toNat_append, ← Nat.shiftLeft_add_eq_or_of_lt y.isLt, Nat.shiftLeft_eq]

/-- The top bits of a channel are its value divided by the size of the bits below, truncating (R122). -/
theorem toNat_topBits {c : Byte} {low len : Nat} (h : low + len = 8) :
    (c.extractLsb' low len).toNat = c.toNat / 2 ^ low := by
  rw [BitVec.extractLsb'_toNat, Nat.shiftRight_eq_div_pow]
  refine Nat.mod_eq_of_lt (Nat.div_lt_of_lt_mul ?_)
  rw [← Nat.pow_add, h]
  exact c.isLt

/-- Settles O20: each field is read from the colour as three fields side by side, which have no other bit of a
channel. -/
theorem rgb565PacksTopBits : Obligations.Rgb565PacksTopBits := by
  intro r g b
  rw [rgb565_eq_append]
  refine ⟨?red, ?green, ?blue, ?lowBits⟩
  case red => exact (BitVec.extractLsb'_append_eq_of_le (by decide)).trans BitVec.extractLsb'_append_eq_left
  case green => exact (BitVec.extractLsb'_append_eq_of_le (by decide)).trans BitVec.extractLsb'_append_eq_right
  case blue => exact BitVec.extractLsb'_append_eq_right
  case lowBits =>
    intro r' g' b' hr hg hb
    rw [rgb565_eq_append, hr, hg, hb]

/-- Settles O21: the three fields side by side as a sum, each the top bits of its channel. -/
theorem rgb565TruncatesEachChannel : Obligations.Rgb565TruncatesEachChannel := by
  intro r g b
  have hr : (r.extractLsb' 3 5).toNat = r.toNat / 8 := toNat_topBits rfl
  have hg : (g.extractLsb' 2 6).toNat = g.toNat / 4 := toNat_topBits rfl
  have hb : (b.extractLsb' 3 5).toNat = b.toNat / 8 := toNat_topBits rfl
  rw [rgb565_eq_append, toNat_append_eq_add, toNat_append_eq_add, hr, hg, hb]
  omega

/-- Settles O22: the bytes as `pixbytes` lists them. -/
theorem pixelBytesLayout : Obligations.PixelBytesLayout :=
  fun w => ⟨rfl, rfl, fun fmt => pixbytes_length fmt w⟩

/-! ### The conversion commands (R126, R127) -/

/-- The state in which a conversion command that began in `s` completes with `v` in CVT_OUT. -/
def converted (v : Word) (s : State) : State :=
  finish { setBlockState .cvt (startCommand [.cvt] false s) with cvtOut := v }

@[simp] theorem converted_cvtOut (v : Word) (s : State) : (converted v s).cvtOut = v := rfl

/-- CVT_OUT as CVT565A8 puts it together: the alpha above the colour, zeros above the alpha (R127). -/
theorem colourWithAlpha_eq_append (c : Half) (a : Byte) :
    c.setWidth 32 ||| (a.setWidth 32 <<< 16) = 0#8 ++ a ++ c := by
  have h := BitVec.setWidth_append_append_eq_shiftLeft_setWidth_or (w''' := 32) (b := 0#8) (b' := a) (b'' := c)
  simpa [BitVec.or_comm] using h.symm

theorem exec_cvt565 (s : State) :
    exec .cvt565 s = .next (converted ((rgb565 (pixelR s.cvtIn) (pixelG s.cvtIn) (pixelB s.cvtIn)).setWidth 32) s) := rfl

theorem exec_cvt565a8 (s : State) :
    exec .cvt565a8 s = .next (converted
      (0#8 ++ pixelA s.cvtIn ++ rgb565 (pixelR s.cvtIn) (pixelG s.cvtIn) (pixelB s.cvtIn)) s) := by
  rw [← colourWithAlpha_eq_append]
  rfl

/-- Beside CVT_OUT a conversion changes the status of the last command only (R42, R126, R127). -/
theorem converted_frame (v : Word) (s : State) :
    (converted v s).status = successStatus s false ∧ resultsAre (converted v s) 0 0 0 0 0 0
    ∧ (converted v s).hdr = s.hdr ∧ keepsSettings s (converted v s) ∧ keepsSource s (converted v s)
    ∧ keepsPixels s (converted v s) ∧ keepsSink s (converted v s) ∧ (converted v s).records = s.records
    ∧ (converted v s).running = none ∧ keepsWorld s (converted v s) := by
  refine ⟨?status, ⟨rfl, rfl, rfl, rfl, rfl, rfl⟩, rfl, ⟨rfl, rfl, rfl, rfl, rfl, rfl⟩, ⟨rfl, rfl⟩, ⟨rfl, rfl⟩,
    ⟨rfl, rfl, rfl, rfl⟩, rfl, rfl, ⟨rfl, rfl, rfl⟩⟩
  case status =>
    change (setBlockState .cvt (startCommand [.cvt] false s)).status.finished = _
    rw [setBlockState_status, startCommand_status_eq]
    exact finished_started s .cvt

/-- Settles O23: CVT565 completes with the colour, extended with zeros, in CVT_OUT. -/
theorem cvt565Converts : Obligations.Cvt565Converts :=
  fun s => ⟨_, exec_cvt565 s, converted_cvtOut _ s, converted_frame _ s⟩

/-- Settles O24: CVT565A8 completes with zeros, alpha and colour side by side in CVT_OUT. -/
theorem cvt565a8Converts : Obligations.Cvt565a8Converts := by
  intro s
  refine ⟨_, exec_cvt565a8 s, ?colour, ?alpha, ?zeros, converted_frame _ s⟩
  case colour =>
    rw [converted_cvtOut]
    exact BitVec.extractLsb'_append_eq_right
  case alpha =>
    rw [converted_cvtOut]
    exact (BitVec.extractLsb'_append_eq_of_le (by decide)).trans BitVec.extractLsb'_append_eq_right
  case zeros =>
    rw [converted_cvtOut]
    exact (BitVec.extractLsb'_append_eq_of_le (by decide)).trans BitVec.extractLsb'_append_eq_left

end Sys2Proof.Machine
end

section
/-! Proofs of 41_frame_codec: where the bytes of a header and of a pixel stand on the wire, marshalling and unmarshalling,
and the lengths of a frame (O25, O26, O28). -/
namespace Sys2Proof.Machine

/-- Where every element gives a block of `b` bytes, byte `j` of block `i` stands at i × b + j. -/
theorem getElem?_flatMap_block {α β : Type} {f : α → List β} {b : Nat} (hf : ∀ a, (f a).length = b) (l : List α)
    (i : Nat) {j : Nat} (hj : j < b) : (l.flatMap f)[i * b + j]? = l[i]?.bind fun a => (f a)[j]? := by
  induction l generalizing i with
  | nil => rfl
  | cons a l ih =>
    rw [List.flatMap_cons]
    cases i with
    | zero => rw [Nat.zero_mul, Nat.zero_add, List.getElem?_append_left (by rwa [hf])]; rfl
    | succ i =>
      have hpos : (i + 1) * b + j = (f a).length + (i * b + j) := by rw [hf, Nat.succ_mul]; omega
      rw [hpos, List.getElem?_append_right (Nat.le_add_right _ _), Nat.add_sub_cancel_left, ih, List.getElem?_cons_succ]

/-! ### The header (R100 to R102, R140 to R142) -/

/-- The fields of a header in the order of the wire (R102). -/
def Header.fields (h : Header) : List Word := [h.magic, h.colorFormat, h.flags, h.width, h.height, h.stride]

theorem packHeader_eq_flatMap (h : Header) : packHeader h = h.fields.flatMap le32 := rfl

theorem le32_getElem? (v : Word) {j : Nat} (hj : j < 4) : (le32 v)[j]? = some (v.extractLsb' (8 * j) 8) := by
  interval_cases j <;> rfl

/-- Byte 4k + j of a header is byte `j` of its field `k` (R140). -/
theorem packHeader_getElem? (h : Header) (k : Nat) {j : Nat} (hj : j < 4) :
    (packHeader h)[4 * k + j]? = h.fields[k]?.map (·.extractLsb' (8 * j) 8) := by
  rw [packHeader_eq_flatMap, Nat.mul_comm, getElem?_flatMap_block le32_length _ _ hj]
  simp only [le32_getElem? _ hj, Option.map_eq_bind, Function.comp_def]

/-- A u32 that was read is marshalled to the bytes it was read from (R69). -/
theorem le32_rdLe32 (bs : List Byte) (i : Nat) :
    le32 (rdLe32 bs i) = [bs.getD i 0, bs.getD (i + 1) 0, bs.getD (i + 2) 0, bs.getD (i + 3) 0] :=
  le32_or_bytes _ _ _ _

/-- Marshalling gives back the first 24 bytes of what was unmarshalled (R140, R141). -/
theorem packHeader_unpackHeader_eq_map (bs : List Byte) :
    packHeader (unpackHeader bs) = (List.range 24).map (bs.getD · 0) := by
  simp only [packHeader, unpackHeader, le32_rdLe32]
  rfl

theorem packHeader_unpackHeader {bs : List Byte} (h : bs.length = 24) : packHeader (unpackHeader bs) = bs := by
  rw [packHeader_unpackHeader_eq_map]
  refine List.ext_getElem (by simp [h]) fun i _ hi => ?_
  rw [List.getElem_map, List.getElem_range, List.getD_eq_getElem _ _ hi]

/-- Settles O25: the header as its fields' bytes one after another, and the two inverses. -/
theorem headerMarshalInverse : Obligations.HeaderMarshalInverse := by
  refine ⟨fun h => ⟨packHeader_length h, fun k _ _ hj => packHeader_getElem? h k hj, fun hm => ?magic⟩,
    unpackHeader_packHeader, fun _ => packHeader_unpackHeader⟩
  case magic =>
    change le32 h.magic = _
    rw [hm]
    decide

/-! ### Lengths and places (R105, R106, R145) -/

/-- Settles O26: the product of two u32 values, and 24 more. -/
theorem payloadLengthIsExact : Obligations.PayloadLengthIsExact := by
  intro h
  have hle : payloadLength h ≤ (2 ^ 32 - 1) ^ 2 := by
    rw [payloadLength, Nat.pow_two]
    exact Nat.mul_le_mul (Nat.le_sub_one_of_lt h.height.isLt) (Nat.le_sub_one_of_lt h.stride.isLt)
  refine ⟨rfl, hle, ?_⟩
  rw [frameLength, headerLength]
  omega

/-- Settles O28: the bytes of a pixel are a block of `bpp` bytes, and the pixels before it are y × W + x. -/
theorem pixelStandsAtItsPlace : Obligations.PixelStandsAtItsPlace := by
  intro fmt ws W x y j h _ hj
  have hplace : y * (W * fmt.bpp) + x * fmt.bpp + j = (y * W + x) * fmt.bpp + j := by ring
  rw [hplace, getElem?_flatMap_block (pixbytes_length fmt) _ _ hj, List.getElem?_eq_getElem h, Option.bind_some]

end Sys2Proof.Machine
end

section
/-! Proofs of 41_frame_codec: everything an ENCF can end in, said once, and the claims about its bytes, its counts and
its frame (O27, O34, O35). -/
namespace Sys2Proof.Machine

/-- An ENCF that began in `s` has latched its header, taken `k` pixel words and written `bs`; STATE is `b` (R150). -/
def encoding (fmt : PixelFormat) (b : BlockState) (bs : List Byte) (k : Nat) (s : State) : State :=
  accepted bs (pixelsTaken k (setBlockState b (headerStart fmt s)))

/-- The payload of the frame that ENCF writes: the bytes of its W × H words in the order they are read (R153). -/
def encodedPayload (fmt : PixelFormat) (s : State) : List Byte :=
  (s.pix.take (s.inWidth.toNat * s.inHeight.toNat)).flatMap (pixbytes fmt)

/-- The frame that ENCF writes (R107, R150). -/
def encodedFrame (fmt : PixelFormat) (s : State) : List Byte :=
  frameBytes (encodedHeader fmt s.inWidth s.inHeight) (encodedPayload fmt s)

/-- An ENCF with its whole frame at the sink (R154). -/
def frameEncoded (fmt : PixelFormat) (s : State) : State :=
  encoding fmt .ePay (encodedFrame fmt s) (s.inWidth.toNat * s.inHeight.toNat) s

/-- What is written after the header stands behind it. -/
theorem accepted_payloadStart (fmt : PixelFormat) (bs : List Byte) (k : Nat) (s : State) :
    accepted bs (pixelsTaken k (payloadStart fmt s))
      = encoding fmt .ePay (packHeader (encodedHeader fmt s.inWidth s.inHeight) ++ bs) k s :=
  accepted_append _ bs (pixelsTaken k (setBlockState .ePay (headerStart fmt s)))

/-- The payload has the length that the header gives (R108, R144). -/
theorem encodedPayload_length {fmt : PixelFormat} {s : State} (hg : goodDimensions fmt s)
    (hn : s.inWidth.toNat * s.inHeight.toNat ≤ s.pix.length) :
    (encodedPayload fmt s).length = payloadLength (encodedHeader fmt s.inWidth s.inHeight) := by
  have hlen := frameLength_encodedHeader hg
  rw [frameLength, headerLength] at hlen
  rw [encodedPayload, flatMap_pixbytes_length, List.length_take, Nat.min_eq_left hn]
  omega

theorem encodedFrame_length {fmt : PixelFormat} {s : State} (hg : goodDimensions fmt s)
    (hn : s.inWidth.toNat * s.inHeight.toNat ≤ s.pix.length) :
    (encodedFrame fmt s).length = encodedLength fmt s := by
  rw [encodedFrame, frameBytes_length, encodedPayload_length hg hn, ← frameLength_eq_encodedLength hg]
  rfl

/-! ### Everything an ENCF can end in -/

/-- The ways an ENCF ends that began in `s` with a format code: it refuses the format or the dimensions (R151, R152);
its frame is at the sink (R154); it waits for a pixel word (R67); or the sink rejects a byte (R155). -/
inductive EncodeResult (code : Word) (s : State) : State → Prop
  | refused (c : Code) (hok : c ≠ .ok) : EncodeResult code s (raiseError c s.outCount s)
  | completed (fmt : PixelFormat) (hcode : code = fmt.code) (hg : goodDimensions fmt s)
      (hn : s.inWidth.toNat * s.inHeight.toNat ≤ s.pix.length)
      (ho : s.outCount.toNat + encodedLength fmt s < 2 ^ 64)
      (he : s.expCount.toNat + encodedLength fmt s < 2 ^ 64) : EncodeResult code s (finish (frameEncoded fmt s))
  | waiting (fmt : PixelFormat) (bs : List Byte) (k : Nat) (job : EncodeJob) (hk : k ≤ s.pix.length)
      (ho : s.outCount.toNat + bs.length < 2 ^ 64) :
      EncodeResult code s { encoding fmt .ePay bs k s with running := some job }
  | rejected (fmt : PixelFormat) (b : BlockState) (bs : List Byte) (k : Nat) (off : Count) (e : Word)
      (answers : List SinkAnswer) (hk : k ≤ s.pix.length) (ho : s.outCount.toNat + bs.length < 2 ^ 64) :
      EncodeResult code s (raiseError .sinkIo off
        { encoding fmt b bs k s with sinkAnswers := answers, sinkErr := e })

theorem encodeCommand_cases {code : Word} {s t : State} (h : (encodeCommand code s).outcome = .next t) :
    EncodeResult code s t := by
  refine ((encodeCommand_holds code s).mono (fun _ _ hu => hu) (Q := EncodeResult code s) ?stopped).next ?ran h
  case ran =>
    rintro _ _ ⟨fmt, hf, hg, he, hn, ho, rfl⟩
    rw [accepted_payloadStart]
    rw [← frameLength_encodedHeader hg, frameLength_eq_encodedLength hg] at ho
    rw [frameLength_eq_encodedLength hg] at he
    exact .completed fmt (supportedFormat_eq_some hf) hg hn ho he
  case stopped =>
    rintro _ (⟨-, rfl⟩ | ⟨fmt, -, ⟨-, rfl⟩ | ⟨-, -, ⟨k, e, _, hk, ho, rfl, rfl⟩ | ⟨hn, ho, rfl⟩ |
      ⟨k, j, e, _, -, hkp, -, ho, rfl, rfl⟩⟩⟩)
    · exact .refused .unsupportedFmt nofun
    · exact .refused .badDim nofun
    · refine .rejected fmt .eHdr _ 0 _ e _ (Nat.zero_le _) ?_
      exact Nat.lt_of_le_of_lt (Nat.add_le_add_left (List.length_take_le _ _) _) ho
    · rw [accepted_payloadStart]
      exact .waiting fmt _ _ _ (Nat.le_refl _) (by simpa using ho)
    · rw [accepted_payloadStart]
      refine .rejected fmt .ePay _ (k + 1) _ e _ hkp ?_
      rw [List.length_append, packHeader_length]
      exact Nat.lt_of_le_of_lt (Nat.add_le_add_left (Nat.add_le_add_left (List.length_take_le _ _) _) _) ho

/-- However it ends, an ENCF writes some bytes, takes some words and changes, beside that, only the registers that tell
of its event, its header and EXP_COUNT (R67, R150 to R155). -/
theorem EncodeResult.frame {code : Word} {s t : State} (h : EncodeResult code s t) :
    ∃ bs k, k ≤ s.pix.length ∧ s.outCount.toNat + bs.length < 2 ^ 64
      ∧ t = { accepted bs (pixelsTaken k s) with
              status := t.status, evtOffset := t.evtOffset, expCount := t.expCount, hdr := t.hdr
              sinkErr := t.sinkErr, sinkAnswers := t.sinkAnswers, running := t.running } := by
  cases h with
  | refused c hok => exact ⟨[], 0, Nat.zero_le _, s.outCount.isLt, by rw [accepted_nil]; rfl⟩
  | completed fmt hcode hg hn ho he =>
    exact ⟨encodedFrame fmt s, _, hn, by rwa [encodedFrame_length hg hn], rfl⟩
  | waiting fmt bs k job hk ho => exact ⟨bs, k, hk, ho, rfl⟩
  | rejected fmt b bs k off e answers hk ho => exact ⟨bs, k, hk, ho, rfl⟩

/-! ### A frame at the sink -/

theorem frameEncoded_outCount {fmt : PixelFormat} {s : State} (hg : goodDimensions fmt s)
    (hn : s.inWidth.toNat * s.inHeight.toNat ≤ s.pix.length)
    (ho : s.outCount.toNat + encodedLength fmt s < 2 ^ 64) :
    (frameEncoded fmt s).outCount.toNat = s.outCount.toNat + encodedLength fmt s := by
  rw [← encodedFrame_length hg hn] at ho ⊢
  exact accepted_outCount_toNat ho

theorem frameEncoded_expCount {fmt : PixelFormat} {s : State} (hg : goodDimensions fmt s)
    (he : s.expCount.toNat + encodedLength fmt s < 2 ^ 64) :
    (frameEncoded fmt s).expCount.toNat = s.expCount.toNat + encodedLength fmt s := by
  rw [← frameLength_eq_encodedLength hg] at he ⊢
  exact add_ofNat_toNat he

theorem frameEncoded_sinkAnswers {fmt : PixelFormat} {s : State} (hg : goodDimensions fmt s)
    (hn : s.inWidth.toNat * s.inHeight.toNat ≤ s.pix.length) :
    (frameEncoded fmt s).sinkAnswers = s.sinkAnswers.drop (encodedLength fmt s) :=
  congrArg s.sinkAnswers.drop (encodedFrame_length hg hn)

theorem frameEncoded_status (fmt : PixelFormat) (s : State) :
    (frameEncoded fmt (encodeStart s)).status.finished = successStatus s false := by
  change ({ (encodeStart s).status with state := .ePay } : Status).finished = _
  rw [startCommand_status_eq]
  exact finished_started s .ePay

/-- ENCF with all it needs (R154). -/
theorem exec_encodes {i : Instr} {fmt : PixelFormat} {s : State} (hi : encodesIn i fmt) (hg : goodDimensions fmt s)
    (hn : s.inWidth.toNat * s.inHeight.toNat ≤ s.pix.length) (ha : sinkAccepts s (encodedLength fmt s))
    (ho : s.outCount.toNat + encodedLength fmt s < 2 ^ 64) (he : s.expCount.toNat + encodedLength fmt s < 2 ^ 64) :
    exec i s = .next (finish (frameEncoded fmt (encodeStart s))) := by
  have hlen : encodedLength fmt s = 24 + s.inWidth.toNat * s.inHeight.toNat * fmt.bpp :=
    (frameLength_eq_encodedLength hg).symm.trans (frameLength_encodedHeader hg)
  rw [hlen] at ha ho he
  rw [exec_of_encodesIn hi, encodeCommand_accepts (s := encodeStart s) hg hn ha ho he, accepted_payloadStart]
  rfl

/-- The header that R150 gives field by field is the one that ENCF writes. -/
theorem encodedHeader_eq_fields (fmt : PixelFormat) (w h : Word) :
    { magic := 0x4C56474C, colorFormat := if fmt = .rgb565 then 0x12 else 0x14, flags := 0, width := w, height := h
      stride := BitVec.ofNat 32 (w.toNat * if fmt = .rgb565 then 2 else 3) } = encodedHeader fmt w h := by
  cases fmt <;> rfl

/-- Settles O27: the whole frame is accepted, and its length is what both counts grow by. -/
theorem encfSucceeds : Obligations.EncfSucceeds := by
  intro s i fmt hi n h total hg hn ha ho he
  have hh : h = encodedHeader fmt s.inWidth s.inHeight := encodedHeader_eq_fields fmt s.inWidth s.inHeight
  have htotal : total = encodedLength fmt s := by
    rw [← frameLength_eq_encodedLength hg, ← hh]
    rfl
  clear_value total h
  subst hh htotal
  refine ⟨_, exec_encodes hi hg hn ha ho he, (List.append_assoc _ _ _).symm, encodedFrame_length hg hn,
    frameEncoded_outCount (s := encodeStart s) hg hn ho, frameEncoded_expCount (s := encodeStart s) hg he, rfl, rfl, rfl,
    frameEncoded_sinkAnswers (s := encodeStart s) hg hn, frameEncoded_status fmt s, ⟨rfl, rfl, rfl, rfl, rfl, rfl⟩, rfl,
    ⟨rfl, rfl, rfl, rfl, rfl, rfl⟩, ⟨rfl, rfl⟩, rfl, rfl, ⟨rfl, rfl, rfl⟩⟩

/-- Settles O34: the frame of every way an ENCF ends. -/
theorem encfFrame : Obligations.EncfFrame := by
  intro s t i hi h
  obtain ⟨code, hcode⟩ := exec_of_isEncode hi
  obtain ⟨bs, k, hk, ho, ht⟩ := (encodeCommand_cases ((hcode s).symm.trans h)).frame
  rw [ht]
  exact ⟨⟨rfl, rfl, rfl, rfl, rfl, rfl⟩, ⟨rfl, rfl⟩, rfl, rfl, ⟨rfl, rfl, rfl⟩, rfl, rfl, rfl, rfl,
    ⟨bs, rfl, accepted_outCount_toNat ho⟩, ⟨k, hk, rfl, rfl⟩⟩

/-- Settles O35: an ENCF that does not wait and meets no rejection either touches no count or writes its whole frame. -/
theorem countsAgreeUnlessSinkRejects : Obligations.CountsAgreeUnlessSinkRejects := by
  intro s t i hi h hsink hrun
  obtain ⟨code, hcode⟩ := exec_of_isEncode hi
  cases encodeCommand_cases ((hcode s).symm.trans h) with
  | refused c hok => rfl
  | completed fmt hc hg hn ho he =>
    have hout := frameEncoded_outCount hg hn ho
    have hexp := frameEncoded_expCount hg he
    simp only [startCommand_outCount, startCommand_expCount] at hout hexp
    rw [finish_outCount, finish_expCount]
    omega
  | waiting fmt bs k job hk ho => cases hrun
  | rejected fmt b bs k off e answers hk ho => exact absurd rfl hsink

end Sys2Proof.Machine
end

section
/-! Proofs of 41_frame_codec: DECF at a whole frame and at what is none, what it reads back of an ENCF, and the frame of
the decode commands (O36 to O39, O41, O42). -/
namespace Sys2Proof.Machine

/-- The state in which the body of DECF starts (R42, R166). -/
abbrev decodeStart (s : State) : State := startCommand [.rdHdr, .valMagic, .rdPay] false s

/-! ### A whole frame (R160, R166) -/

/-- The state of a DECF that began in `s` and has delivered the frame with header `h` and payload `payload`. -/
def frameDecoded (h : Header) (payload : List Byte) (s : State) : State :=
  emitted { sectionIdx := 0, index := 0, offset := s.cursor, header := h, payload := payload }
    { consume (24 + payload.length) s with status := { s.status with state := .rdPay }, hdr := h }

theorem decodeOne_frame {h : Header} {payload rest : List Byte} {s : State}
    (hs : s.src.bytes = frameBytes h payload ++ rest) (hm : h.magic = frameMagic)
    (hp : payload.length = payloadLength h) (hc : s.cursor.toNat + (24 + payload.length) < 2 ^ 64)
    (hd : s.framesDone.toNat + 1 < 2 ^ 32) : decodeOne s = .ok () (frameDecoded h payload s) := by
  rw [frameBytes, List.append_assoc] at hs
  rw [decodeOne, decodeAt_frameData unpackHeader_packHeader (f := (h, payload)) ⟨hm, hp⟩ hs hc, Run.bind_ok]
  exact recEmit_eq hd

/-- Settles O36: DecodeAt reads the frame and its record is delivered. -/
theorem decfDecodesFrame : Obligations.DecfDecodesFrame := by
  intro s h payload rest hs hm hp hc
  have hrun := decodeOne_frame (s := decodeStart s) hs hm hp hc (show (0 : Word).toNat + 1 < 2 ^ 32 by decide)
  refine ⟨_, congrArg Run.outcome hrun, rfl, rfl, add_ofNat_toNat hc, ?src, ?status, ⟨rfl, rfl, rfl, rfl, rfl, rfl⟩, rfl,
    ⟨rfl, rfl, rfl, rfl, rfl, rfl⟩, ⟨rfl, rfl⟩, ⟨rfl, rfl, rfl, rfl⟩, rfl, ⟨rfl, rfl, rfl⟩⟩
  case src =>
    have hrest : s.src.bytes.drop (24 + payload.length) = rest := by
      rw [hs, List.drop_left' (frameBytes_length h payload)]
    rw [← hrest]
    rfl
  case status =>
    change ({ (decodeStart s).status with state := .rdPay } : Status).finished = _
    rw [startCommand_status_eq]
    exact finished_started s .rdPay

/-- Settles O41: the bytes a successful ENCF added to the sink are a frame with the magic, which DECF decodes. -/
theorem encodeThenDecodeRoundTrip : Obligations.EncodeThenDecodeRoundTrip := by
  intro s t u i fmt rest hi h hok hrun hu hc
  rw [exec_of_encodesIn hi] at h
  cases encodeCommand_cases h with
  | refused c hne => exact absurd hok hne
  | waiting fmt' bs k job => cases hrun
  | rejected fmt' b bs k off e answers => cases hok
  | completed fmt' hcode hg hn =>
    obtain rfl : fmt = fmt' := by simpa using congrArg supportedFormat hcode
    have hlen : (encodedPayload fmt s).length = payloadLength (encodedHeader fmt s.inWidth s.inHeight) :=
      encodedPayload_length hg hn
    have hbytes : u.src.bytes = frameBytes (encodedHeader fmt s.inWidth s.inHeight) (encodedPayload fmt s) ++ rest := by
      rw [hu]
      exact congrArg (· ++ rest) (List.drop_left' rfl)
    obtain ⟨v, hv, hrec, -, hcur, -, hstatus, -⟩ := decfDecodesFrame u _ _ rest hbytes rfl hlen (hlen ▸ hc)
    rw [hlen] at hcur
    exact ⟨v, _, hv, hstatus, hrec, rfl, rfl, rfl, hlen, hcur⟩

/-! ### What is no frame (R162 to R164) -/

/-- A DECF that began in `s` stops by an error at the boundary where it began, `n` bytes consumed and `h` in HDR_*. -/
def frameMissing (c : Code) (avail : BitVec 5) (n : Nat) (h : Header) (s : State) : State :=
  { consume n s with status := s.status.failed c avail, evtOffset := s.cursor, hdr := h, running := none }

/-- What is left of a DECF that finds no frame: its error, the header it holds, the bytes consumed, and no record. -/
theorem decf_of_frameMissing {c : Code} {avail : BitVec 5} {n : Nat} {h : Header} {rest : List Byte} {s : State}
    (hrun : decodeOne (decodeStart s) = .stopped (frameMissing c avail n h (decodeStart s)))
    (hc : s.cursor.toNat + n < 2 ^ 64) (hrest : s.src.bytes.drop n = rest) :
    ∃ t, exec .decf s = .next t ∧ t.status = errorStatus s c avail ∧ resultsAre t s.cursor 0 0 0 0 0 ∧ t.hdr = h
      ∧ t.records = s.records ∧ t.cursor.toNat = s.cursor.toNat + n ∧ t.src = { s.src with bytes := rest }
      ∧ t.cvtOut = s.cvtOut ∧ keepsSettings s t ∧ keepsPixels s t ∧ keepsSink s t ∧ t.running = none
      ∧ keepsWorld s t := by
  subst hrest
  exact ⟨_, congrArg Run.outcome hrun, startCommand_status_failed _ _ s c avail, ⟨rfl, rfl, rfl, rfl, rfl, rfl⟩, rfl, rfl,
    add_ofNat_toNat hc, rfl, rfl, ⟨rfl, rfl, rfl, rfl, rfl, rfl⟩, ⟨rfl, rfl⟩, ⟨rfl, rfl, rfl, rfl⟩, rfl, ⟨rfl, rfl, rfl⟩⟩

/-- Settles O37: DecodeAt answers how many bytes there were, and DECF raises TRUNC_HDR with that number. -/
theorem decfTruncatedHeader : Obligations.DecfTruncatedHeader := by
  intro s hl he hc
  refine decf_of_frameMissing ?_ hc List.drop_length
  rw [decodeOne, decodeAt_short (s := decodeStart s) hl he hc]
  rfl

/-- Settles O38: DecodeAt stops at the magic. -/
theorem decfInvalidMagic : Obligations.DecfInvalidMagic := by
  intro s h rest hs hm hc
  refine decf_of_frameMissing ?_ hc (hs ▸ List.drop_left' (packHeader_length h))
  have hu := unpackHeader_packHeader h
  rw [decodeOne, decodeAt_badMagic (s := decodeStart s) hs rfl (by rwa [hu]) hc, headerRead, hu]
  rfl

/-- Settles O39: DecodeAt stops in the payload, after the header. -/
theorem decfTruncatedPayload : Obligations.DecfTruncatedPayload := by
  intro s h got hs he hm hp hc
  have hlen : s.src.bytes.length = 24 + got.length := by rw [hs, List.length_append, packHeader_length]
  refine decf_of_frameMissing ?_ hc (hlen ▸ List.drop_length)
  have hu := unpackHeader_packHeader h
  rw [decodeOne, decodeAt_truncPayload (s := decodeStart s) hs rfl (by rwa [hu]) (by rwa [hu]) he hc, headerRead, hu]
  simp [frameMissing, consume, setBlockState, raiseError, Status.failed, BitVec.ofNat_add, BitVec.add_assoc]

/-! ### The frame of the decode commands -/

/-- A decode command that began in `s` has consumed and delivered what `Decoded` says and changes, beside that, only the
registers that tell of its event (R42, R235, R236). -/
def DecodeResult (m : Nat) (s t : State) : Prop :=
  ∃ u, Decoded m s u ∧ t = { u with status := t.status, evtOffset := t.evtOffset, trailCount := t.trailCount
                                    srcErr := t.srcErr, running := none }

theorem DecodeError.result {m : Nat} {s t : State} (h : DecodeError m s t) : DecodeResult m s t := by
  obtain ⟨u, hu, ⟨c, off, e, -, -, rfl⟩ | ⟨off, n, -, rfl⟩⟩ := h <;> exact ⟨u, hu, rfl⟩

theorem decodeOne_result {m : Nat} {s t : State} (h : (decodeOne s).outcome = .next t) : DecodeResult m s t :=
  ((decodeOne_decoded m s).mono (fun _ _ hu => hu) fun _ => DecodeError.result).next (fun _ u hu => ⟨u, hu, rfl⟩) h

theorem decodeScan_result {m fuel : Nat} {s t : State} (h : (decodeScan fuel s).outcome = .next t) :
    DecodeResult m s t := by
  refine ((decodeScan_decoded m fuel s s (Decoded.refl m s)).mono (fun _ _ hu => hu) fun _ => DecodeError.result).next
    ?_ h
  rintro _ _ ⟨v, hv, ⟨off, n, -, -, rfl⟩ | rfl⟩
  · exact ⟨v, hv, rfl⟩
  · exact ⟨_, hv, rfl⟩

theorem decodeCounted_result {counts : List Word} {s t : State} (h : (decodeCounted counts s).outcome = .next t) :
    DecodeResult counts.length s t := by
  have hsections := (decodeSections_decoded counts.length 0 counts s s (Decoded.refl _ s) (by omega)).bind
    fun _ u hu => drainTrailing_decoded _ s u hu
  refine (hsections.mono (fun _ _ hu => hu) fun _ => DecodeError.result).next ?_ h
  rintro _ _ ⟨v, hv, ⟨off, n, -, -, rfl⟩ | rfl⟩ <;> exact ⟨v, hv, rfl⟩

/-- A decode command is its start and then one of the three bodies. -/
theorem exec_decodeResult {i : Instr} {s t : State} (hi : i ∈ [Instr.decf, .decn, .decs, .decsec])
    (h : exec i s = .next t) : ∃ m seen mayWarn, DecodeResult m (startCommand seen mayWarn s) t := by
  simp only [List.mem_cons, List.not_mem_nil, or_false] at hi
  rcases hi with rfl | rfl | rfl | rfl
  · exact ⟨0, _, _, decodeOne_result h⟩
  · exact ⟨_, _, _, decodeCounted_result h⟩
  · exact ⟨0, _, _, decodeScan_result h⟩
  · exact ⟨_, _, _, decodeCounted_result h⟩

/-- Settles O42: what every decode command does, whatever its body. -/
theorem decodeFrame : Obligations.DecodeFrame := by
  intro s t i hi h
  obtain ⟨m, seen, mayWarn, _, ⟨k, rs, hd, b, cur, hk, hc, hrs, hf, -, rfl⟩, ht⟩ := exec_decodeResult hi h
  have hframes : (0 + BitVec.ofNat 32 rs.length : Word).toNat = rs.length :=
    (ofNat_add_toNat hf).trans (Nat.zero_add _)
  rw [ht]
  exact ⟨⟨rfl, rfl, rfl, rfl, rfl, rfl⟩, rfl, ⟨rfl, rfl⟩, ⟨rfl, rfl, rfl, rfl⟩, rfl, rfl, ⟨rfl, rfl, rfl⟩,
    ⟨k, hk, rfl, ofNat_add_toNat hc⟩, rs, rfl, hframes, hrs⟩

end Sys2Proof.Machine
end

section
/-! Proofs of 42_container: CENCB, and the container decodes after some whole frames: at the end of what they want, at a
missing frame, and at what is none (O43, O45 to O47, O49 to O51). -/
namespace Sys2Proof.Machine

/-- Settles O43: CENCB is the common start and completion, and the two counts. -/
theorem cencbClearsCounts : Obligations.CencbClearsCounts := by
  intro s
  refine ⟨_, rfl, rfl, rfl, ?status, ⟨rfl, rfl, rfl, rfl, rfl, rfl⟩, rfl, rfl, ⟨rfl, rfl, rfl, rfl, rfl, rfl⟩,
    ⟨rfl, rfl⟩, ⟨rfl, rfl⟩, rfl, rfl, rfl, rfl, ⟨rfl, rfl, rfl⟩⟩
  case status =>
    change (startCommand [] false s).status.finished = _
    rw [startCommand_status_eq]
    rfl

/-! ### Where a container decode stands after whole frames -/

/-- The state of a container decode that began in `s` and has read the frames `secs`; `b` is STATE. -/
abbrev afterFrames (seen : List BlockState) (mayWarn : Bool) (b : BlockState) (secs : List (List FrameData))
    (s : State) : State :=
  sectionsRead 0 secs b (startCommand seen mayWarn s)

section
variable {seen : List BlockState} {mayWarn : Bool} {b : BlockState} {secs : List (List FrameData)} {s : State}
  {tail : List Byte}

theorem afterFrames_framesDone : (afterFrames seen mayWarn b secs s).framesDone = BitVec.ofNat 32 secs.flatten.length :=
  BitVec.zero_add _

/-- R39: CUR_SECTION is the section of the last frame list, or 0 where there is none. -/
theorem afterFrames_curSection : (afterFrames seen mayWarn b secs s).curSection
    = BitVec.ofNat 32 (secs.length - 1) := by
  change (if secs.isEmpty then 0 else BitVec.ofNat 32 (0 + secs.length - 1)) = _
  cases secs <;> simp

/-- STATUS where the command succeeds: WARN_TRAIL tells of bytes after the frames (R236). -/
theorem afterFrames_status_finished (tail : List Byte) :
    (if tail = [] then (afterFrames seen mayWarn b secs s).status
      else (afterFrames seen mayWarn b secs s).status.warned).finished = successStatus s (!tail.isEmpty) := by
  change (if tail = [] then { (startCommand seen mayWarn s).status with state := b }
    else ({ (startCommand seen mayWarn s).status with state := b } : Status).warned).finished = _
  rw [startCommand_status_eq]
  cases tail <;> rfl

theorem afterFrames_room (hs : s.src.bytes = containerBytes secs.flatten ++ tail)
    (hc : s.cursor.toNat + s.src.bytes.length < 2 ^ 64) :
    s.cursor.toNat + (containerBytes secs.flatten).length + tail.length < 2 ^ 64 := by
  rwa [hs, List.length_append, ← Nat.add_assoc] at hc

theorem afterFrames_cursor_toNat (hs : s.src.bytes = containerBytes secs.flatten ++ tail)
    (hc : s.cursor.toNat + s.src.bytes.length < 2 ^ 64) :
    (afterFrames seen mayWarn b secs s).cursor.toNat = s.cursor.toNat + (containerBytes secs.flatten).length :=
  have hroom := afterFrames_room hs hc
  sectionsRead_cursor_toNat (show (startCommand seen mayWarn s).cursor.toNat + _ < _ by
    rw [startCommand_cursor]
    omega)

/-- The bytes after the frames are there, and CURSOR can count them. -/
theorem afterFrames_tail (hs : s.src.bytes = containerBytes secs.flatten ++ tail)
    (hc : s.cursor.toNat + s.src.bytes.length < 2 ^ 64) :
    (afterFrames seen mayWarn b secs s).src.bytes = tail
    ∧ (afterFrames seen mayWarn b secs s).cursor.toNat + tail.length < 2 ^ 64 :=
  ⟨sectionsRead_bytes hs, by rw [afterFrames_cursor_toNat hs hc]; exact afterFrames_room hs hc⟩

/-- `n` bytes after the frames are consumed too. -/
theorem consume_afterFrames (hs : s.src.bytes = containerBytes secs.flatten ++ tail)
    (hc : s.cursor.toNat + s.src.bytes.length < 2 ^ 64) {n : Nat} (hn : n ≤ tail.length) :
    (consume n (afterFrames seen mayWarn b secs s)).cursor.toNat
        = s.cursor.toNat + (containerBytes secs.flatten).length + n
    ∧ (consume n (afterFrames seen mayWarn b secs s)).src = { s.src with bytes := tail.drop n } := by
  obtain ⟨hbytes, hroom⟩ := afterFrames_tail (seen := seen) (mayWarn := mayWarn) (b := b) hs hc
  refine ⟨?_, ?_⟩
  · rw [← afterFrames_cursor_toNat (seen := seen) (mayWarn := mayWarn) (b := b) hs hc]
    exact add_ofNat_toNat (by omega)
  · rw [← hbytes]
    rfl

/-- All the bytes after the frames are consumed too. -/
theorem consume_afterFrames_all (hs : s.src.bytes = containerBytes secs.flatten ++ tail)
    (hc : s.cursor.toNat + s.src.bytes.length < 2 ^ 64) {n : Nat} (hn : n = tail.length) :
    (consume n (afterFrames seen mayWarn b secs s)).cursor.toNat = s.cursor.toNat + s.src.bytes.length
    ∧ (consume n (afterFrames seen mayWarn b secs s)).src = { s.src with bytes := [] } := by
  subst hn
  have h := consume_afterFrames (seen := seen) (mayWarn := mayWarn) (b := b) hs hc le_rfl
  rwa [List.drop_length, Nat.add_assoc, ← List.length_append, ← hs] at h

end

/-! ### An error ends the command at a frame (R190, R231 to R234, R241) -/

/-- A command stops by an error with `n` more source bytes consumed and `h` in HDR_*. -/
def stoppedAt (c : Code) (avail : BitVec 5) (off : Count) (n : Nat) (h : Header) (e : Word) (s : State) : State :=
  { consume n s with
    status := s.status.failed c avail, evtOffset := off, hdr := h, srcErr := e, running := none }

/-- R163: DecodeAt at a header with another magic. -/
theorem decodeAt_otherMagic {h : Header} {rest : List Byte} {s : State} (hs : s.src.bytes = packHeader h ++ rest)
    (hm : h.magic ≠ frameMagic) (hc : s.cursor.toNat + 24 < 2 ^ 64) :
    decodeAt s = .stopped (stoppedAt .invalidMagic 0 s.cursor 24 h s.srcErr s) := by
  have hu := unpackHeader_packHeader h
  rw [decodeAt_badMagic hs rfl (by rwa [hu]) hc, headerRead, hu]
  rfl

/-- R164: DecodeAt at a header whose payload is short before a clean end. -/
theorem decodeAt_shortPayload {h : Header} {got : List Byte} {s : State} (hs : s.src.bytes = packHeader h ++ got)
    (hm : h.magic = frameMagic) (hp : got.length < payloadLength h) (he : s.src.ending = .eos)
    (hc : s.cursor.toNat + (24 + got.length) < 2 ^ 64) :
    decodeAt s = .stopped (stoppedAt .truncPayload 0 s.cursor (24 + got.length) h s.srcErr s) := by
  have hu := unpackHeader_packHeader h
  rw [decodeAt_truncPayload hs rfl (by rwa [hu]) (by rwa [hu]) he hc, headerRead, hu]
  simp [stoppedAt, consume, setBlockState, raiseError, Status.failed, BitVec.ofNat_add, BitVec.add_assoc]

/-- The error of a container decode that finds `bytes`, fewer than a header's, where it wants a frame (R231, R234). -/
def absentCode (bytes : List Byte) : Code := if bytes = [] then .frameCountMismatch else .truncHdr

/-- A container decode stops at a boundary where the bytes left are no whole header: all of them are consumed. -/
def frameAbsent (s : State) : State :=
  stoppedAt (absentCode s.src.bytes) (BitVec.ofNat 5 s.src.bytes.length) s.cursor s.src.bytes.length s.hdr s.srcErr s

theorem raise_eq_frameAbsent (b : BlockState) (s : State) :
    (if s.src.bytes.length = 0 then
        raiseError .frameCountMismatch s.cursor (consume s.src.bytes.length (setBlockState b s))
      else raiseTruncHdr s.cursor s.src.bytes.length (consume s.src.bytes.length (setBlockState b s)))
      = frameAbsent s := by
  rw [frameAbsent, absentCode]
  by_cases h : s.src.bytes = []
  · rw [if_pos h, if_pos (List.length_eq_zero_iff.mpr h), h]
    rfl
  · rw [if_neg h, if_neg (mt List.length_eq_zero_iff.mp h)]
    rfl

theorem errorStatus_absentCode (s : State) (bytes : List Byte) :
    errorStatus s (absentCode bytes) (BitVec.ofNat 5 bytes.length)
      = if bytes = [] then errorStatus s .frameCountMismatch 0
        else errorStatus s .truncHdr (BitVec.ofNat 5 bytes.length) := by
  rw [absentCode]
  split
  · subst bytes
    rfl
  · rfl

/-- What an error leaves of a container decode: the number of records before it, and its section (R39, R191). -/
theorem stoppedAt_results (seen : List BlockState) (mayWarn : Bool) (b : BlockState) (secs : List (List FrameData))
    (s : State) (c : Code) (avail : BitVec 5) (off : Count) (n : Nat) (h : Header) (e : Word) :
    resultsAre (stoppedAt c avail off n h e (afterFrames seen mayWarn b secs s)) off 0
      (BitVec.ofNat 32 secs.flatten.length) (BitVec.ofNat 32 (secs.length - 1)) 0 e :=
  ⟨rfl, rfl, afterFrames_framesDone (b := b), afterFrames_curSection (b := b), rfl, rfl⟩

/-- Settles O47: DecodeAt stops at the boundary after the frames, by each of its three errors. -/
theorem containerFrameErrorAborts : Obligations.ContainerFrameErrorAborts := by
  intro s i secs tail hw hf hd hs hc base frames sectionIdx records
  have hroom := afterFrames_room hs hc
  obtain ⟨seen, mayWarn, b, k, hexec, -⟩ := exec_wantsFrameAfter unpackHeader_packHeader hw hf hs (by omega) hd
  let u := setBlockState .cBound (afterFrames seen mayWarn b secs s)
  obtain ⟨htail, hcur⟩ : u.src.bytes = tail ∧ u.cursor.toNat + tail.length < 2 ^ 64 := afterFrames_tail hs hc
  have hstop : ∀ {v}, decodeAt u = .stopped v → exec i s = .next v := fun hv => by
    rw [hexec, hv, Run.bind_stopped, Run.outcome_stopped]
  have hlen : ∀ {h rest}, tail = packHeader h ++ rest → tail.length = 24 + rest.length := fun ht => by
    rw [ht, List.length_append, packHeader_length]
  refine ⟨fun h rest ht hm => ?magic, fun h got ht hm hp he => ?payload, fun h got e ht hm hp he => ?payloadFails,
    fun e hl he => ?headerFails⟩
  case magic =>
    have hrun : decodeAt u = _ := decodeAt_otherMagic (htail.trans ht) hm (by have := hlen ht; omega)
    have hrest : tail.drop 24 = rest := ht ▸ List.drop_left' (packHeader_length h)
    exact ⟨_, hstop hrun, rfl, startCommand_status_failed seen mayWarn s _ _, stoppedAt_results .., rfl,
      hrest ▸ consume_afterFrames hs hc (by have := hlen ht; omega)⟩
  case payload =>
    have hrun : decodeAt u = _ := decodeAt_shortPayload (htail.trans ht) hm hp he (hlen ht ▸ hcur)
    exact ⟨_, hstop hrun, rfl, startCommand_status_failed seen mayWarn s _ _, stoppedAt_results .., rfl,
      consume_afterFrames_all hs hc (hlen ht).symm⟩
  case payloadFails =>
    have hrun : decodeAt u = _ := decodeAt_failsInPayload (htail.trans ht) hm hp he (htail ▸ hcur)
    exact ⟨_, hstop hrun, rfl, startCommand_status_failed seen mayWarn s _ _, stoppedAt_results .., rfl,
      consume_afterFrames_all hs hc (congrArg List.length htail)⟩
  case headerFails =>
    have hrun : decodeAt u = _ := decodeAt_failsInHeader (htail ▸ hl) he (htail ▸ hcur)
    exact ⟨_, hstop hrun, rfl, startCommand_status_failed seen mayWarn s _ _, stoppedAt_results .., rfl,
      consume_afterFrames_all hs hc (congrArg List.length htail)⟩

/-- DecodeAt where the bytes left are no whole header (R162), in a command that takes that for an error. -/
theorem outcome_frameAbsent {s : State} {k : FrameRead → State → Run Unit}
    (hl : s.src.bytes.length < 24) (he : s.src.ending = .eos) (hc : s.cursor.toNat + s.src.bytes.length < 2 ^ 64)
    (hk : ∀ base m t, t.framesDone = s.framesDone → k (.short base m) t
      = .stopped (if m = 0 then raiseError .frameCountMismatch base t else raiseTruncHdr base m t)) :
    ((decodeAt s).bind k).outcome = .next (frameAbsent s) := by
  rw [decodeAt_short hl he hc, Run.bind_ok,
    hk _ _ (consume _ (setBlockState .rdHdr s)) rfl, raise_eq_frameAbsent, Run.outcome_stopped]

/-- Settles O46: at the boundary after the frames the bytes left are no whole header. -/
theorem countedDecodeFindsTooFewFrames : Obligations.CountedDecodeFindsTooFewFrames := by
  intro s i secs tail hw hi hf hd hs hl he hc
  have hroom := afterFrames_room hs hc
  obtain ⟨seen, mayWarn, b, k, hexec, hk⟩ := exec_wantsFrameAfter unpackHeader_packHeader hw hf hs (by omega) hd
  let u := setBlockState .cBound (afterFrames seen mayWarn b secs s)
  obtain ⟨htail, hcur⟩ : u.src.bytes = tail ∧ u.cursor.toNat + tail.length < 2 ^ 64 := afterFrames_tail hs hc
  have hout := outcome_frameAbsent (s := u) (htail ▸ hl) he (htail ▸ hcur)
    fun base m t _ => hk hi base m t
  obtain ⟨hcursor, hsrc⟩ := consume_afterFrames_all (seen := seen) (mayWarn := mayWarn) (b := b) hs hc
    (congrArg List.length htail)
  refine ⟨_, hexec.trans hout, rfl, ?status, stoppedAt_results .., hcursor, hsrc, rfl⟩
  case status =>
    rw [← errorStatus_absentCode, ← htail]
    exact startCommand_status_failed seen mayWarn s _ _

/-! ### The frames are all there (R185 to R188, R236) -/

/-- A container decode succeeds with the bytes left consumed, counted, and warned of if there are any (R187, R188). -/
def succeeded (s : State) : State :=
  finish { consume s.src.bytes.length s with
    status := if s.src.bytes = [] then s.status else s.status.warned
    evtOffset := if s.src.bytes = [] then s.evtOffset else s.cursor
    trailCount := BitVec.ofNat 64 s.src.bytes.length }

/-- R188: the drain of a source that ends cleanly. -/
theorem drainTrailing_succeeds {s : State} (he : s.src.ending = .eos)
    (hc : s.cursor.toNat + s.src.bytes.length < 2 ^ 64) :
    (drainTrailing s).outcome = .next (succeeded s) := by
  rw [drainTrailing_clean he hc, Run.outcome_ok, succeeded]
  cases s.src.bytes with
  | nil => rfl
  | cons x xs => rfl

/-- R187, R192: DECS with no whole header before its first frame. -/
theorem decodeScan_absent {fuel : Nat} {s : State} (hl : s.src.bytes.length < 24) (he : s.src.ending = .eos)
    (hc : s.cursor.toNat + s.src.bytes.length < 2 ^ 64) (hd : s.framesDone = 0) :
    (decodeScan (fuel + 1) s).outcome = .next (frameAbsent s) := by
  rw [decodeScan]
  refine outcome_frameAbsent (s := setBlockState .cBound s) hl he hc fun base m t ht => ?_
  have h0 : t.framesDone = 0 := ht.trans hd
  by_cases hm : m = 0
  · simp [h0, hm]
  · simp [h0, hm]

/-- R187: DECS with no whole header after one or more frames. -/
theorem decodeScan_succeeds {fuel : Nat} {s : State} (hl : s.src.bytes.length < 24) (he : s.src.ending = .eos)
    (hc : s.cursor.toNat + s.src.bytes.length < 2 ^ 64) (hd : s.framesDone ≠ 0) (ht : s.trailCount = 0) :
    (decodeScan (fuel + 1) s).outcome = .next (succeeded s) := by
  rw [decodeScan, decodeAt_short (s := setBlockState .cBound s) hl he hc, Run.bind_ok]
  refine (congrArg Run.outcome ((if_neg (fun h => hd h.1)).trans (if_neg hd))).trans ?_
  rw [succeeded, setBlockState_src]
  cases s.src.bytes with
  | nil =>
    rw [List.length_nil, show BitVec.ofNat 64 0 = s.trailCount from ht.symm]
    rfl
  | cons x xs => rfl

/-- What a container decode that succeeds has done: the claims of `DecsecDecodesSections`, which hold of DECN and DECS
for the one list of frames they read. -/
def ContainerDecoded (s : State) (secs : List (List FrameData)) (tail : List Byte) (t : State) : Prop :=
  t.records = s.records ++ recordsOfSections 0 0 s.cursor.toNat secs
  ∧ t.status = successStatus s (!tail.isEmpty)
  ∧ resultsAre t (if tail = [] then 0 else s.cursor + BitVec.ofNat 64 (containerBytes secs.flatten).length)
      (BitVec.ofNat 64 tail.length) (BitVec.ofNat 32 secs.flatten.length) (BitVec.ofNat 32 (secs.length - 1)) 0 0
  ∧ t.hdr = lastHeader s.hdr secs.flatten
  ∧ t.cursor.toNat = s.cursor.toNat + s.src.bytes.length ∧ t.src = { s.src with bytes := [] }
  ∧ t.cvtOut = s.cvtOut ∧ keepsSettings s t ∧ keepsPixels s t ∧ keepsSink s t ∧ t.running = none ∧ keepsWorld s t

theorem succeeded_afterFrames {secs : List (List FrameData)} {s : State} {tail : List Byte}
    (hs : s.src.bytes = containerBytes secs.flatten ++ tail) (hc : s.cursor.toNat + s.src.bytes.length < 2 ^ 64)
    (seen : List BlockState) (mayWarn : Bool) (b : BlockState) :
    ContainerDecoded s secs tail (succeeded (afterFrames seen mayWarn b secs s)) := by
  obtain ⟨htail, -⟩ := afterFrames_tail (seen := seen) (mayWarn := mayWarn) (b := b) hs hc
  obtain ⟨hcursor, hsrc⟩ := consume_afterFrames_all (seen := seen) (mayWarn := mayWarn) (b := b) hs hc
    (congrArg List.length htail)
  rw [← htail]
  exact ⟨rfl, afterFrames_status_finished _,
    ⟨rfl, rfl, afterFrames_framesDone (b := b), afterFrames_curSection (b := b), rfl, rfl⟩, rfl, hcursor, hsrc,
    rfl, ⟨rfl, rfl, rfl, rfl, rfl, rfl⟩, ⟨rfl, rfl⟩, ⟨rfl, rfl, rfl, rfl⟩, rfl, ⟨rfl, rfl, rfl⟩⟩

/-- R184, R188: DECN or DECSEC on the frames it wants and any bytes after them. -/
theorem exec_decodesContainer {i : Instr} {s : State} {secs : List (List FrameData)} {tail : List Byte}
    (hw : wantsExactly i s secs) (hf : ∀ f ∈ secs.flatten, FrameData.ok f) (hd : secs.flatten.length < 2 ^ 32)
    (hs : s.src.bytes = containerBytes secs.flatten ++ tail) (he : s.src.ending = .eos)
    (hc : s.cursor.toNat + s.src.bytes.length < 2 ^ 64) :
    ∃ t, exec i s = .next t ∧ ContainerDecoded s secs tail t := by
  have hroom := afterFrames_room hs hc
  obtain ⟨seen, mayWarn, b, hexec⟩ := exec_wantsExactly unpackHeader_packHeader hw hf hs (by omega) hd
  let u := afterFrames seen mayWarn b secs s
  obtain ⟨htail, hcur⟩ : u.src.bytes = tail ∧ u.cursor.toNat + tail.length < 2 ^ 64 := afterFrames_tail hs hc
  have hout := drainTrailing_succeeds (s := u) he (htail ▸ hcur)
  exact ⟨_, hexec.trans hout, succeeded_afterFrames hs hc seen mayWarn b⟩

/-- Settles O51: SEC_NUM and SEC_COUNT say what DECSEC wants, and those are the frames there. -/
theorem decsecDecodesSections : Obligations.DecsecDecodesSections := by
  intro s secs tail hf hnum hle hcount hd hs he hc
  refine exec_decodesContainer (Or.inr ⟨rfl, hnum ▸ hcount⟩) ?_ (by rwa [List.length_flatten]) hs he hc
  intro f hmem
  obtain ⟨fs, hfs, hmem⟩ := List.mem_flatten.mp hmem
  exact hf fs hfs f hmem

/-- Settles O45: FRAME_COUNT says what DECN wants, and those are the frames there. -/
theorem decnDecodesContainer : Obligations.DecnDecodesContainer := by
  intro s fs tail hf hcount hs he hc
  have hcount' : BitVec.ofNat 32 fs.length = s.frameCount := by rw [← hcount, BitVec.ofNat_toNat, BitVec.setWidth_eq]
  obtain ⟨t, hexec, ht⟩ := exec_decodesContainer (i := .decn) (secs := [fs]) (Or.inl ⟨rfl, fs, rfl, hcount.symm⟩)
    (by simpa using hf) (by simpa [← hcount] using s.frameCount.isLt) (by simpa using hs) he hc
  exact ⟨t, hexec, by simpa [ContainerDecoded, recordsOfSections, hcount'] using ht⟩

/-- R183: the frames of section 0 are what a decode of that one section has read. -/
theorem framesRead_eq_sectionsRead {fs : List FrameData} {s : State} (h : s.curSection = 0) :
    framesRead 0 fs s = sectionsRead 0 [fs] (framesRead 0 fs s).status.state s := by
  simp only [framesRead, sectionsRead, consume, recordsOfSections, List.flatten_cons, List.flatten_nil, List.append_nil]
  congr 1
  split <;> rfl

/-- R187: DECS stands at the boundary after the whole frames, with rounds left. -/
theorem exec_decs_boundary {s : State} {fs : List FrameData} {tail : List Byte} (hf : ∀ f ∈ fs, FrameData.ok f)
    (hd : fs.length < 2 ^ 32) (hs : s.src.bytes = containerBytes fs ++ tail)
    (hc : s.cursor.toNat + s.src.bytes.length < 2 ^ 64) :
    ∃ b fuel, exec .decs s = (decodeScan (fuel + 1) (afterFrames containerStates true b [fs] s)).outcome := by
  let u := startCommand containerStates true s
  have hge := containerBytes_length_ge fs
  have hlen : s.src.bytes.length = (containerBytes fs).length + tail.length := by rw [hs, List.length_append]
  have hrounds : s.src.bytes.length + 1 = fs.length + (s.src.bytes.length - fs.length + 1) := by omega
  have hwhole := decodeScan_whole unpackHeader_packHeader fs (s.src.bytes.length - fs.length + 1) tail u hf hs
    (show s.cursor.toNat + _ < _ by omega) (show 0 + fs.length < _ by omega)
  rw [framesRead_eq_sectionsRead (s := u) rfl, ← hrounds] at hwhole
  exact ⟨_, _, congrArg Run.outcome hwhole⟩

/-- Settles O49: DECS stands after one or more frames, and ends there. -/
theorem decsDecodesContainer : Obligations.DecsDecodesContainer := by
  intro s fs tail hf hne hd hl hs he hc
  obtain ⟨b, fuel, hexec⟩ := exec_decs_boundary hf hd hs hc
  let u := afterFrames containerStates true b [fs] s
  have hs' : s.src.bytes = containerBytes [fs].flatten ++ tail := by simpa using hs
  obtain ⟨htail, hcur⟩ : u.src.bytes = tail ∧ u.cursor.toNat + tail.length < 2 ^ 64 := afterFrames_tail hs' hc
  have hsome : u.framesDone ≠ 0 := by
    intro h
    have hzero := congrArg BitVec.toNat (afterFrames_framesDone.symm.trans h)
    rw [BitVec.toNat_ofNat, List.flatten_singleton, Nat.mod_eq_of_lt hd] at hzero
    exact hne (List.length_eq_zero_iff.mp hzero)
  have hout := decodeScan_succeeds (fuel := fuel) (s := u) (htail ▸ hl) he (htail ▸ hcur) hsome rfl
  have hdone := succeeded_afterFrames hs' hc containerStates true b
  exact ⟨_, hexec.trans hout, by simpa [ContainerDecoded, recordsOfSections] using hdone⟩

/-- Settles O50: DECS stands at its first boundary. -/
theorem decsNeedsAFirstFrame : Obligations.DecsNeedsAFirstFrame := by
  intro s hl he hc
  have hout := decodeScan_absent (fuel := s.src.bytes.length) (s := startCommand containerStates true s) hl he hc rfl
  refine ⟨_, hout, ?status, ⟨rfl, rfl, rfl, rfl, rfl, rfl⟩, rfl, rfl, add_ofNat_toNat hc⟩
  case status =>
    rw [← errorStatus_absentCode]
    exact startCommand_status_failed containerStates true s _ _

end Sys2Proof.Machine
end

section
/-! Proofs of 43_control: SRST and NOP (O17, O53). -/
namespace Sys2Proof.Machine

/-! ### SRST (R221) -/

/-- SRST is the common start, then the reset of the block (R221). -/
theorem exec_srst (s : State) : exec .srst s = .next (resetBlock (startCommand [] false s)) := rfl

/-- A reset leaves 0 at every offset of the window (R44). -/
theorem readWindow_resetBlock (s : State) (off : Nat) : readWindow (resetBlock s) off = 0 :=
  regValue_resetBlock s (regAt _ off)

/-- Settles O17: the reset overwrites what the start set, and the start keeps what the reset leaves. -/
theorem srstResetsTheBlock : Obligations.SrstResetsTheBlock := by
  intro s
  refine ⟨_, exec_srst s, readWindow_resetBlock _, resetBlock_status _, ?sections, rfl, rfl, rfl, rfl,
    resetBlock_running _, rfl, rfl, rfl, rfl, rfl, ⟨rfl, rfl, rfl⟩⟩
  case sections =>
    rw [resetBlock_secCount, startCommand_secCount, List.length_replicate]

/-! ### NOP (R220) -/

/-- NOP is the common start and completion only (R220). -/
theorem exec_nop (s : State) : exec .nop s = .next (finish (startCommand [] false s)) := rfl

/-- A command that completes right after its start ends with STATUS of success and no warning (R42). -/
theorem finish_startCommand_status (seen : List BlockState) (mayWarn : Bool) (s : State) :
    (finish (startCommand seen mayWarn s)).status = successStatus s false := by
  rw [finish_status, startCommand_status_eq]
  exact finished_started s _

/-- Settles O53: the start clears the last command's results, the completion sets STATUS, and neither touches more. -/
theorem nopClearsStatus : Obligations.NopClearsStatus :=
  fun s => ⟨_, exec_nop s, finish_startCommand_status [] false s, ⟨rfl, rfl, rfl, rfl, rfl, rfl⟩, rfl, rfl,
    ⟨rfl, rfl, rfl, rfl, rfl, rfl⟩, ⟨rfl, rfl⟩, ⟨rfl, rfl⟩, ⟨rfl, rfl, rfl, rfl⟩, rfl, rfl, ⟨rfl, rfl, rfl⟩⟩

end Sys2Proof.Machine
end

section
/-! Proofs of 60_exceptions: a byte that the sink rejects inside ENCF, and what ENCF refuses (O29 to O31). -/
namespace Sys2Proof.Machine

/-! ### A rejected byte (R155, R242) -/

/-- The words ENCF has read when it attempts byte `k` of its frame: none inside the header, and then one for each pixel
begun (R150, R153). -/
def wordsRead (fmt : PixelFormat) (k : Nat) : Nat := if k < 24 then 0 else (k - 24) / fmt.bpp + 1

/-- The place of byte `k` of a frame: in the header, or byte `j` of pixel `m` (R107, R153). -/
theorem wordsRead_cases (fmt : PixelFormat) (k : Nat) :
    (k < 24 ∧ wordsRead fmt k = 0)
    ∨ ∃ m j, j < fmt.bpp ∧ k = 24 + (m * fmt.bpp + j) ∧ wordsRead fmt k = m + 1 := by
  rcases Nat.lt_or_ge k 24 with hk | hk
  · exact Or.inl ⟨hk, if_pos hk⟩
  · refine Or.inr ⟨(k - 24) / fmt.bpp, (k - 24) % fmt.bpp, Nat.mod_lt _ (bpp_pos fmt), ?_, if_neg (Nat.not_lt.mpr hk)⟩
    rw [Nat.div_add_mod']
    omega

/-- The length of the frame that ENCF writes, as the number of its pixels gives it (R108, R150). -/
theorem encodedLength_eq (fmt : PixelFormat) (s : State) :
    encodedLength fmt s = 24 + s.inWidth.toNat * s.inHeight.toNat * fmt.bpp := by
  rw [encodedLength]
  ring

/-- A pixel with a byte inside the frame is one of its W × H. -/
theorem pixel_lt_of_byte_lt {fmt : PixelFormat} {s : State} {m j : Nat}
    (hk : 24 + (m * fmt.bpp + j) < encodedLength fmt s) : m < s.inWidth.toNat * s.inHeight.toNat := by
  rw [encodedLength_eq] at hk
  exact Nat.lt_of_mul_lt_mul_right (a := fmt.bpp) (by omega)

/-- The bytes before byte `j` of pixel `m` come of the words up to that pixel's own. -/
theorem encodedPayload_take {fmt : PixelFormat} {s : State} {m j : Nat}
    (hm : m < s.inWidth.toNat * s.inHeight.toNat) (hp : m < s.pix.length) (hj : j < fmt.bpp) :
    (encodedPayload fmt s).take (m * fmt.bpp + j)
      = ((s.pix.take (m + 1)).flatMap (pixbytes fmt)).take (m * fmt.bpp + j) := by
  have hlen : ((s.pix.take (m + 1)).flatMap (pixbytes fmt)).length = m * fmt.bpp + fmt.bpp := by
    rw [flatMap_pixbytes_length, List.length_take, Nat.min_eq_left hp, Nat.succ_mul]
  obtain ⟨ws, hws⟩ : s.pix.take (m + 1) <+: s.pix.take (s.inWidth.toNat * s.inHeight.toNat) :=
    List.take_prefix_take_left hm
  rw [encodedPayload, ← hws, List.flatMap_append, List.take_append_of_le_length (by omega)]

/-- The words read by byte `k` give every byte before it. -/
theorem encodedFrame_take_length {fmt : PixelFormat} {s : State} {k : Nat} (hk : k < encodedLength fmt s)
    (hread : wordsRead fmt k ≤ s.pix.length) : ((encodedFrame fmt s).take k).length = k := by
  rw [List.length_take, encodedFrame, frameBytes_length, encodedPayload, flatMap_pixbytes_length, List.length_take]
  refine Nat.min_eq_left ?_
  rcases wordsRead_cases fmt k with ⟨hk24, -⟩ | ⟨m, j, hj, rfl, hw⟩
  · omega
  · have hm : m + 1 ≤ min (s.inWidth.toNat * s.inHeight.toNat) s.pix.length :=
      le_min (pixel_lt_of_byte_lt hk) (hw ▸ hread)
    have := Nat.mul_le_mul_right fmt.bpp hm
    rw [Nat.succ_mul] at this
    omega

/-- An ENCF that began in `s` with `k` bytes of its frame written and the next one rejected with `e`; STATE was `b`. -/
def byteRejected (fmt : PixelFormat) (b : BlockState) (k : Nat) (e : Word) (s : State) : State :=
  let u := encoding fmt b ((encodedFrame fmt s).take k) (wordsRead fmt k) s
  raiseError .sinkIo u.outCount { u with sinkAnswers := s.sinkAnswers.drop (k + 1), sinkErr := e }

/-- The sink rejects byte `k` of the frame: ENCF stops there, in the header or inside a pixel (R155). -/
theorem encodeCommand_rejects {fmt : PixelFormat} {s : State} {k : Nat} {e : Word} (hg : goodDimensions fmt s)
    (hread : wordsRead fmt k ≤ s.pix.length) (hk : k < encodedLength fmt s) (ha : sinkAccepts s k)
    (hr : sinkAnswerAt s k = .reject e) (ho : s.outCount.toNat + k < 2 ^ 64)
    (he : s.expCount.toNat + encodedLength fmt s < 2 ^ 64) :
    ∃ b, encodeCommand fmt.code s = .stopped (byteRejected fmt b k e s) := by
  rw [← frameLength_eq_encodedLength hg] at he
  rcases wordsRead_cases fmt k with ⟨hk24, hw⟩ | ⟨m, j, hj, rfl, hw⟩
  · have htake : (encodedFrame fmt s).take k = (packHeader (encodedHeader fmt s.inWidth s.inHeight)).take k :=
      List.take_append_of_le_length hk24.le
    refine ⟨.eHdr, ?_⟩
    rw [encodeCommand_eq hg he, sinkWrite_rejects _ (headerStart fmt s) hk24 ha hr ho, byteRejected, htake, hw]
    rfl
  · have hm := pixel_lt_of_byte_lt hk
    have hp : m < s.pix.length := hw.symm.trans_le hread
    have htake : (encodedFrame fmt s).take (24 + (m * fmt.bpp + j))
        = packHeader (encodedHeader fmt s.inWidth s.inHeight)
          ++ ((s.pix.take (m + 1)).flatMap (pixbytes fmt)).take (m * fmt.bpp + j) := by
      rw [← encodedPayload_take hm hp hj]
      exact List.take_length_add_append (l₁ := packHeader (encodedHeader fmt s.inWidth s.inHeight)) _
    have hloop := encodePixels_rejects fmt _ m j (payloadStart fmt s) (e := e) hm hp hj
      (fun i hi => (sinkAnswerAt_payloadStart fmt s i).trans (ha _ (Nat.add_lt_add_left hi 24)))
      ((sinkAnswerAt_payloadStart fmt s _).trans hr)
      (by rw [payloadStart_outCount (by omega)]; omega)
    have hanswers : (payloadStart fmt s).sinkAnswers.drop (m * fmt.bpp + j + 1)
        = s.sinkAnswers.drop (24 + (m * fmt.bpp + j) + 1) :=
      List.drop_drop
    refine ⟨.ePay, ?_⟩
    rw [encodeCommand_header hg (fun i hi => ha i (by omega)) (by omega) he, hloop, byteRejected, htake, hw,
      accepted_payloadStart, hanswers]
    rfl

/-- Settles O31: ENCF stops at the rejected byte, with the bytes before it written and the words of those bytes, and of
the rejected one, read. -/
theorem encfSinkRejects : Obligations.EncfSinkRejects := by
  intro s i fmt k e hi n h read hg hread hk ha hr ho he
  obtain ⟨b, hrun⟩ := encodeCommand_rejects (s := encodeStart s) hg hread hk ha hr ho he
  have hlen : ((encodedFrame fmt (encodeStart s)).take k).length = k :=
    encodedFrame_take_length (s := encodeStart s) hk hread
  refine ⟨byteRejected fmt b k e (encodeStart s), ?ran, startCommand_status_failed [.eHdr, .ePay] false s .sinkIo 0,
    ⟨rfl, rfl, rfl, rfl, rfl, rfl⟩, rfl, ?out, ?exp, rfl, rfl, rfl, rfl, rfl, ⟨rfl, rfl, rfl, rfl, rfl, rfl⟩,
    ⟨rfl, rfl⟩, rfl, rfl, ⟨rfl, rfl, rfl⟩⟩
  case ran => rw [exec_of_encodesIn hi, hrun, Run.outcome_stopped]
  case out =>
    have := accepted_outCount_toNat (bs := (encodedFrame fmt (encodeStart s)).take k) (s := s) (hlen.symm ▸ ho)
    exact this.trans (congrArg (s.outCount.toNat + ·) hlen)
  case exp =>
    rw [← frameLength_eq_encodedLength hg] at he ⊢
    exact add_ofNat_toNat he

/-! ### What ENCF refuses (R151, R152) -/

/-- What is left of an ENCF that refuses its format or its dimensions: its error at OUT_COUNT, and nothing else
(R238, R239). -/
theorem exec_of_encodeRefused {i : Instr} {code : Word} {c : Code} {s : State}
    (hi : exec i s = (encodeCommand code (encodeStart s)).outcome)
    (hrun : encodeCommand code (encodeStart s) = .stopped (raiseError c s.outCount (encodeStart s))) :
    ∃ t, exec i s = .next t ∧ t.status = errorStatus s c 0
      ∧ resultsAre t s.outCount 0 0 0 0 0 ∧ t.hdr = s.hdr ∧ t.cvtOut = s.cvtOut ∧ keepsSettings s t
      ∧ keepsSource s t ∧ keepsPixels s t ∧ keepsSink s t ∧ t.records = s.records ∧ t.running = none
      ∧ keepsWorld s t :=
  ⟨_, hi.trans (congrArg Run.outcome hrun), startCommand_status_failed _ _ s c 0, ⟨rfl, rfl, rfl, rfl, rfl, rfl⟩, rfl,
    rfl, ⟨rfl, rfl, rfl, rfl, rfl, rfl⟩, ⟨rfl, rfl⟩, ⟨rfl, rfl⟩, ⟨rfl, rfl, rfl, rfl⟩, rfl, rfl, ⟨rfl, rfl, rfl⟩⟩

/-- Of the codes that a word can give, ENCF.FMT converts the two of R104 only. -/
theorem supportedFormat_selectFormat_eq_none {code : BitVec 8} (h12 : code ≠ 0x12) (h14 : code ≠ 0x14) :
    supportedFormat (selectFormat false false code) = none := by
  have hne : ∀ c : BitVec 8, code ≠ c → code.setWidth 32 ≠ c.setWidth 32 := fun c hc heq => hc (by bv_omega)
  exact (if_neg (hne 0x12 h12)).trans (if_neg (hne 0x14 h14))

/-- Settles O29: no other code has a conversion, and ENCF asks for one first. -/
theorem encfFmtUnsupported : Obligations.EncfFmtUnsupported := fun _ _ h12 h14 =>
  exec_of_encodeRefused rfl (encodeCommand_unsupported (supportedFormat_selectFormat_eq_none h12 h14) _)

/-- Settles O30: the three conditions of R151 are what `goodDimensions` excludes. -/
theorem encfBadDimensions : Obligations.EncfBadDimensions := by
  intro s i fmt hi hbad
  have hg : ¬ goodDimensions fmt s := by
    rintro ⟨hw, hh, hstride⟩
    have hbpp : (if fmt = .rgb565 then 2 else 3) = fmt.bpp := by cases fmt <;> rfl
    rw [hbpp] at hbad
    rcases hbad with h | h | h
    · exact hw h
    · exact hh h
    · exact Nat.not_lt.mpr hstride h
  exact exec_of_encodeRefused (exec_of_encodesIn hi s) (encodeCommand_badDimensions (s := encodeStart s) hg)

end Sys2Proof.Machine
end

section
/-! Proofs of 60_exceptions: an illegal word, CENCE, power-on reset inside a command, and the host and a waiting ENCF
(O6, O11, O12, O14, O19, O44). -/
namespace Sys2Proof.Machine

/-! ### The word written to CMD -/

/-- A write of CMD to an idle block runs the word, unless power-on reset cuts it (R75, R250). -/
theorem step_of_commandWritten {s : State} {rest : List HostEvent} {w : Word} (hh : s.host = .write 0 4 w :: rest)
    (hb : s.status.busy = false) (hr : s.running = none) :
    step s = unlessCut { s with host := rest } (runWord w { s with host := rest }) :=
  step_eq_of_command ((nextTurn_of_write hh (.inr hr) rfl (by decide)).trans (hostWrite_cmd w hb))

/-- A legal word is its command (R75). -/
theorem runWord_of_legal {w : Word} {i : Instr} (h : decodeWord w = .ok i) (s : State) : runWord w s = exec i s := by
  rw [runWord, h]

/-- A word that decodes to none raises ILLEGAL_CMD (R94). -/
theorem runWord_of_illegal {w : Word} {r : IllegalWord} (h : decodeWord w = .error r) (s : State) :
    runWord w s = .next (illegalCommand s) := by
  rw [runWord, h]

/-- Settles O6: the word runs, and as an illegal one it is the common start and its error (R94). -/
theorem illegalWordRaisesIllegalCmd : Obligations.IllegalWordRaisesIllegalCmd := by
  intro s rest w r hh hb hr hcut hw
  have hstep : step s = .next (illegalCommand { s with host := rest }) := by
    rw [step_of_commandWritten hh hb hr, runWord_of_illegal hw, unlessCut_none (s := { s with host := rest }) hcut]
  exact ⟨_, hstep, startCommand_status_failed [] false s .illegalCmd 0, ⟨rfl, rfl, rfl, rfl, rfl, rfl⟩, rfl, rfl,
    ⟨rfl, rfl, rfl, rfl, rfl, rfl⟩, ⟨rfl, rfl⟩, ⟨rfl, rfl⟩, ⟨rfl, rfl, rfl, rfl⟩, rfl, rfl, ⟨rfl, rfl, rfl⟩⟩

/-! ### CENCE (R182, R240) -/

/-- CENCE on equal counts (R182). -/
theorem exec_cence_equal {s : State} (h : s.outCount = s.expCount) :
    exec .cence s = .next (finish (setBlockState .cCheck (startCommand [.cCheck] false s))) :=
  if_neg (not_not.mpr h)

/-- CENCE on unequal counts (R182, R240). -/
theorem exec_cence_unequal {s : State} (h : s.outCount ≠ s.expCount) :
    exec .cence s
      = .next (raiseError .lenMismatch s.outCount (setBlockState .cCheck (startCommand [.cCheck] false s))) :=
  if_pos h

/-- Settles O44: by whether the counts are equal. -/
theorem cenceChecksCounts : Obligations.CenceChecksCounts := by
  intro s
  by_cases heq : s.outCount = s.expCount
  · have hstatus : (setBlockState .cCheck (startCommand [.cCheck] false s)).status.finished = successStatus s false := by
      rw [setBlockState_status, startCommand_status_eq]
      exact finished_started s .cCheck
    exact ⟨_, exec_cence_equal heq, fun _ => ⟨hstatus, rfl, rfl, rfl, rfl, rfl, rfl⟩, fun hne => absurd heq hne, rfl,
      rfl, ⟨rfl, rfl, rfl, rfl, rfl, rfl⟩, ⟨rfl, rfl⟩, ⟨rfl, rfl⟩, ⟨rfl, rfl, rfl, rfl⟩, rfl, rfl, ⟨rfl, rfl, rfl⟩⟩
  · exact ⟨_, exec_cence_unequal heq, fun h => absurd h heq,
      fun _ => ⟨startCommand_status_failed [.cCheck] false s .lenMismatch 0, rfl, rfl, rfl, rfl, rfl, rfl⟩, rfl, rfl,
      ⟨rfl, rfl, rfl, rfl, rfl, rfl⟩, ⟨rfl, rfl⟩, ⟨rfl, rfl⟩, ⟨rfl, rfl, rfl, rfl⟩, rfl, rfl, ⟨rfl, rfl, rfl⟩⟩

/-! ### Power-on reset inside a command (R250, R270) -/

/-- No command changes what lies outside the block: the sink's later answers, the staged streams, the host (R43). -/
theorem exec_keepsWorld {i : Instr} {s t : State} (h : exec i s = .next t) : keepsWorld s t := by
  cases i with
  | nop | srst | cvt565 | cvt565a8 | cencb =>
    cases h
    exact ⟨rfl, rfl, rfl⟩
  | cence =>
    by_cases heq : s.outCount = s.expCount
    · cases (exec_cence_equal heq).symm.trans h
      exact ⟨rfl, rfl, rfl⟩
    · cases (exec_cence_unequal heq).symm.trans h
      exact ⟨rfl, rfl, rfl⟩
  | encfAuto a =>
    obtain ⟨-, -, -, -, hworld, -⟩ := encfFrame s t _ (Or.inl ⟨a, rfl⟩) h
    exact hworld
  | encfFmt f =>
    obtain ⟨-, -, -, -, hworld, -⟩ := encfFrame s t _ (Or.inr ⟨f, rfl⟩) h
    exact hworld
  | decf | decn | decs | decsec =>
    obtain ⟨-, -, -, -, -, -, hworld, -⟩ := decodeFrame s t _ (by simp) h
    exact hworld

/-- Settles O19: the step resets the block over what is out of the command's output; histories only grow in a step. -/
theorem powerOnInsideCommandResets : Obligations.PowerOnInsideCommandResets := by
  intro s t rest w i k hh hb hr hcut hw h
  have hstep : step s = .next (abandonCommand k { s with host := rest } t) := by
    rw [step_of_commandWritten hh hb hr, runWord_of_legal hw, h, unlessCut_some (s := { s with host := rest }) hcut]
  obtain ⟨hsink, hrecords⟩ := historiesOnlyGrow s _ hstep
  obtain ⟨hrest, hstaged, hhost⟩ := exec_keepsWorld h
  exact ⟨_, hstep, readWindow_resetBlock _, rfl, rfl, rfl, congrArg Streams.src hstaged, congrArg Streams.pix hstaged,
    rfl, rfl, hsink, rfl, hrecords, ⟨hrest, hstaged, hhost⟩⟩

/-! ### The host and a waiting ENCF (R67, R248) -/

/-- A write while BUSY = 1 is dropped and flagged (R248). -/
theorem hostWrite_busy {s : State} (off : Nat) (v : Word) (hb : s.status.busy = true) :
    hostWrite off v s = .ended (.next { s with status := s.status.writeDropped }) :=
  if_pos hb

/-- What a read while BUSY = 1 returns: STATUS shows a state that ENCF passes through, the rest is drawn (R248). -/
def busyReadValue (off : Nat) (s : State) : Word :=
  if off = 4 then busyStatusWord waitingStates false s.draws s.status else Config.busyRead s.draws

/-- A read while BUSY = 1 is logged and uses up one drawn value; nothing else changes (R248). -/
theorem hostRead_busy {s : State} (off : Nat) (hb : s.status.busy = true) :
    hostRead off s = { s with readLog := s.readLog ++ [(off, busyReadValue off s)], draws := s.draws + 1 } :=
  if_pos hb

/-- With no host event left and no ENCF that can go on, a busy block is stuck and an idle one holds its state (R67, R253,
93 U15). -/
theorem step_of_no_event {s : State} (h : s.host = []) (hr : s.pix = [] ∨ s.running = none) :
    step s = if s.status.busy then .fault .pixelStarved else .next s := by
  have hturn : nextTurn s = hostTurn s := by
    rcases hr with hp | hr
    · rw [nextTurn, hp]
      cases s.running <;> rfl
    · rw [nextTurn, hr]
  exact step_eq_of_ended (hturn.trans (by rw [hostTurn, h]))

/-- Settles O11: the turn is the host's, and the block drops its write. -/
theorem writeWhileBusyIsDropped : Obligations.WriteWhileBusyIsDropped := by
  intro s rest off v hh hb hp ha hl
  exact step_eq_of_ended ((nextTurn_of_write hh (.inl hp) ha hl).trans (hostWrite_busy off v hb))

/-- Settles O12: the turn is the host's; STATUS shows what a read inside the running command would. -/
theorem readWhileBusyShowsBusy : Obligations.ReadWhileBusyShowsBusy := by
  intro s rest off hh hb hp ha hl
  have hread := hostRead_busy (s := { s with host := rest }) off hb
  refine ⟨busyReadValue off s, ?step, ?status⟩
  case step =>
    rw [step_eq_of_ended (nextTurn_of_read hh (.inl hp) ha hl), hread]
    rfl
  case status =>
    rintro rfl
    have hmem : (4, busyReadValue 4 s) ∈ busyReads waitingStates false s.status s.draws [.read 1] :=
      List.mem_singleton_self _
    obtain ⟨hbusy, hstate⟩ := busyReads_status (by decide) false hb s.draws _ hmem
    exact ⟨hbusy, by simpa [waitingStates] using hstate⟩

/-- Settles O14: by BUSY. -/
theorem noEventLeftIdleOrStuck : Obligations.NoEventLeftIdleOrStuck := by
  intro s hh
  refine ⟨fun hb hr => ?idle, fun hb hp => ?stuck⟩
  case idle => rw [step_of_no_event hh (.inr hr), hb]; rfl
  case stuck => rw [step_of_no_event hh (.inl hp), hb]; rfl

end Sys2Proof.Machine
end

section
/-! Proofs of 70_reset_and_hazards: power-on reset as an event of the host, and SRST (O18). -/
namespace Sys2Proof.Machine

/-- A reset overwrites every register that a command's start writes, and without host accesses the start logs and draws
nothing (R42, R44). -/
theorem resetBlock_startCommand (seen : List BlockState) (mayWarn : Bool) {s : State} (h : s.overlap = []) :
    resetBlock (startCommand seen mayWarn s) = resetBlock s := by
  simp [resetBlock, h, busyReads]

/-- Where no ENCF can go on, the host's power-on reset resets the block, busy or not (R250, R270). -/
theorem step_of_powerOn {s : State} {rest : List HostEvent} (hh : s.host = .powerOn :: rest)
    (hr : s.pix = [] ∨ s.running = none) : step s = .next (resetBlock { s with host := rest }) :=
  step_eq_of_ended (nextTurn_of_event hh hr)

/-- Settles O18: the power-on reset resets the block, and SRST does so after a start of which the reset leaves nothing. -/
theorem powerOnResetEqualsSrst : Obligations.PowerOnResetEqualsSrst := by
  intro s rest hh hr hoverlap
  rw [step_of_powerOn hh hr, exec_srst, resetBlock_startCommand [] false (s := { s with host := rest }) hoverlap]

end Sys2Proof.Machine
end
